-- ==== Sys2Proof/Word.lean ====
section
/-! DEFINITION. The machine's value types: bytes, 16-bit words and the two operand widths
(00_scope.md R7, R8). -/

namespace Sys2Proof

/-- A byte: 8 bits (R7, R8). -/
abbrev Byte := BitVec 8

/-- A word: 16 bits, the width `W` of every register (R7). -/
abbrev Word := BitVec 16

/-- The width of an operand: 1 byte or 2 bytes (R7, R76). -/
inductive Width where
  | byte
  | word
  deriving DecidableEq, Repr, Inhabited

/-- The number of bytes `w` of a width (R7). -/
def Width.bytes : Width → Nat
  | .byte => 1
  | .word => 2

/-- The number of bits `N = 8w` of a width (42_flags.md, opening convention). -/
abbrev Width.bits : Width → Nat
  | .byte => 8
  | .word => 16

end Sys2Proof
end

