-- ==== Sys2Proof/Syntax.lean ====
section
/-! DEFINITION. The names of the registers (10_state.md R20), the decoded-instruction record of level 1
(30_encoding.md R70 to R76), and the instructions of level 2, one constructor of `Instr` per row of
opcode_table.json (30_encoding.md R80 to R98). Types only: what they mean is in Decode.lean and Machine/. -/

namespace Sys2Proof

/-! ### Registers -/

/-- The 8 general registers, in the order of R20. -/
inductive GReg where
  | ax | bx | cx | dx | sp | bp | si | di
  deriving DecidableEq, Repr, Inhabited

/-- The 4 segment registers, in the order of R20 (which is also the order of the `sr` field, R85). -/
inductive SReg where
  | es | cs | ss | ds
  deriving DecidableEq, Repr, Inhabited

/-- The 13 addressable registers of the register file (R20). -/
inductive Reg where
  | gen (g : GReg)
  | seg (sr : SReg)
  | ip
  deriving DecidableEq, Repr, Inhabited

/-- The four registers that have byte halves (R20, R23). -/
inductive HalfReg where
  | ax | bx | cx | dx
  deriving DecidableEq, Repr, Inhabited

/-- The byte offset within a register: 0 is the low half, 1 the high half (R21). -/
inductive Half where
  | low | high
  deriving DecidableEq, Repr, Inhabited

/-- The base and index registers, the only ones an address term may name (R135). -/
inductive AddrReg where
  | bx | bp | si | di
  deriving DecidableEq, Repr, Inhabited

/-! ### Level 1: the decoded-instruction record -/

/-- An operand of a decoded record, as a decoder hands it over: nothing about it has been checked yet.
`Reg(index, width, offset)` (R73), `Imm(value)` (R74), `Mem(terms, disp, width)` (R75). A register is
named by its id of the table of R20. -/
inductive OperandRec where
  | reg (index width offset : Nat)
  | imm (value : Word)
  | mem (terms : List Nat) (disp : Int) (width : Nat)
  deriving DecidableEq, Repr, Inhabited

/-- The opcode tag of a decoded record: the ten admitted operations, or `OTHER(t)` for any other
operation the decoder can name (R71). -/
inductive Op where
  | mov | add | sub | cmp | jne | je | jb | jp | loop | loopnz
  | other (t : String)
  deriving DecidableEq, Repr, Inhabited

/-- A decoded instruction `{ op, size, operands }` (R71). -/
structure Record where
  op : Op
  size : Nat
  operands : List OperandRec
  deriving DecidableEq, Repr, Inhabited

/-- `DECODE(window)`: the decoded record and the number of bytes consumed, or the sentinel "no
instruction" (R70). The engine takes it as a parameter (R110). -/
abbrev Decoder := List Byte → Option (Record × Nat)

/-! ### Level 1 after the checks of R117: operands that have a meaning at width `w` -/

/-- A place that can be read and written at width `w` (R130, R133): a byte half, a general register, a
segment register (words only) or a memory operand. -/
inductive Place : Width → Type where
  | half (r : HalfReg) (k : Half) : Place .byte
  | gen (g : GReg) : Place .word
  | seg (sr : SReg) : Place .word
  | mem {w : Width} (terms : List AddrReg) (disp : Int) : Place w

/-- A source operand at width `w`: a place or an immediate, which takes the destination's width (R76). -/
inductive Source (w : Width) where
  | place (p : Place w)
  | imm (value : Word)

/-- The three arithmetic operations (R180 to R182). -/
inductive ArithOp where
  | add | sub | cmp
  deriving DecidableEq, Repr, Inhabited

/-- The conditions of the four conditional jumps (R193 to R196). -/
inductive Cond where
  | ne | e | b | p
  deriving DecidableEq, Repr, Inhabited

/-- A record that has passed R117: what the dispatch table of R113 runs. -/
inductive Checked where
  | move (w : Width) (dst : Place w) (src : Source w)
  | arith (op : ArithOp) (w : Width) (dst : Place w) (src : Source w)
  | jump (c : Cond) (disp : Byte)
  | loop (whileNotZero : Bool) (disp : Byte)

/-! ### Level 2: the byte-encoded instructions -/

/-- The 3-bit register field: each code is named by the word register and the byte register it stands
for (R84), in the order of the codes 000 to 111. -/
inductive RegCode where
  | axAl | cxCl | dxDl | bxBl | spAh | bpCh | siDh | diBh
  deriving DecidableEq, Repr, Inhabited

/-- The address registers of the `r/m` field, in the order of the codes 000 to 111 (R86). -/
inductive Base where
  | bxSi | bxDi | bpSi | bpDi | si | di | bp | bx
  deriving DecidableEq, Repr, Inhabited

/-- The `mod` and `r/m` fields with the displacement bytes they ask for (R84, R86): a register
(mod = 11), `[base]` (mod = 00), `[addr16]` (mod = 00, r/m = 110), `[base + disp8]` (mod = 01) and
`[base + disp16]` (mod = 10). -/
inductive RM where
  | reg (c : RegCode)
  | ind (b : Base)
  | direct (addr : Word)
  | disp8 (b : Base) (d : Byte)
  | disp16 (b : Base) (d : Word)
  deriving DecidableEq, Repr, Inhabited

/-- An immediate whose size the `w` bit gives: imm8 for w = 0, imm16 for w = 1 (R88). -/
inductive Imm where
  | imm8 (v : Byte)
  | imm16 (v : Word)
  deriving DecidableEq, Repr, Inhabited

/-- The instructions: one constructor per row of opcode_table.json, in the table's order. The fields are
the fields of the row's format (R90 to R96). -/
inductive Instr where
  /-- `MOV r/m, r`, 88-89 (format RM, d = 0). -/
  | movRmR (w : Width) (rm : RM) (reg : RegCode)
  /-- `MOV r, r/m`, 8A-8B (format RM, d = 1). -/
  | movRRm (w : Width) (reg : RegCode) (rm : RM)
  /-- `MOV r/m, imm`, C6-C7 /0 (format RMI). -/
  | movRmImm (rm : RM) (imm : Imm)
  /-- `MOV r, imm`, B0-BF (format RI). -/
  | movRImm (reg : RegCode) (imm : Imm)
  /-- `MOV acc, [addr]`, A0-A1 (format AM). -/
  | movAccAddr (w : Width) (addr : Word)
  /-- `MOV [addr], acc`, A2-A3 (format AM). -/
  | movAddrAcc (w : Width) (addr : Word)
  /-- `MOV r/m16, sreg`, 8C (format SR). -/
  | movRm16Sreg (rm : RM) (sr : SReg)
  /-- `MOV sreg, r/m16`, 8E (format SR). -/
  | movSregRm16 (sr : SReg) (rm : RM)
  /-- `ADD r/m, r`, 00-01 (format RM, d = 0). -/
  | addRmR (w : Width) (rm : RM) (reg : RegCode)
  /-- `ADD r, r/m`, 02-03 (format RM, d = 1). -/
  | addRRm (w : Width) (reg : RegCode) (rm : RM)
  /-- `ADD r/m8, imm8`, 80 /0 (format RMI). -/
  | addRm8Imm8 (rm : RM) (imm : Byte)
  /-- `ADD r/m16, imm16`, 81 /0 (format RMI). -/
  | addRm16Imm16 (rm : RM) (imm : Word)
  /-- `ADD r/m16, simm8`, 83 /0 (format RMI). -/
  | addRm16Simm8 (rm : RM) (imm : Byte)
  /-- `ADD acc, imm`, 04-05 (format AI). -/
  | addAccImm (imm : Imm)
  /-- `SUB r/m, r`, 28-29 (format RM, d = 0). -/
  | subRmR (w : Width) (rm : RM) (reg : RegCode)
  /-- `SUB r, r/m`, 2A-2B (format RM, d = 1). -/
  | subRRm (w : Width) (reg : RegCode) (rm : RM)
  /-- `SUB r/m8, imm8`, 80 /5 (format RMI). -/
  | subRm8Imm8 (rm : RM) (imm : Byte)
  /-- `SUB r/m16, imm16`, 81 /5 (format RMI). -/
  | subRm16Imm16 (rm : RM) (imm : Word)
  /-- `SUB r/m16, simm8`, 83 /5 (format RMI). -/
  | subRm16Simm8 (rm : RM) (imm : Byte)
  /-- `SUB acc, imm`, 2C-2D (format AI). -/
  | subAccImm (imm : Imm)
  /-- `CMP r/m, r`, 38-39 (format RM, d = 0). -/
  | cmpRmR (w : Width) (rm : RM) (reg : RegCode)
  /-- `CMP r, r/m`, 3A-3B (format RM, d = 1). -/
  | cmpRRm (w : Width) (reg : RegCode) (rm : RM)
  /-- `CMP r/m8, imm8`, 80 /7 (format RMI). -/
  | cmpRm8Imm8 (rm : RM) (imm : Byte)
  /-- `CMP r/m16, imm16`, 81 /7 (format RMI). -/
  | cmpRm16Imm16 (rm : RM) (imm : Word)
  /-- `CMP r/m16, simm8`, 83 /7 (format RMI). -/
  | cmpRm16Simm8 (rm : RM) (imm : Byte)
  /-- `CMP acc, imm`, 3C-3D (format AI). -/
  | cmpAccImm (imm : Imm)
  /-- `JNE rel8`, 75 (format J8). -/
  | jneRel8 (rel : Byte)
  /-- `JE rel8`, 74 (format J8). -/
  | jeRel8 (rel : Byte)
  /-- `JB rel8`, 72 (format J8). -/
  | jbRel8 (rel : Byte)
  /-- `JP rel8`, 7A (format J8). -/
  | jpRel8 (rel : Byte)
  /-- `LOOP rel8`, E2 (format J8). -/
  | loopRel8 (rel : Byte)
  /-- `LOOPNZ rel8`, E0 (format J8). -/
  | loopnzRel8 (rel : Byte)
  deriving DecidableEq, Repr, Inhabited

end Sys2Proof
end

