-- ==== Sys2Proof/Config.lean ====
section
/-! DEFINITION. The parameters of the engine (00_scope.md R7): the ones with a reference or default value,
and the two points the spec leaves open, as constants with no body. -/

namespace Sys2Proof

namespace Config

/-- The parameters of the step that are numbers and switches (R7, R33): arguments of the engine, not
state. -/
structure Params where
  /-- `MEM_SIZE`, the capacity of the memory bank in bytes (R30). -/
  memSize : Nat
  /-- `MEM_DEST_ARITH`: whether ADD, SUB and CMP accept a memory left operand (R117). -/
  memDestArith : Bool
  deriving DecidableEq, Repr

/-- The largest program image: `PROG_LEN` is at most `min(MEM_SIZE, 0xFFFF)` (R7, R231). -/
def Params.maxProgLen (P : Params) : Nat := min P.memSize 0xFFFF

/-- The reference and default values of R7: 1 MiB of memory, and memory left operands accepted. -/
def reference : Params := { memSize := 0x100000, memDestArith := true }

/-- What `DECODE_CLASS` says of a window that matches no row (30_encoding.md R99, D13). -/
inductive DecodeClass where
  | decodeFailure
  | unimplemented (t : String) (size : Nat)
  deriving DecidableEq, Repr, Inhabited

/-- `DECODE_CLASS`, left OPEN by the spec (R7, R99, D13): a free value, one for each window. Nothing is known
of it, so a statement holds whichever of the two halts it gives. A size outside `1 .. len(window)`
breaks the decoder's contract and is read as "no instruction" (R70, D28). See log entry 3. -/
opaque decodeClass : List Byte → DecodeClass

/-- The operand position that an OperandTypeMismatch reports where the spec states none: a wrong number
of operands, and a segment register paired with an operand it may not be paired with (R117 part 2;
95_test_vectors.md V-H-8, V-H-10). A free value, one for each list of operands. See log entry 4. -/
opaque mismatchPosition : List OperandRec → Option Nat

end Config

end Sys2Proof
end

