-- ==== Sys2Proof/WellFormed.lean ====
section
/-! DEFINITION. Which terms of `Instr` have an encoding. The one thing the syntax can say and the bytes
cannot is `[bp]` with no displacement: mod = 00 with r/m = 110 means the direct address (30_encoding.md R86). -/

namespace Sys2Proof

/-- An `r/m` operand that ModRM can encode (R86): not `[bp]` at mod = 00. -/
def RM.wellFormed : RM → Bool
  | .ind b => b != .bp
  | _ => true

/-- The instructions that have an encoding (R90 to R96). -/
def Instr.wellFormed : Instr → Bool
  | .movRmR _ rm _ => rm.wellFormed
  | .movRRm _ _ rm => rm.wellFormed
  | .movRmImm rm _ => rm.wellFormed
  | .movRImm _ _ => true
  | .movAccAddr _ _ => true
  | .movAddrAcc _ _ => true
  | .movRm16Sreg rm _ => rm.wellFormed
  | .movSregRm16 _ rm => rm.wellFormed
  | .addRmR _ rm _ => rm.wellFormed
  | .addRRm _ _ rm => rm.wellFormed
  | .addRm8Imm8 rm _ => rm.wellFormed
  | .addRm16Imm16 rm _ => rm.wellFormed
  | .addRm16Simm8 rm _ => rm.wellFormed
  | .addAccImm _ => true
  | .subRmR _ rm _ => rm.wellFormed
  | .subRRm _ _ rm => rm.wellFormed
  | .subRm8Imm8 rm _ => rm.wellFormed
  | .subRm16Imm16 rm _ => rm.wellFormed
  | .subRm16Simm8 rm _ => rm.wellFormed
  | .subAccImm _ => true
  | .cmpRmR _ rm _ => rm.wellFormed
  | .cmpRRm _ _ rm => rm.wellFormed
  | .cmpRm8Imm8 rm _ => rm.wellFormed
  | .cmpRm16Imm16 rm _ => rm.wellFormed
  | .cmpRm16Simm8 rm _ => rm.wellFormed
  | .cmpAccImm _ => true
  | .jneRel8 _ => true
  | .jeRel8 _ => true
  | .jbRel8 _ => true
  | .jpRel8 _ => true
  | .loopRel8 _ => true
  | .loopnzRel8 _ => true

end Sys2Proof
end

