-- ==== Sys2Proof/Decode.lean ====
section
/-! DEFINITION. Level 2: the opcode table as data, the reference decoder (30_encoding.md R80 to R99), the level-1
record of each instruction (R84 to R96), and the encoder written from the same tables. -/

namespace Sys2Proof

/-! ### Register ids and the codes of the encoding fields -/

/-- The id of a register (R20, column `id`). -/
def Reg.id : Reg → Nat
  | .gen .ax => 1
  | .gen .bx => 2
  | .gen .cx => 3
  | .gen .dx => 4
  | .gen .sp => 5
  | .gen .bp => 6
  | .gen .si => 7
  | .gen .di => 8
  | .seg .es => 9
  | .seg .cs => 10
  | .seg .ss => 11
  | .seg .ds => 12
  | .ip => 13

/-- The register with a given id; `none` outside the valid set of 13 (R20, R117 part 1). -/
def Reg.ofId : Nat → Option Reg
  | 1 => some (.gen .ax)
  | 2 => some (.gen .bx)
  | 3 => some (.gen .cx)
  | 4 => some (.gen .dx)
  | 5 => some (.gen .sp)
  | 6 => some (.gen .bp)
  | 7 => some (.gen .si)
  | 8 => some (.gen .di)
  | 9 => some (.seg .es)
  | 10 => some (.seg .cs)
  | 11 => some (.seg .ss)
  | 12 => some (.seg .ds)
  | 13 => some .ip
  | _ => none

/-- The word cell a byte half belongs to (R21). -/
def HalfReg.gen : HalfReg → GReg
  | .ax => .ax
  | .bx => .bx
  | .cx => .cx
  | .dx => .dx

/-- The byte offset of a half: 0 low, 1 high (R21, R73). -/
def Half.offset : Half → Nat
  | .low => 0
  | .high => 1

/-- The general register an address term names (R135). -/
def AddrReg.gen : AddrReg → GReg
  | .bx => .bx
  | .bp => .bp
  | .si => .si
  | .di => .di

/-- The word register of a register field (R84, w = 1). -/
def RegCode.word : RegCode → GReg
  | .axAl => .ax
  | .cxCl => .cx
  | .dxDl => .dx
  | .bxBl => .bx
  | .spAh => .sp
  | .bpCh => .bp
  | .siDh => .si
  | .diBh => .di

/-- The byte register of a register field: the word cell and the half (R84, w = 0). -/
def RegCode.byte : RegCode → HalfReg × Half
  | .axAl => (.ax, .low)
  | .cxCl => (.cx, .low)
  | .dxDl => (.dx, .low)
  | .bxBl => (.bx, .low)
  | .spAh => (.ax, .high)
  | .bpCh => (.cx, .high)
  | .siDh => (.dx, .high)
  | .diBh => (.bx, .high)

/-- The bits of a register field (R84). -/
def RegCode.bits : RegCode → BitVec 3
  | .axAl => 0b000
  | .cxCl => 0b001
  | .dxDl => 0b010
  | .bxBl => 0b011
  | .spAh => 0b100
  | .bpCh => 0b101
  | .siDh => 0b110
  | .diBh => 0b111

/-- The register field with given bits (R84). -/
def RegCode.ofBits (b : BitVec 3) : RegCode :=
  match b.toNat with
  | 0 => .axAl
  | 1 => .cxCl
  | 2 => .dxDl
  | 3 => .bxBl
  | 4 => .spAh
  | 5 => .bpCh
  | 6 => .siDh
  | _ => .diBh

/-- The bits of the `sr` field (R85). -/
def SReg.bits : SReg → BitVec 2
  | .es => 0b00
  | .cs => 0b01
  | .ss => 0b10
  | .ds => 0b11

/-- The segment register with given `sr` bits (R85). -/
def SReg.ofBits (b : BitVec 2) : SReg :=
  match b.toNat with
  | 0 => .es
  | 1 => .cs
  | 2 => .ss
  | _ => .ds

/-- The address terms of an `r/m` cell, in the order written (R86). -/
def Base.terms : Base → List AddrReg
  | .bxSi => [.bx, .si]
  | .bxDi => [.bx, .di]
  | .bpSi => [.bp, .si]
  | .bpDi => [.bp, .di]
  | .si => [.si]
  | .di => [.di]
  | .bp => [.bp]
  | .bx => [.bx]

/-- The bits of the `r/m` field of a memory operand (R86). -/
def Base.bits : Base → BitVec 3
  | .bxSi => 0b000
  | .bxDi => 0b001
  | .bpSi => 0b010
  | .bpDi => 0b011
  | .si => 0b100
  | .di => 0b101
  | .bp => 0b110
  | .bx => 0b111

/-- The memory form with given `r/m` bits (R86). -/
def Base.ofBits (b : BitVec 3) : Base :=
  match b.toNat with
  | 0 => .bxSi
  | 1 => .bxDi
  | 2 => .bpSi
  | 3 => .bpDi
  | 4 => .si
  | 5 => .di
  | 6 => .bp
  | _ => .bx

/-- The `w` bit of a width (R83). -/
def Width.wBit : Width → BitVec 1
  | .byte => 0
  | .word => 1

/-- The width a `w` bit gives (R83). -/
def Width.ofBit (w : Bool) : Width := if w then .word else .byte

/-- The width of an immediate, which is the `w` bit of its instruction (R88). -/
def Imm.width : Imm → Width
  | .imm8 _ => .byte
  | .imm16 _ => .word

/-- The high byte of a word. -/
def hiByte (v : Word) : Byte := v.extractLsb' 8 8

/-- The low byte of a word. -/
def loByte (v : Word) : Byte := v.extractLsb' 0 8

/-! ### Level-1 records of the instructions -/

/-- The operand a register field names at a width (R84). -/
def RegCode.operand (c : RegCode) : Width → OperandRec
  | .byte => .reg (Reg.id (.gen c.byte.1.gen)) 1 c.byte.2.offset
  | .word => .reg (Reg.id (.gen c.word)) 2 0

/-- The operand a segment register field names, always a word (R85, R83). -/
def SReg.operand (sr : SReg) : OperandRec := .reg (Reg.id (.seg sr)) 2 0

/-- The accumulator: AL at width 1, AX at width 2 (R93, R94). -/
def accOperand (w : Width) : OperandRec := RegCode.axAl.operand w

/-- A memory operand with a direct address, zero-extended (R87, R93). -/
def directOperand (addr : Word) (w : Width) : OperandRec := .mem [] addr.toNat w.bytes

/-- The address terms of an `r/m` memory operand (R86). -/
def RM.terms : RM → List AddrReg
  | .reg _ => []
  | .ind b => b.terms
  | .direct _ => []
  | .disp8 b _ => b.terms
  | .disp16 b _ => b.terms

/-- The displacement of an `r/m` memory operand: disp8 and disp16 sign-extended, a direct address
zero-extended (R87, D9). -/
def RM.disp : RM → Int
  | .reg _ => 0
  | .ind _ => 0
  | .direct addr => addr.toNat
  | .disp8 _ d => d.toInt
  | .disp16 _ d => d.toInt

/-- The operand an `r/m` field names at a width (R84, R86, R87). -/
def RM.operand (rm : RM) (w : Width) : OperandRec :=
  match rm with
  | .reg c => c.operand w
  | .ind _ | .direct _ | .disp8 _ _ | .disp16 _ _ =>
    .mem (rm.terms.map fun t => Reg.id (.gen t.gen)) rm.disp w.bytes

/-- The number of displacement bytes after ModRM (R86). -/
def RM.dispBytes : RM → Nat
  | .reg _ => 0
  | .ind _ => 0
  | .direct _ => 2
  | .disp8 _ _ => 1
  | .disp16 _ _ => 2

/-- The 16-bit `value` of an immediate: imm8 zero-extended, imm16 whole (R88). -/
def Imm.value : Imm → Word
  | .imm8 v => v.zeroExtend 16
  | .imm16 v => v

/-- Format RM with d = 0: `operands = [M, R]` (R89, R90). -/
def recRmR (op : Op) (w : Width) (rm : RM) (reg : RegCode) : Record :=
  { op, size := 2 + rm.dispBytes, operands := [rm.operand w, reg.operand w] }

/-- Format RM with d = 1: `operands = [R, M]` (R89, R90). -/
def recRRm (op : Op) (w : Width) (reg : RegCode) (rm : RM) : Record :=
  { op, size := 2 + rm.dispBytes, operands := [reg.operand w, rm.operand w] }

/-- Format RMI with an immediate of the instruction's width (R91; C6, C7, 80, 81). -/
def recRmImm (op : Op) (rm : RM) (imm : Imm) : Record :=
  { op, size := 2 + rm.dispBytes + imm.width.bytes, operands := [rm.operand imm.width, .imm imm.value] }

/-- Format RMI of opcode 83: a word operation with a sign-extended imm8 (R88, R91). -/
def recRmSimm8 (op : Op) (rm : RM) (imm : Byte) : Record :=
  { op, size := 2 + rm.dispBytes + 1, operands := [rm.operand .word, .imm (imm.signExtend 16)] }

/-- Format RI (R92). -/
def recRImm (op : Op) (reg : RegCode) (imm : Imm) : Record :=
  { op, size := 1 + imm.width.bytes, operands := [reg.operand imm.width, .imm imm.value] }

/-- Format AM loading the accumulator: A0, A1 (R93). -/
def recAccAddr (op : Op) (w : Width) (addr : Word) : Record :=
  { op, size := 3, operands := [accOperand w, directOperand addr w] }

/-- Format AM storing the accumulator: A2, A3 (R93). -/
def recAddrAcc (op : Op) (w : Width) (addr : Word) : Record :=
  { op, size := 3, operands := [directOperand addr w, accOperand w] }

/-- Format AI (R94). -/
def recAccImm (op : Op) (imm : Imm) : Record :=
  { op, size := 1 + imm.width.bytes, operands := [accOperand imm.width, .imm imm.value] }

/-- Format SR with x = 0: 8C, `operands = [M, S]` (R95). -/
def recRmSreg (op : Op) (rm : RM) (sr : SReg) : Record :=
  { op, size := 2 + rm.dispBytes, operands := [rm.operand .word, sr.operand] }

/-- Format SR with x = 1: 8E, `operands = [S, M]` (R95). -/
def recSregRm (op : Op) (sr : SReg) (rm : RM) : Record :=
  { op, size := 2 + rm.dispBytes, operands := [sr.operand, rm.operand .word] }

/-- Format J8: one immediate, the sign-extended rel8 (R88, R96). -/
def recRel8 (op : Op) (rel : Byte) : Record :=
  { op, size := 2, operands := [.imm (rel.signExtend 16)] }

/-- The level-1 record of each instruction (R89 to R96). -/
def Instr.record : Instr → Record
  | .movRmR w rm reg => recRmR .mov w rm reg
  | .movRRm w reg rm => recRRm .mov w reg rm
  | .movRmImm rm imm => recRmImm .mov rm imm
  | .movRImm reg imm => recRImm .mov reg imm
  | .movAccAddr w addr => recAccAddr .mov w addr
  | .movAddrAcc w addr => recAddrAcc .mov w addr
  | .movRm16Sreg rm sr => recRmSreg .mov rm sr
  | .movSregRm16 sr rm => recSregRm .mov sr rm
  | .addRmR w rm reg => recRmR .add w rm reg
  | .addRRm w reg rm => recRRm .add w reg rm
  | .addRm8Imm8 rm imm => recRmImm .add rm (.imm8 imm)
  | .addRm16Imm16 rm imm => recRmImm .add rm (.imm16 imm)
  | .addRm16Simm8 rm imm => recRmSimm8 .add rm imm
  | .addAccImm imm => recAccImm .add imm
  | .subRmR w rm reg => recRmR .sub w rm reg
  | .subRRm w reg rm => recRRm .sub w reg rm
  | .subRm8Imm8 rm imm => recRmImm .sub rm (.imm8 imm)
  | .subRm16Imm16 rm imm => recRmImm .sub rm (.imm16 imm)
  | .subRm16Simm8 rm imm => recRmSimm8 .sub rm imm
  | .subAccImm imm => recAccImm .sub imm
  | .cmpRmR w rm reg => recRmR .cmp w rm reg
  | .cmpRRm w reg rm => recRRm .cmp w reg rm
  | .cmpRm8Imm8 rm imm => recRmImm .cmp rm (.imm8 imm)
  | .cmpRm16Imm16 rm imm => recRmImm .cmp rm (.imm16 imm)
  | .cmpRm16Simm8 rm imm => recRmSimm8 .cmp rm imm
  | .cmpAccImm imm => recAccImm .cmp imm
  | .jneRel8 rel => recRel8 .jne rel
  | .jeRel8 rel => recRel8 .je rel
  | .jbRel8 rel => recRel8 .jb rel
  | .jpRel8 rel => recRel8 .jp rel
  | .loopRel8 rel => recRel8 .loop rel
  | .loopnzRel8 rel => recRel8 .loopnz rel

/-- The encoded length of an instruction in bytes (R71, R97). -/
def Instr.size (i : Instr) : Nat := i.record.size

/-! ### The opcode table -/

/-- The rows of opcode_table.json, in its order. -/
inductive Row where
  | movRmR | movRRm | movRmImm | movRImm | movAccAddr | movAddrAcc | movRm16Sreg | movSregRm16
  | addRmR | addRRm | addRm8Imm8 | addRm16Imm16 | addRm16Simm8 | addAccImm
  | subRmR | subRRm | subRm8Imm8 | subRm16Imm16 | subRm16Simm8 | subAccImm
  | cmpRmR | cmpRRm | cmpRm8Imm8 | cmpRm16Imm16 | cmpRm16Simm8 | cmpAccImm
  | jneRel8 | jeRel8 | jbRel8 | jpRel8 | loopRel8 | loopnzRel8
  deriving DecidableEq, Repr, Inhabited

/-- All rows, in the table's order. -/
def Row.all : List Row :=
  [.movRmR, .movRRm, .movRmImm, .movRImm, .movAccAddr, .movAddrAcc, .movRm16Sreg, .movSregRm16] ++
  [.addRmR, .addRRm, .addRm8Imm8, .addRm16Imm16, .addRm16Simm8, .addAccImm] ++
  [.subRmR, .subRRm, .subRm8Imm8, .subRm16Imm16, .subRm16Simm8, .subAccImm] ++
  [.cmpRmR, .cmpRRm, .cmpRm8Imm8, .cmpRm16Imm16, .cmpRm16Simm8, .cmpAccImm] ++
  [.jneRel8, .jeRel8, .jbRel8, .jpRel8, .loopRel8, .loopnzRel8]

/-- The `match` of a row over the key `K = (byte0 << 8) | byte1` (R80, opcode_table.json). -/
def Row.matchKey : Row → BitVec 16
  | .movRmR => 0x8800
  | .movRRm => 0x8A00
  | .movRmImm => 0xC600
  | .movRImm => 0xB000
  | .movAccAddr => 0xA000
  | .movAddrAcc => 0xA200
  | .movRm16Sreg => 0x8C00
  | .movSregRm16 => 0x8E00
  | .addRmR => 0x0000
  | .addRRm => 0x0200
  | .addRm8Imm8 => 0x8000
  | .addRm16Imm16 => 0x8100
  | .addRm16Simm8 => 0x8300
  | .addAccImm => 0x0400
  | .subRmR => 0x2800
  | .subRRm => 0x2A00
  | .subRm8Imm8 => 0x8028
  | .subRm16Imm16 => 0x8128
  | .subRm16Simm8 => 0x8328
  | .subAccImm => 0x2C00
  | .cmpRmR => 0x3800
  | .cmpRRm => 0x3A00
  | .cmpRm8Imm8 => 0x8038
  | .cmpRm16Imm16 => 0x8138
  | .cmpRm16Simm8 => 0x8338
  | .cmpAccImm => 0x3C00
  | .jneRel8 => 0x7500
  | .jeRel8 => 0x7400
  | .jbRel8 => 0x7200
  | .jpRel8 => 0x7A00
  | .loopRel8 => 0xE200
  | .loopnzRel8 => 0xE000

/-- The `mask` of a row over the key (R80, opcode_table.json). -/
def Row.mask : Row → BitVec 16
  | .movRmR => 0xFE00
  | .movRRm => 0xFE00
  | .movRmImm => 0xFE38
  | .movRImm => 0xF000
  | .movAccAddr => 0xFE00
  | .movAddrAcc => 0xFE00
  | .movRm16Sreg => 0xFF20
  | .movSregRm16 => 0xFF20
  | .addRmR => 0xFE00
  | .addRRm => 0xFE00
  | .addRm8Imm8 => 0xFF38
  | .addRm16Imm16 => 0xFF38
  | .addRm16Simm8 => 0xFF38
  | .addAccImm => 0xFE00
  | .subRmR => 0xFE00
  | .subRRm => 0xFE00
  | .subRm8Imm8 => 0xFF38
  | .subRm16Imm16 => 0xFF38
  | .subRm16Simm8 => 0xFF38
  | .subAccImm => 0xFE00
  | .cmpRmR => 0xFE00
  | .cmpRRm => 0xFE00
  | .cmpRm8Imm8 => 0xFF38
  | .cmpRm16Imm16 => 0xFF38
  | .cmpRm16Simm8 => 0xFF38
  | .cmpAccImm => 0xFE00
  | .jneRel8 => 0xFF00
  | .jeRel8 => 0xFF00
  | .jbRel8 => 0xFF00
  | .jpRel8 => 0xFF00
  | .loopRel8 => 0xFF00
  | .loopnzRel8 => 0xFF00

/-- The key `K = (byte0 << 8) | byte1` of a window's first two bytes (R80). -/
def keyOf (b0 b1 : Byte) : BitVec 16 := b0 ++ b1

/-- A window matches a row iff `(K & mask) == match` (R80). -/
def Row.matchesKey (r : Row) (K : BitVec 16) : Bool := K &&& r.mask == r.matchKey

/-- The row a key matches, if any (R80). -/
def rowOf (K : BitVec 16) : Option Row := Row.all.find? fun r => r.matchesKey K

/-! ### The reference decoder -/

/-- Bit 0 of byte 0, the `w` bit of every form but RI (R81, R83). -/
def wField (b0 : Byte) : Width := Width.ofBit (b0.getLsbD 0)

/-- ModRM bits 7..6 (R81). -/
def modField (b1 : Byte) : BitVec 2 := b1.extractLsb' 6 2

/-- ModRM bits 5..3 (R81). -/
def regField (b1 : Byte) : BitVec 3 := b1.extractLsb' 3 3

/-- ModRM bits 4..3 of the SR form (R81, R85). -/
def srField (b1 : Byte) : BitVec 2 := b1.extractLsb' 3 2

/-- ModRM bits 2..0 (R81). -/
def rmField (b1 : Byte) : BitVec 3 := b1.extractLsb' 0 3

/-- A byte and what is left of the window. -/
def takeByte : List Byte → Option (Byte × List Byte)
  | b :: rest => some (b, rest)
  | [] => none

/-- A 16-bit field, low byte first, and what is left of the window (R82). -/
def takeWord : List Byte → Option (Word × List Byte)
  | lo :: hi :: rest => some (hi ++ lo, rest)
  | _ => none

/-- The `r/m` operand of a ModRM byte, with the displacement that follows it (R86, R97). -/
def takeRM (b1 : Byte) (rest : List Byte) : Option (RM × List Byte) :=
  match (modField b1).toNat with
  | 0 =>
    match Base.ofBits (rmField b1) with
    | .bp => (takeWord rest).map fun (a, r) => (.direct a, r)
    | b => some (.ind b, rest)
  | 1 => (takeByte rest).map fun (d, r) => (.disp8 (Base.ofBits (rmField b1)) d, r)
  | 2 => (takeWord rest).map fun (d, r) => (.disp16 (Base.ofBits (rmField b1)) d, r)
  | _ => some (.reg (RegCode.ofBits (rmField b1)), rest)

/-- An immediate of a width (R88, R91, R92, R94). -/
def takeImm (w : Width) (bs : List Byte) : Option (Imm × List Byte) :=
  match w with
  | .byte => (takeByte bs).map fun (v, r) => (.imm8 v, r)
  | .word => (takeWord bs).map fun (v, r) => (.imm16 v, r)

/-- Format RMI's tail: the `r/m` operand, then one immediate byte (R91; 80 and 83). -/
def takeRMByte (b1 : Byte) (rest : List Byte) : Option ((RM × Byte) × List Byte) :=
  (takeRM b1 rest).bind fun (rm, r) => (takeByte r).map fun (v, r') => ((rm, v), r')

/-- Format RMI's tail: the `r/m` operand, then one immediate word (R91; 81). -/
def takeRMWord (b1 : Byte) (rest : List Byte) : Option ((RM × Word) × List Byte) :=
  (takeRM b1 rest).bind fun (rm, r) => (takeWord r).map fun (v, r') => ((rm, v), r')

/-- The instruction of a row with given first two bytes, and the bytes after it; `none` where the window
is too short for the form (R90 to R97). -/
def parseRow (row : Row) (b0 b1 : Byte) (rest : List Byte) : Option (Instr × List Byte) :=
  match row with
  | .movRmR => (takeRM b1 rest).map fun (rm, r) => (.movRmR (wField b0) rm (.ofBits (regField b1)), r)
  | .movRRm => (takeRM b1 rest).map fun (rm, r) => (.movRRm (wField b0) (.ofBits (regField b1)) rm, r)
  | .movRmImm =>
    (takeRM b1 rest).bind fun (rm, r) => (takeImm (wField b0) r).map fun (v, r') => (.movRmImm rm v, r')
  | .movRImm =>
    (takeImm (Width.ofBit (b0.getLsbD 3)) (b1 :: rest)).map fun (v, r) =>
      (.movRImm (.ofBits (b0.extractLsb' 0 3)) v, r)
  | .movAccAddr => (takeWord (b1 :: rest)).map fun (a, r) => (.movAccAddr (wField b0) a, r)
  | .movAddrAcc => (takeWord (b1 :: rest)).map fun (a, r) => (.movAddrAcc (wField b0) a, r)
  | .movRm16Sreg => (takeRM b1 rest).map fun (rm, r) => (.movRm16Sreg rm (.ofBits (srField b1)), r)
  | .movSregRm16 => (takeRM b1 rest).map fun (rm, r) => (.movSregRm16 (.ofBits (srField b1)) rm, r)
  | .addRmR => (takeRM b1 rest).map fun (rm, r) => (.addRmR (wField b0) rm (.ofBits (regField b1)), r)
  | .addRRm => (takeRM b1 rest).map fun (rm, r) => (.addRRm (wField b0) (.ofBits (regField b1)) rm, r)
  | .addRm8Imm8 => (takeRMByte b1 rest).map fun ((rm, v), r) => (.addRm8Imm8 rm v, r)
  | .addRm16Imm16 => (takeRMWord b1 rest).map fun ((rm, v), r) => (.addRm16Imm16 rm v, r)
  | .addRm16Simm8 => (takeRMByte b1 rest).map fun ((rm, v), r) => (.addRm16Simm8 rm v, r)
  | .addAccImm => (takeImm (wField b0) (b1 :: rest)).map fun (v, r) => (.addAccImm v, r)
  | .subRmR => (takeRM b1 rest).map fun (rm, r) => (.subRmR (wField b0) rm (.ofBits (regField b1)), r)
  | .subRRm => (takeRM b1 rest).map fun (rm, r) => (.subRRm (wField b0) (.ofBits (regField b1)) rm, r)
  | .subRm8Imm8 => (takeRMByte b1 rest).map fun ((rm, v), r) => (.subRm8Imm8 rm v, r)
  | .subRm16Imm16 => (takeRMWord b1 rest).map fun ((rm, v), r) => (.subRm16Imm16 rm v, r)
  | .subRm16Simm8 => (takeRMByte b1 rest).map fun ((rm, v), r) => (.subRm16Simm8 rm v, r)
  | .subAccImm => (takeImm (wField b0) (b1 :: rest)).map fun (v, r) => (.subAccImm v, r)
  | .cmpRmR => (takeRM b1 rest).map fun (rm, r) => (.cmpRmR (wField b0) rm (.ofBits (regField b1)), r)
  | .cmpRRm => (takeRM b1 rest).map fun (rm, r) => (.cmpRRm (wField b0) (.ofBits (regField b1)) rm, r)
  | .cmpRm8Imm8 => (takeRMByte b1 rest).map fun ((rm, v), r) => (.cmpRm8Imm8 rm v, r)
  | .cmpRm16Imm16 => (takeRMWord b1 rest).map fun ((rm, v), r) => (.cmpRm16Imm16 rm v, r)
  | .cmpRm16Simm8 => (takeRMByte b1 rest).map fun ((rm, v), r) => (.cmpRm16Simm8 rm v, r)
  | .cmpAccImm => (takeImm (wField b0) (b1 :: rest)).map fun (v, r) => (.cmpAccImm v, r)
  | .jneRel8 => some (.jneRel8 b1, rest)
  | .jeRel8 => some (.jeRel8 b1, rest)
  | .jbRel8 => some (.jbRel8 b1, rest)
  | .jpRel8 => some (.jpRel8 b1, rest)
  | .loopRel8 => some (.loopRel8 b1, rest)
  | .loopnzRel8 => some (.loopnzRel8 b1, rest)

/-- What the reference decoder reads from a window. -/
inductive Decoded where
  /-- an admitted instruction, and the number of bytes it took -/
  | instr (i : Instr) (consumed : Nat)
  /-- "no instruction": the window is shorter than its form, or than two bytes (R97, D29) -/
  | noInstruction
  /-- two bytes or more that match no row: `DECODE_CLASS` decides (R99, D13) -/
  | notAdmitted
  deriving DecidableEq, Repr

/-- The reference decoder on a window, total on any bytes (R80, R97, R99). -/
def decode (window : List Byte) : Decoded :=
  match window with
  | b0 :: b1 :: rest =>
    match rowOf (keyOf b0 b1) with
    | none => .notAdmitted
    | some row =>
      match parseRow row b0 b1 rest with
      | none => .noInstruction
      | some (i, after) => .instr i (window.length - after.length)
  | _ => .noInstruction

/-- The reference decoder as the engine's `DECODE` (R70, R97, R99): a window that matches no row gives what
`DECODE_CLASS` says. -/
def referenceDecoder : Decoder := fun window =>
  match decode window with
  | .instr i n => some (i.record, n)
  | .noInstruction => none
  | .notAdmitted =>
    match Config.decodeClass window with
    | .decodeFailure => none
    | .unimplemented t size => some ({ op := .other t, size, operands := [] }, size)

/-! ### The encoder, from the same tables -/

/-- The row of an instruction. -/
def Instr.row : Instr → Row
  | .movRmR _ _ _ => .movRmR
  | .movRRm _ _ _ => .movRRm
  | .movRmImm _ _ => .movRmImm
  | .movRImm _ _ => .movRImm
  | .movAccAddr _ _ => .movAccAddr
  | .movAddrAcc _ _ => .movAddrAcc
  | .movRm16Sreg _ _ => .movRm16Sreg
  | .movSregRm16 _ _ => .movSregRm16
  | .addRmR _ _ _ => .addRmR
  | .addRRm _ _ _ => .addRRm
  | .addRm8Imm8 _ _ => .addRm8Imm8
  | .addRm16Imm16 _ _ => .addRm16Imm16
  | .addRm16Simm8 _ _ => .addRm16Simm8
  | .addAccImm _ => .addAccImm
  | .subRmR _ _ _ => .subRmR
  | .subRRm _ _ _ => .subRRm
  | .subRm8Imm8 _ _ => .subRm8Imm8
  | .subRm16Imm16 _ _ => .subRm16Imm16
  | .subRm16Simm8 _ _ => .subRm16Simm8
  | .subAccImm _ => .subAccImm
  | .cmpRmR _ _ _ => .cmpRmR
  | .cmpRRm _ _ _ => .cmpRRm
  | .cmpRm8Imm8 _ _ => .cmpRm8Imm8
  | .cmpRm16Imm16 _ _ => .cmpRm16Imm16
  | .cmpRm16Simm8 _ _ => .cmpRm16Simm8
  | .cmpAccImm _ => .cmpAccImm
  | .jneRel8 _ => .jneRel8
  | .jeRel8 _ => .jeRel8
  | .jbRel8 _ => .jbRel8
  | .jpRel8 _ => .jpRel8
  | .loopRel8 _ => .loopRel8
  | .loopnzRel8 _ => .loopnzRel8

/-- A 16-bit field in the instruction, low byte first (R82). -/
def wordBytes (v : Word) : List Byte := [loByte v, hiByte v]

/-- The ModRM byte `mod reg r/m` (R81, R90). -/
def modRM (mod : BitVec 2) (reg rm : BitVec 3) : Byte := mod ++ reg ++ rm

/-- The ModRM byte and displacement bytes of an `r/m` operand with a given `reg` field (R86). -/
def RM.encode (reg : BitVec 3) : RM → List Byte
  | .reg c => [modRM 0b11 reg c.bits]
  | .ind b => [modRM 0b00 reg b.bits]
  | .direct a => modRM 0b00 reg 0b110 :: wordBytes a
  | .disp8 b d => [modRM 0b01 reg b.bits, d]
  | .disp16 b d => modRM 0b10 reg b.bits :: wordBytes d

/-- The bytes of an immediate (R88). -/
def Imm.encode : Imm → List Byte
  | .imm8 v => [v]
  | .imm16 v => wordBytes v

/-- The encoding of each instruction (R90 to R96): byte 0 spelled out as the format's table spells it. -/
def encode : Instr → List Byte
  | .movRmR w rm reg => ((0b1000100 : BitVec 7) ++ w.wBit) :: rm.encode reg.bits
  | .movRRm w reg rm => ((0b1000101 : BitVec 7) ++ w.wBit) :: rm.encode reg.bits
  | .movRmImm rm imm => ((0b1100011 : BitVec 7) ++ imm.width.wBit) :: rm.encode 0b000 ++ imm.encode
  | .movRImm reg imm => ((0b1011 : BitVec 4) ++ imm.width.wBit ++ reg.bits) :: imm.encode
  | .movAccAddr w addr => ((0b1010000 : BitVec 7) ++ w.wBit) :: wordBytes addr
  | .movAddrAcc w addr => ((0b1010001 : BitVec 7) ++ w.wBit) :: wordBytes addr
  | .movRm16Sreg rm sr => 0x8C :: rm.encode ((0 : BitVec 1) ++ sr.bits)
  | .movSregRm16 sr rm => 0x8E :: rm.encode ((0 : BitVec 1) ++ sr.bits)
  | .addRmR w rm reg => ((0b0000000 : BitVec 7) ++ w.wBit) :: rm.encode reg.bits
  | .addRRm w reg rm => ((0b0000001 : BitVec 7) ++ w.wBit) :: rm.encode reg.bits
  | .addRm8Imm8 rm imm => 0x80 :: rm.encode 0b000 ++ [imm]
  | .addRm16Imm16 rm imm => 0x81 :: rm.encode 0b000 ++ wordBytes imm
  | .addRm16Simm8 rm imm => 0x83 :: rm.encode 0b000 ++ [imm]
  | .addAccImm imm => ((0b0000010 : BitVec 7) ++ imm.width.wBit) :: imm.encode
  | .subRmR w rm reg => ((0b0010100 : BitVec 7) ++ w.wBit) :: rm.encode reg.bits
  | .subRRm w reg rm => ((0b0010101 : BitVec 7) ++ w.wBit) :: rm.encode reg.bits
  | .subRm8Imm8 rm imm => 0x80 :: rm.encode 0b101 ++ [imm]
  | .subRm16Imm16 rm imm => 0x81 :: rm.encode 0b101 ++ wordBytes imm
  | .subRm16Simm8 rm imm => 0x83 :: rm.encode 0b101 ++ [imm]
  | .subAccImm imm => ((0b0010110 : BitVec 7) ++ imm.width.wBit) :: imm.encode
  | .cmpRmR w rm reg => ((0b0011100 : BitVec 7) ++ w.wBit) :: rm.encode reg.bits
  | .cmpRRm w reg rm => ((0b0011101 : BitVec 7) ++ w.wBit) :: rm.encode reg.bits
  | .cmpRm8Imm8 rm imm => 0x80 :: rm.encode 0b111 ++ [imm]
  | .cmpRm16Imm16 rm imm => 0x81 :: rm.encode 0b111 ++ wordBytes imm
  | .cmpRm16Simm8 rm imm => 0x83 :: rm.encode 0b111 ++ [imm]
  | .cmpAccImm imm => ((0b0011110 : BitVec 7) ++ imm.width.wBit) :: imm.encode
  | .jneRel8 rel => [0x75, rel]
  | .jeRel8 rel => [0x74, rel]
  | .jbRel8 rel => [0x72, rel]
  | .jpRel8 rel => [0x7A, rel]
  | .loopRel8 rel => [0xE2, rel]
  | .loopnzRel8 rel => [0xE0, rel]

/-! ### Words as opcode_table.json numbers them -/

/-- The longest instruction, in bytes (R7, R80). -/
def maxInstrBytes : Nat := 6

/-- The bytes of an instruction whose table bits are `w`, with every bit at `nbits` and above zero. The table's
rows are over the key `K = (byte0 << 8) | byte1` (R80): bits 15..8 are byte 0 and bits 7..0 are byte 1. Bytes
after the key count on, byte 2 at bits 23..16. See log entry 5. -/
def tableBytes (nbits w : Nat) : List Byte :=
  let v := w % 2 ^ nbits
  [BitVec.ofNat 8 (v / 2 ^ 8), BitVec.ofNat 8 v, BitVec.ofNat 8 (v / 2 ^ 16), BitVec.ofNat 8 (v / 2 ^ 24),
   BitVec.ofNat 8 (v / 2 ^ 32), BitVec.ofNat 8 (v / 2 ^ 40)]

/-- The instruction the decoder reads from an instruction whose table bits are `w`. -/
def decodeTableWord (nbits w : Nat) : Option Instr :=
  match decode (tableBytes nbits w) with
  | .instr i _ => some i
  | .noInstruction => none
  | .notAdmitted => none

end Sys2Proof
end

