-- ==== Sys2Proof/Machine/State.lean ====
section
/-! DEFINITION. The state of a run, `(regs, flags, mem, prog_len, run)` (10_state.md R20 to R35), the reasons a
step can stop, and the state after reset. Plain data throughout. -/

namespace Sys2Proof.Machine

/-- The register file: 13 word cells (R20). The byte halves are views of the cells (R21), not fields. -/
structure Regs where
  ax : Word
  bx : Word
  cx : Word
  dx : Word
  sp : Word
  bp : Word
  si : Word
  di : Word
  es : Word
  cs : Word
  ss : Word
  ds : Word
  ip : Word
  deriving DecidableEq, Repr

/-- The flag register: nine independent one-bit flags (R26). -/
structure Flags where
  OF : Bool
  DF : Bool
  IF : Bool
  TF : Bool
  SF : Bool
  ZF : Bool
  AF : Bool
  PF : Bool
  CF : Bool
  deriving DecidableEq, Repr

/-- The memory bank (R30) as the list of its non-zero bytes, by rising address. An address that is not listed
reads as 0x00: memory is "zero-initialized at program start" (R30, R35). -/
abbrev Memory := List Host.Cell

/-- What an address that is not listed reads as (R30, R35). -/
def Memory.unlisted : Byte := 0x00

/-- The canonical form: addresses strictly rising, and no entry equal to what an unlisted address reads as. -/
abbrev Memory.wf (m : Memory) : Prop :=
  m.Pairwise (fun c d => c.1 < d.1) ∧ ∀ c ∈ m, c.2 ≠ Memory.unlisted

/-- The record of an error halt: its code, by the constructor, and its `info` (R210, columns `code` and
`record info`). `pos` is the record's `at`, the address of the halting instruction. -/
inductive HaltRecord where
  /-- code 1: the decoder returns "no instruction" for the window at `pos` (R213) -/
  | decodeFailure (pos : Word)
  /-- code 2: the decoded opcode `t` has no handler (R212) -/
  | unimplementedOpcode (pos : Word) (t : String)
  /-- code 3: an operand kind or width is invalid for its position (R215) -/
  | operandTypeMismatch (pos : Word) (position : Option Nat)
  /-- code 4: a register index outside the valid set, or a byte access without byte halves (R214) -/
  | registerIndexViolation (pos : Word) (position : Nat)
  /-- code 5: a data access not inside 0 .. MEM_SIZE - 1 (R216) -/
  | addressOutOfRange (pos : Word) (ea : Int) (width : Width)
  /-- code 6: a taken branch to a target outside 0 .. 0xFFFF (R217) -/
  | branchTargetOutOfRange (pos : Word) (target : Int)
  deriving DecidableEq, Repr

/-- The run state (R31). -/
inductive RunState where
  | running
  | haltedClean
  | haltedError (rec : HaltRecord)
  deriving DecidableEq, Repr

/-- The state of one run (10_state.md, opening; R33: there is no other state). -/
structure State where
  regs : Regs
  flags : Flags
  mem : Memory
  /-- the number of bytes of the loaded program image (R32) -/
  progLen : Nat
  run : RunState
  deriving DecidableEq, Repr

/-- Why a step stops without a next state. The error halts of the spec are states (R211), not faults. -/
inductive Fault where
  /-- Raised by `step` alone, on a state whose run has already halted: "A state with run = HaltedClean or
  run = HaltedError(rec) has no step" (R115). Safe: the machine stops where the engine has stopped. -/
  | halted
  deriving DecidableEq, Repr

/-- Why something has no meaning in the model. -/
inductive Refusal where
  /-- Raised by an arm of `exec` whose instruction has no meaning yet. No arm raises it. Safe. -/
  | notModelled (mnemonic : String)
  /-- Raised by `load` on an image longer than `min(MEM_SIZE, 0xFFFF)`: "an image that breaks the bound is
  not a run of this engine" (R231, U9). Safe. -/
  | imageTooLong
  deriving DecidableEq, Repr

/-- The register file after reset: every register 0x0000 (R35). -/
def Regs.reset : Regs :=
  { ax := 0, bx := 0, cx := 0, dx := 0, sp := 0, bp := 0, si := 0, di := 0,
    es := 0, cs := 0, ss := 0, ds := 0, ip := 0 }

/-- The flag register after reset: every flag 0 (R35). -/
def Flags.reset : Flags :=
  { OF := false, DF := false, IF := false, TF := false, SF := false, ZF := false, AF := false, PF := false,
    CF := false }

/-- The machine right after reset, before any image is loaded (R35, R230): every register and flag 0, every
memory byte 0, `prog_len` the length of the empty image, `run = Running`. See log entry 6. -/
def State.reset : State :=
  { regs := Regs.reset, flags := Flags.reset, mem := [], progLen := 0, run := .running }

end Sys2Proof.Machine
end

