-- ==== Sys2Proof/Machine/Ops.lean ====
section
/-! DEFINITION. The named operations over registers (10_state.md R21 to R25), the instruction pointer, memory
(20_memory.md R52, R53, R58), program load (70_reset_and_hazards.md R231), and the entry into a halt
(60_exceptions.md R211), which is the one way an exceptional condition is taken. -/

namespace Sys2Proof.Machine

/-! ### The register file -/

/-- A general register's cell (R22). -/
def Regs.getGen (r : Regs) : GReg → Word
  | .ax => r.ax
  | .bx => r.bx
  | .cx => r.cx
  | .dx => r.dx
  | .sp => r.sp
  | .bp => r.bp
  | .si => r.si
  | .di => r.di

/-- A segment register's cell (R22, R29). -/
def Regs.getSeg (r : Regs) : SReg → Word
  | .es => r.es
  | .cs => r.cs
  | .ss => r.ss
  | .ds => r.ds

/-- `GetWord(r)`, the 16-bit cell of any of the 13 registers (R22). -/
def Regs.getWord (r : Regs) : Reg → Word
  | .gen g => r.getGen g
  | .seg sr => r.getSeg sr
  | .ip => r.ip

/-- Replace a general register's cell (R22). -/
def Regs.setGen (r : Regs) (g : GReg) (v : Word) : Regs :=
  match g with
  | .ax => { r with ax := v }
  | .bx => { r with bx := v }
  | .cx => { r with cx := v }
  | .dx => { r with dx := v }
  | .sp => { r with sp := v }
  | .bp => { r with bp := v }
  | .si => { r with si := v }
  | .di => { r with di := v }

/-- Replace a segment register's cell (R22, R29). -/
def Regs.setSeg (r : Regs) (sr : SReg) (v : Word) : Regs :=
  match sr with
  | .es => { r with es := v }
  | .cs => { r with cs := v }
  | .ss => { r with ss := v }
  | .ds => { r with ds := v }

/-- `SetWord(r, v)`, the whole cell of any of the 13 registers (R22). -/
def Regs.setWord (r : Regs) (x : Reg) (v : Word) : Regs :=
  match x with
  | .gen g => r.setGen g v
  | .seg sr => r.setSeg sr v
  | .ip => { r with ip := v }

/-- `GetByte(r, k) = (x[r] >> (8*k)) & 0xFF` (R23). -/
def Regs.getByte (r : Regs) (x : HalfReg) (k : Half) : Byte :=
  (r.getGen x.gen >>> (8 * k.offset)).setWidth 8

/-- `SetByte(r, k, v)`: mask and or, the other half kept (R23). -/
def Regs.setByte (r : Regs) (x : HalfReg) (k : Half) (v : Byte) : Regs :=
  match k with
  | .low => r.setGen x.gen ((r.getGen x.gen &&& 0xFF00) ||| v.setWidth 16)
  | .high => r.setGen x.gen ((r.getGen x.gen &&& 0x00FF) ||| (v.setWidth 16 <<< 8))

/-! ### Register and flag access of a state -/

/-- `x[r]` (R9, R22). -/
def State.getWord (s : State) (x : Reg) : Word := s.regs.getWord x

/-- `ip` (R25). -/
def State.ip (s : State) : Word := s.regs.ip

/-- The loop counter CX (R197). -/
def State.cx (s : State) : Word := s.regs.getGen .cx

/-- Replace the register file. -/
def State.setRegs (s : State) (r : Regs) : State := { s with regs := r }

/-- Replace the flag register. -/
def State.setFlags (s : State) (f : Flags) : State := { s with flags := f }

/-- Replace the memory. -/
def State.setMem (s : State) (m : Memory) : State := { s with mem := m }

/-- Replace the run state. -/
def State.setRun (s : State) (r : RunState) : State := { s with run := r }

/-- `ip <- v` (R25). -/
def State.setIp (s : State) (v : Word) : State := s.setRegs { s.regs with ip := v }

/-- `x[CX] <- v` (R197). -/
def State.setCx (s : State) (v : Word) : State := s.setRegs (s.regs.setGen .cx v)

/-- The advance past an instruction of `n` bytes, `ip <- ip + n` (R112). In a state with `prog_len` at most
0xFFFF the sum of a fetched instruction never wraps. -/
def State.advance (s : State) (n : Nat) : State := s.setIp (s.ip + BitVec.ofNat 16 n)

/-! ### The memory bank -/

/-- The byte at an address (R30): a listed one, or what an unlisted address reads as. -/
def Memory.read : Memory → Nat → Byte
  | [], _ => Memory.unlisted
  | (k, v) :: m, a => if a = k then v else Memory.read m a

/-- Store one byte, keeping the canonical form. -/
def Memory.write : Memory → Nat → Byte → Memory
  | [], a, b => if b = Memory.unlisted then [] else [(a, b)]
  | (k, v) :: m, a, b =>
    if a < k then (if b = Memory.unlisted then (k, v) :: m else (a, b) :: (k, v) :: m)
    else if a = k then (if b = Memory.unlisted then m else (k, b) :: m)
    else (k, v) :: Memory.write m a b

/-- `MemRead(a, n)`: 1 or 2 bytes, little-endian (R52). -/
def Memory.readW (m : Memory) (a : Nat) : (w : Width) → BitVec w.bits
  | .byte => m.read a
  | .word => m.read (a + 1) ++ m.read a

/-- `MemWrite(a, n, v)`: 1 or 2 bytes, little-endian (R53). -/
def Memory.writeW (m : Memory) (a : Nat) : (w : Width) → BitVec w.bits → Memory
  | .byte, v => m.write a v
  | .word, v => (m.write a (loByte v)).write (a + 1) (hiByte v)

/-- The range check: an access of `n` bytes at `a` is admitted iff `0 <= a` and `a + n <= MEM_SIZE` (R58). -/
def admitted (memSize : Nat) (a : Int) (w : Width) : Bool := 0 ≤ a && a + w.bytes ≤ memSize

/-- Store a list of bytes at consecutive addresses. -/
def Memory.writeBytes (m : Memory) (a : Nat) : List Byte → Memory
  | [] => m
  | b :: bs => (m.write a b).writeBytes (a + 1) bs

/-- The bytes at `n` consecutive addresses. -/
def Memory.readBytes (m : Memory) (a : Nat) : Nat → List Byte
  | 0 => []
  | n + 1 => m.read a :: m.readBytes (a + 1) n

/-! ### Halts -/

/-- `raise H(info)`: the run state becomes `HaltedError(rec)` and nothing else changes (R211). -/
def State.raise (s : State) (r : HaltRecord) : State := s.setRun (.haltedError r)

/-- The clean halt: the run state becomes `HaltedClean` and nothing else changes (R111). -/
def State.haltClean (s : State) : State := s.setRun .haltedClean

/-- The numeric code of an error halt (R210, D22). -/
def HaltRecord.code : HaltRecord → Nat
  | .decodeFailure _ => 1
  | .unimplementedOpcode _ _ => 2
  | .operandTypeMismatch _ _ => 3
  | .registerIndexViolation _ _ => 4
  | .addressOutOfRange _ _ _ => 5
  | .branchTargetOutOfRange _ _ => 6

/-- The outcome code of a run that has ended; `none` while it is running (R210). -/
def RunState.code : RunState → Option Nat
  | .running => none
  | .haltedClean => some 0
  | .haltedError r => some r.code

/-! ### Program load -/

/-- `mem[i] <- P[i]` for the image `P`, `prog_len <- L` (R231), on a fresh run (R230). An image longer than
`min(MEM_SIZE, 0xFFFF)` is refused (R231, U9). -/
def loadWith (P : Config.Params) (image : List Byte) : Host.Outcome State Fault Refusal :=
  if image.length ≤ P.maxProgLen then
    .next { State.reset with mem := Memory.writeBytes [] 0 image, progLen := image.length }
  else .refused .imageTooLong

/-- The load at the reference parameters. -/
def load (image : List Byte) : Host.Outcome State Fault Refusal := loadWith Config.reference image

end Sys2Proof.Machine
end

