-- ==== Sys2Proof/Machine/Flags.lean ====
section
/-! DEFINITION. How ADD, SUB and CMP derive the six status flags (42_flags.md R150 to R160), at both widths, and
the names of the nine flags (10_state.md R26, R28). Where the source's code formulas disagree with its prose, the
prose is followed (90_conflicts.md C2, C3, C4, C7). -/

namespace Sys2Proof.Machine

/-- `hib(w)`: the high-order bit mask, 0x80 or 0x8000 (R9). -/
def hib : (w : Width) → BitVec w.bits
  | .byte => 0x80#8
  | .word => 0x8000#16

/-- The number of set bits of a byte (R8). -/
def popcount (v : Byte) : Nat := (List.range 8).countP fun i => v.getLsbD i

/-- `ZF <- (r = 0)` (R150). -/
def zeroFlag {w : Width} (r : BitVec w.bits) : Bool := r == 0

/-- `SF <- ((r & hib(w)) != 0)` (R151). -/
def signFlag {w : Width} (r : BitVec w.bits) : Bool := r &&& hib w != 0

/-- `PF <- (popcount(r & 0xFF) mod 2 = 0)`: the low byte of the result only (R152). -/
def parityFlag {w : Width} (r : BitVec w.bits) : Bool := popcount (r.setWidth 8) % 2 == 0

/-- `CF <- (unsigned(a) + unsigned(b) >= 2^N)` (R153). -/
def addCarry {w : Width} (a b : BitVec w.bits) : Bool := 2 ^ w.bits ≤ a.toNat + b.toNat

/-- `AF <- ((a & 0xF) + (b & 0xF) >= 0x10)` (R154). -/
def addAuxCarry {w : Width} (a b : BitVec w.bits) : Bool := 0x10 ≤ (a &&& 0xF).toNat + (b &&& 0xF).toNat

/-- `OF <- ((~(a ^ b) & (r ^ a) & hib(w)) != 0)` with `r = a + b` (R155). -/
def addOverflow {w : Width} (a b : BitVec w.bits) : Bool :=
  ~~~(a ^^^ b) &&& ((a + b) ^^^ a) &&& hib w != 0

/-- The flags AddFlags leaves: OF, SF, ZF, AF, PF, CF written, DF, IF, TF kept (R156). Its result is
`(a + b) mod 2^N`. -/
def addFlags {w : Width} (a b : BitVec w.bits) (f : Flags) : Flags :=
  { f with
    CF := addCarry a b
    AF := addAuxCarry a b
    OF := addOverflow a b
    ZF := zeroFlag (a + b)
    SF := signFlag (a + b)
    PF := parityFlag (a + b) }

/-- `CF <- (unsigned(b) > unsigned(a))` (R157). -/
def subBorrow {w : Width} (a b : BitVec w.bits) : Bool := a.toNat < b.toNat

/-- `AF <- ((b & 0xF) > (a & 0xF))` (R158). -/
def subAuxBorrow {w : Width} (a b : BitVec w.bits) : Bool := (a &&& 0xF).toNat < (b &&& 0xF).toNat

/-- `OF <- (((a ^ b) & (a ^ r) & hib(w)) != 0)` with `r = a - b` (R159). -/
def subOverflow {w : Width} (a b : BitVec w.bits) : Bool :=
  (a ^^^ b) &&& (a ^^^ (a - b)) &&& hib w != 0

/-- The flags SubFlags leaves: OF, SF, ZF, AF, PF, CF written, DF, IF, TF kept (R160). Its result is
`(a - b) mod 2^N`. -/
def subFlags {w : Width} (a b : BitVec w.bits) (f : Flags) : Flags :=
  { f with
    CF := subBorrow a b
    AF := subAuxBorrow a b
    OF := subOverflow a b
    ZF := zeroFlag (a - b)
    SF := signFlag (a - b)
    PF := parityFlag (a - b) }

/-- The condition of each conditional jump: JNE reads ZF = 0, JE ZF = 1, JB CF = 1, JP PF = 1 (R193 to R196). -/
def Flags.holds (f : Flags) : Cond → Bool
  | .ne => !f.ZF
  | .e => f.ZF
  | .b => f.CF
  | .p => f.PF

end Sys2Proof.Machine
end

