-- ==== Sys2Proof/Machine/Operands.lean ====
section
/-! DEFINITION. Operands: the checks on a decoded record (40_dispatch.md R117, R118), the effective-address resolver
(41_operands_ea.md R135, R136), the range check of an operand (20_memory.md R58), and reading and writing an operand
(R130 to R134). -/

namespace Sys2Proof.Machine

/-! ### Part 1 of R117: the register contract -/

/-- The half register of a register, where it has byte halves (R23). -/
def halfReg? : Reg → Option HalfReg
  | .gen .ax => some .ax
  | .gen .bx => some .bx
  | .gen .cx => some .cx
  | .gen .dx => some .dx
  | _ => none

/-- The half at a byte offset, 0 or 1 (R23). -/
def half? : Nat → Option Half
  | 0 => some .low
  | 1 => some .high
  | _ => none

/-- Part 1 of R117 for one operand: every register index is one of the 13, and a byte register is a half of AX,
BX, CX or DX. -/
def registersOk : OperandRec → Bool
  | .reg index width offset =>
    match Reg.ofId index with
    | none => false
    | some r => width != 1 || ((halfReg? r).isSome && (half? offset).isSome)
  | .imm _ => true
  | .mem terms _ _ => terms.all fun t => (Reg.ofId t).isSome

/-- The position of the first operand that breaks the register contract (R117 part 1, R218). -/
def registerViolation (operands : List OperandRec) : Option Nat := operands.findIdx? fun o => !registersOk o

/-! ### Part 2 of R117: operand shapes -/

/-- An operand whose own kind and width are valid: a place of some width or an immediate. -/
inductive Shape where
  | place (w : Width) (p : Place w)
  | imm (value : Word)

/-- The address term a register index names (R135). -/
def addrReg? (index : Nat) : Option AddrReg :=
  match Reg.ofId index with
  | some (.gen .bx) => some .bx
  | some (.gen .bp) => some .bp
  | some (.gen .si) => some .si
  | some (.gen .di) => some .di
  | _ => none

/-- The width a width in bytes stands for: 1 or 2 (R117 part 2). -/
def width? : Nat → Option Width
  | 1 => some .byte
  | 2 => some .word
  | _ => none

/-- The shape of one operand (R117 part 2): every width is 1 or 2, no register operand names IP (R118), and a memory
operand has at most two terms, each of BX, BP, SI, DI (R135). At width 2 the offset is ignored (R73). -/
def shapeOf : OperandRec → Option Shape
  | .reg index width offset =>
    match width? width, Reg.ofId index with
    | some .byte, some r =>
      match halfReg? r, half? offset with
      | some h, some k => some (.place .byte (.half h k))
      | _, _ => none
    | some .word, some (.gen g) => some (.place .word (.gen g))
    | some .word, some (.seg sr) => some (.place .word (.seg sr))
    | _, _ => none
  | .imm v => some (.imm v)
  | .mem terms disp width =>
    match width? width, terms.mapM addrReg? with
    | some w, some ts => if ts.length ≤ 2 then some (.place w (.mem ts disp)) else none
    | _, _ => none

/-- The operations with two operands (R117). -/
inductive BinOp where
  | mov
  | arith (op : ArithOp)

/-- Whether a place may be `operands[0]`: MOV takes any; ADD, SUB and CMP take a general register, or memory when
`MEM_DEST_ARITH` (R117, D16). -/
def destinationOk (P : Config.Params) {w : Width} : BinOp → Place w → Bool
  | .mov, _ => true
  | .arith _, .half _ _ => true
  | .arith _, .gen _ => true
  | .arith _, .seg _ => false
  | .arith _, .mem _ _ => P.memDestArith

/-- Whether a place may be `operands[1]`: ADD, SUB and CMP take no segment register (R117). -/
def sourceOk {w : Width} : BinOp → Place w → Bool
  | .mov, _ => true
  | .arith _, .half _ _ => true
  | .arith _, .gen _ => true
  | .arith _, .seg _ => false
  | .arith _, .mem _ _ => true

/-- Whether a place is a segment register. -/
def isSegment {w : Width} : Place w → Bool
  | .seg _ => true
  | .half _ _ => false
  | .gen _ => false
  | .mem _ _ => false

/-- Whether two places of MOV may be paired: a segment register only with a general register or memory of width 2
(R117, D17). Of two places of one width only two segment registers may not. -/
def pairOk {w : Width} (dst src : Place w) : Bool := !(isSegment dst && isSegment src)

/-- The checked record of a two-operand operation. -/
def BinOp.checked (op : BinOp) (w : Width) (dst : Place w) (src : Source w) : Checked :=
  match op with
  | .mov => .move w dst src
  | .arith a => .arith a w dst src

/-- The widths of two places and the segment pairing (R117): widths equal, else OperandTypeMismatch at operands[1]
(95_test_vectors.md V-H-9). Where a segment register is paired with an operand it may not be paired with, the spec
states no position (V-H-10), so it is free (log entry 4). -/
def checkPair (op : BinOp) (operands : List OperandRec) :
    (w w' : Width) → Place w → Place w' → Except (Option Nat) Checked
  | .byte, .byte, dst, src => .ok (op.checked .byte dst (.place src))
  | .word, .word, dst, src =>
    if pairOk dst src then .ok (op.checked .word dst (.place src)) else .error (Config.mismatchPosition operands)
  | .byte, .word, _, src => .error (if isSegment src then Config.mismatchPosition operands else some 1)
  | .word, .byte, dst, _ => .error (if isSegment dst then Config.mismatchPosition operands else some 1)

/-- Part 2 of R117 for MOV, ADD, SUB and CMP: operand count, then operands[0], then operands[1] (R218). The error is
the position reported. -/
def checkBinary (P : Config.Params) (op : BinOp) (operands : List OperandRec) : Except (Option Nat) Checked :=
  match operands with
  | [o0, o1] =>
    match shapeOf o0 with
    | some (.place w dst) =>
      if destinationOk P op dst then
        match shapeOf o1 with
        | none => .error (some 1)
        | some (.imm v) =>
          if isSegment dst then .error (Config.mismatchPosition operands) else .ok (op.checked w dst (.imm v))
        | some (.place w' src) =>
          if sourceOk op src then checkPair op operands w w' dst src else .error (some 1)
      else .error (some 0)
    | _ => .error (some 0)
  | _ => .error (Config.mismatchPosition operands)

/-- Part 2 of R117 for the jumps and loops: exactly one immediate. Its displacement is `value[7:0]` (R191). -/
def checkRelative (mk : Byte → Checked) (operands : List OperandRec) : Except (Option Nat) Checked :=
  match operands with
  | [.imm v] => .ok (mk (loByte v))
  | [_] => .error (some 0)
  | _ => .error (Config.mismatchPosition operands)

/-! ### The places of the encoding fields -/

/-- The place a register field names at a width (R84). -/
def regPlace (c : RegCode) : (w : Width) → Place w
  | .byte => .half c.byte.1 c.byte.2
  | .word => .gen c.word

/-- The place an `r/m` field names at a width (R84, R86, R87). -/
def rmPlace (rm : RM) (w : Width) : Place w :=
  match rm with
  | .reg c => regPlace c w
  | .ind b => .mem b.terms 0
  | .direct addr => .mem [] addr.toNat
  | .disp8 b d => .mem b.terms d.toInt
  | .disp16 b d => .mem b.terms d.toInt

/-- The accumulator as a place: AL at width 1, AX at width 2 (R93, R94). -/
def accPlace (w : Width) : Place w := regPlace .axAl w

/-! ### Effective addresses and the range check -/

/-- `EA(terms, disp)`: the exact integer sum, no modulus and no segment (R136). -/
def effectiveAddress (terms : List AddrReg) (disp : Int) (r : Regs) : Int :=
  (terms.map fun t => ((r.getGen t.gen).toNat : Int)).sum + disp

/-- The effective address of a place, where it is a memory operand (R136). -/
def Place.ea? {w : Width} (r : Regs) : Place w → Option Int
  | .mem terms disp => some (effectiveAddress terms disp r)
  | .half _ _ => none
  | .gen _ => none
  | .seg _ => none

/-- The effective address of a source, where it is a memory operand (R136). -/
def Source.ea? {w : Width} (r : Regs) : Source w → Option Int
  | .place p => Place.ea? r p
  | .imm _ => none

/-- Whether the access of a place lies in the memory bank (R58); a register always does. -/
def Place.inBank {w : Width} (P : Config.Params) (r : Regs) : Place w → Bool
  | .mem terms disp => admitted P.memSize (effectiveAddress terms disp r) w
  | .half _ _ => true
  | .gen _ => true
  | .seg _ => true

/-- Whether the access of a source lies in the memory bank (R58). -/
def Source.inBank {w : Width} (P : Config.Params) (r : Regs) : Source w → Bool
  | .place p => Place.inBank P r p
  | .imm _ => true

/-- An effective address that fails the range check (R58). -/
def badAddress (P : Config.Params) (w : Width) : Option Int → Option Int
  | some a => if admitted P.memSize a w then none else some a
  | none => none

/-- Stage 2 of R116: the first effective address that fails the range check, destination before source. -/
def rangeViolation (P : Config.Params) {w : Width} (dst : Place w) (src : Source w) (r : Regs) : Option Int :=
  match badAddress P w (Place.ea? r dst) with
  | some a => some a
  | none => badAddress P w (Source.ea? r src)

/-! ### Operand read and write -/

/-- `ReadOperand` of a place (R130, R132). -/
def Place.read {w : Width} (s : State) : Place w → BitVec w.bits
  | .half r k => s.regs.getByte r k
  | .gen g => s.regs.getGen g
  | .seg sr => s.regs.getSeg sr
  | .mem terms disp => s.mem.readW (effectiveAddress terms disp s.regs).toNat w

/-- `ReadOperand(Imm(v), w) = v[8w-1:0]` (R131). -/
def immediate (v : Word) : (w : Width) → BitVec w.bits
  | .byte => loByte v
  | .word => v

/-- `ReadOperand` of a source (R130). -/
def Source.read {w : Width} (s : State) : Source w → BitVec w.bits
  | .place p => Place.read s p
  | .imm v => immediate v w

/-- `WriteOperand` (R133). -/
def Place.write {w : Width} (s : State) : Place w → BitVec w.bits → State
  | .half r k, v => s.setRegs (s.regs.setByte r k v)
  | .gen g, v => s.setRegs (s.regs.setGen g v)
  | .seg sr, v => s.setRegs (s.regs.setSeg sr v)
  | .mem terms disp, v => s.setMem (s.mem.writeW (effectiveAddress terms disp s.regs).toNat w v)

end Sys2Proof.Machine
end

