-- ==== Sys2Proof/Machine/Engine.lean ====
section
/-! DEFINITION. The execution engine of level 1: the meaning of each opcode over checked operands (43_move.md,
44_arith.md, 45_branch.md), one decoded record (40_dispatch.md R112 to R117), and one step for any decoder and any
parameters (R114). -/

namespace Sys2Proof.Machine

/-! ### The opcodes (`pos` is the address of the instruction; `s` already holds `ip` past it, R112) -/

/-- MOV (R170, R171): range checks, destination first, then the source's value into the destination. -/
def runMove (P : Config.Params) (pos : Word) {w : Width} (dst : Place w) (src : Source w) (s : State) : State :=
  match rangeViolation P dst src s.regs with
  | some a => s.raise (.addressOutOfRange pos a w)
  | none => Place.write s dst (Source.read s src)

/-- ADD (R180): `(a + b) mod 2^(8w)` to the destination, then the flags of AddFlags. -/
def runAdd (P : Config.Params) (pos : Word) {w : Width} (dst : Place w) (src : Source w) (s : State) : State :=
  match rangeViolation P dst src s.regs with
  | some a => s.raise (.addressOutOfRange pos a w)
  | none =>
    let a := Place.read s dst
    let b := Source.read s src
    (Place.write s dst (a + b)).setFlags (addFlags a b s.flags)

/-- SUB (R181): `(a - b) mod 2^(8w)` to the destination, then the flags of SubFlags. -/
def runSub (P : Config.Params) (pos : Word) {w : Width} (dst : Place w) (src : Source w) (s : State) : State :=
  match rangeViolation P dst src s.regs with
  | some a => s.raise (.addressOutOfRange pos a w)
  | none =>
    let a := Place.read s dst
    let b := Source.read s src
    (Place.write s dst (a - b)).setFlags (subFlags a b s.flags)

/-- CMP (R182): the flags of SubFlags, the result discarded. -/
def runCmp (P : Config.Params) (pos : Word) {w : Width} (dst : Place w) (src : Source w) (s : State) : State :=
  match rangeViolation P dst src s.regs with
  | some a => s.raise (.addressOutOfRange pos a w)
  | none => s.setFlags (subFlags (Place.read s dst) (Source.read s src) s.flags)

/-- `target <- unsigned(ip) + d`, the exact integer, with `d` the signed 8-bit displacement (R190, R191). -/
def branchTarget (disp : Byte) (s : State) : Int := s.ip.toNat + disp.toInt

/-- Whether a target lies in 0 .. 0xFFFF (R190). -/
def targetOk (t : Int) : Bool := 0 ≤ t && t ≤ 0xFFFF

/-- `Jcc(cond)` (R192 to R196): when the condition holds, branch by R190. -/
def runJump (pos : Word) (c : Cond) (disp : Byte) (s : State) : State :=
  if s.flags.holds c then
    if targetOk (branchTarget disp s) then s.setIp (BitVec.ofInt 16 (branchTarget disp s))
    else s.raise (.branchTargetOutOfRange pos (branchTarget disp s))
  else s

/-- Whether a loop is taken, given the counter after its decrement: LOOP when it is non-zero (R198), LOOPNZ when
moreover ZF = 0 (R199). -/
def loopTaken (whileNotZero : Bool) (c : Word) (f : Flags) : Bool := c != 0 && (!whileNotZero || !f.ZF)

/-- LOOP and LOOPNZ (R197 to R199): CX is decremented modulo 2^16; a taken loop's target is checked before CX is
written. -/
def runLoop (pos : Word) (whileNotZero : Bool) (disp : Byte) (s : State) : State :=
  let c := s.cx - 1
  if loopTaken whileNotZero c s.flags then
    if targetOk (branchTarget disp s) then (s.setCx c).setIp (BitVec.ofInt 16 (branchTarget disp s))
    else s.raise (.branchTargetOutOfRange pos (branchTarget disp s))
  else s.setCx c

/-! ### One decoded record -/

/-- The check of R117 part 2 that goes with each opcode tag: the rows of its table. An `OTHER(t)` has no handler and
no row (R113, R212): the error is its `t`. -/
def shapeCheck (P : Config.Params) : Op → Except String (List OperandRec → Except (Option Nat) Checked)
  | .mov => .ok (checkBinary P .mov)
  | .add => .ok (checkBinary P (.arith .add))
  | .sub => .ok (checkBinary P (.arith .sub))
  | .cmp => .ok (checkBinary P (.arith .cmp))
  | .jne => .ok (checkRelative (.jump .ne))
  | .je => .ok (checkRelative (.jump .e))
  | .jb => .ok (checkRelative (.jump .b))
  | .jp => .ok (checkRelative (.jump .p))
  | .loop => .ok (checkRelative (.loop false))
  | .loopnz => .ok (checkRelative (.loop true))
  | .other t => .error t

/-- The rule of a checked record (R113). -/
def runChecked (P : Config.Params) (pos : Word) (c : Checked) (s : State) : State :=
  match c with
  | .move _ dst src => runMove P pos dst src s
  | .arith .add _ dst src => runAdd P pos dst src s
  | .arith .sub _ dst src => runSub P pos dst src s
  | .arith .cmp _ dst src => runCmp P pos dst src s
  | .jump cond disp => runJump pos cond disp s
  | .loop whileNotZero disp => runLoop pos whileNotZero disp s

/-- The part of R114 after the advance, on a record whose instruction stands at `pos`: OTHER(t), then the register
contract, then the operand shapes, then the rule (R113, R117, R218). -/
def dispatch (P : Config.Params) (pos : Word) (rec : Record) (s : State) : State :=
  match shapeCheck P rec.op with
  | .error t => s.raise (.unimplementedOpcode pos t)
  | .ok check =>
    match registerViolation rec.operands with
    | some k => s.raise (.registerIndexViolation pos k)
    | none =>
      match check rec.operands with
      | .ok c => runChecked P pos c s
      | .error k => s.raise (.operandTypeMismatch pos k)

/-- `at <- ip; ip <- ip + n; dispatch(ins, at)` (R112). -/
def runRecord (P : Config.Params) (rec : Record) (s : State) : State :=
  dispatch P s.ip rec (s.advance rec.size)

/-! ### Fetch and step, for any decoder -/

/-- The window `mem[ip .. prog_len - 1]`, as memory is at the moment of the step (R111, R63). -/
def State.window (s : State) : List Byte := s.mem.readBytes s.ip.toNat (s.progLen - s.ip.toNat)

/-- The end-of-program test, `unsigned(ip) >= prog_len` (R111, D12). -/
def State.atEnd (s : State) : Bool := s.progLen ≤ s.ip.toNat

/-- A decoder's answer within its contract: `1 <= consumed <= len(window)` and `size = consumed`; anything else is
"no instruction" (R70, R112, R114, D28). -/
def decodeOk (D : Decoder) (window : List Byte) : Option Record :=
  match D window with
  | some (rec, n) => if 1 ≤ n ∧ n ≤ window.length ∧ rec.size = n then some rec else none
  | none => none

/-- One step of the engine, for any parameters and any decoder (R110, R114). A halted state has no step (R115). -/
def stepWith (P : Config.Params) (D : Decoder) (s : State) : Host.Outcome State Fault Refusal :=
  match s.run with
  | .running =>
    if s.atEnd then .next s.haltClean
    else
      match decodeOk D s.window with
      | some rec => .next (runRecord P rec s)
      | none => .next (s.raise (.decodeFailure s.ip))
  | .haltedClean => .fault .halted
  | .haltedError _ => .fault .halted

end Sys2Proof.Machine
end

