-- ==== Sys2Proof/Machine/Arith.lean ====
section
/-! DEFINITION. The meanings of the ADD, SUB and CMP rows (44_arith.md R180 to R182): each is its level-1 record
(30_encoding.md R90, R91, R94), run by the engine at the reference parameters. -/

namespace Sys2Proof.Machine

/-- `ADD r/m, r` (R180, format RM R90, d = 0). -/
def execAddRmR (w : Width) (rm : RM) (reg : RegCode) (s : State) : Host.Outcome State Fault Refusal :=
  .next (runRecord Config.reference (recRmR .add w rm reg) s)

/-- `ADD r, r/m` (R180, format RM R90, d = 1). -/
def execAddRRm (w : Width) (reg : RegCode) (rm : RM) (s : State) : Host.Outcome State Fault Refusal :=
  .next (runRecord Config.reference (recRRm .add w reg rm) s)

/-- `ADD r/m8, imm8` (R180, format RMI R91, opcode 80). -/
def execAddRm8Imm8 (rm : RM) (imm : Byte) (s : State) : Host.Outcome State Fault Refusal :=
  .next (runRecord Config.reference (recRmImm .add rm (.imm8 imm)) s)

/-- `ADD r/m16, imm16` (R180, format RMI R91, opcode 81). -/
def execAddRm16Imm16 (rm : RM) (imm : Word) (s : State) : Host.Outcome State Fault Refusal :=
  .next (runRecord Config.reference (recRmImm .add rm (.imm16 imm)) s)

/-- `ADD r/m16, simm8` (R180, format RMI R91, opcode 83). -/
def execAddRm16Simm8 (rm : RM) (imm : Byte) (s : State) : Host.Outcome State Fault Refusal :=
  .next (runRecord Config.reference (recRmSimm8 .add rm imm) s)

/-- `ADD acc, imm` (R180, format AI R94). -/
def execAddAccImm (imm : Imm) (s : State) : Host.Outcome State Fault Refusal :=
  .next (runRecord Config.reference (recAccImm .add imm) s)

/-- `SUB r/m, r` (R181, format RM R90, d = 0). -/
def execSubRmR (w : Width) (rm : RM) (reg : RegCode) (s : State) : Host.Outcome State Fault Refusal :=
  .next (runRecord Config.reference (recRmR .sub w rm reg) s)

/-- `SUB r, r/m` (R181, format RM R90, d = 1). -/
def execSubRRm (w : Width) (reg : RegCode) (rm : RM) (s : State) : Host.Outcome State Fault Refusal :=
  .next (runRecord Config.reference (recRRm .sub w reg rm) s)

/-- `SUB r/m8, imm8` (R181, format RMI R91, opcode 80). -/
def execSubRm8Imm8 (rm : RM) (imm : Byte) (s : State) : Host.Outcome State Fault Refusal :=
  .next (runRecord Config.reference (recRmImm .sub rm (.imm8 imm)) s)

/-- `SUB r/m16, imm16` (R181, format RMI R91, opcode 81). -/
def execSubRm16Imm16 (rm : RM) (imm : Word) (s : State) : Host.Outcome State Fault Refusal :=
  .next (runRecord Config.reference (recRmImm .sub rm (.imm16 imm)) s)

/-- `SUB r/m16, simm8` (R181, format RMI R91, opcode 83). -/
def execSubRm16Simm8 (rm : RM) (imm : Byte) (s : State) : Host.Outcome State Fault Refusal :=
  .next (runRecord Config.reference (recRmSimm8 .sub rm imm) s)

/-- `SUB acc, imm` (R181, format AI R94). -/
def execSubAccImm (imm : Imm) (s : State) : Host.Outcome State Fault Refusal :=
  .next (runRecord Config.reference (recAccImm .sub imm) s)

/-- `CMP r/m, r` (R182, format RM R90, d = 0). -/
def execCmpRmR (w : Width) (rm : RM) (reg : RegCode) (s : State) : Host.Outcome State Fault Refusal :=
  .next (runRecord Config.reference (recRmR .cmp w rm reg) s)

/-- `CMP r, r/m` (R182, format RM R90, d = 1). -/
def execCmpRRm (w : Width) (reg : RegCode) (rm : RM) (s : State) : Host.Outcome State Fault Refusal :=
  .next (runRecord Config.reference (recRRm .cmp w reg rm) s)

/-- `CMP r/m8, imm8` (R182, format RMI R91, opcode 80). -/
def execCmpRm8Imm8 (rm : RM) (imm : Byte) (s : State) : Host.Outcome State Fault Refusal :=
  .next (runRecord Config.reference (recRmImm .cmp rm (.imm8 imm)) s)

/-- `CMP r/m16, imm16` (R182, format RMI R91, opcode 81). -/
def execCmpRm16Imm16 (rm : RM) (imm : Word) (s : State) : Host.Outcome State Fault Refusal :=
  .next (runRecord Config.reference (recRmImm .cmp rm (.imm16 imm)) s)

/-- `CMP r/m16, simm8` (R182, format RMI R91, opcode 83). -/
def execCmpRm16Simm8 (rm : RM) (imm : Byte) (s : State) : Host.Outcome State Fault Refusal :=
  .next (runRecord Config.reference (recRmSimm8 .cmp rm imm) s)

/-- `CMP acc, imm` (R182, format AI R94). -/
def execCmpAccImm (imm : Imm) (s : State) : Host.Outcome State Fault Refusal :=
  .next (runRecord Config.reference (recAccImm .cmp imm) s)

end Sys2Proof.Machine
end

