-- ==== Sys2Proof/Machine/Branch.lean ====
section
/-! DEFINITION. The meanings of the conditional jumps and loops (45_branch.md R190 to R199): each is its level-1
record (30_encoding.md R96), run by the engine at the reference parameters. -/

namespace Sys2Proof.Machine

/-- `JNE rel8` (R193, format J8 R96). -/
def execJneRel8 (rel : Byte) (s : State) : Host.Outcome State Fault Refusal :=
  .next (runRecord Config.reference (recRel8 .jne rel) s)

/-- `JE rel8` (R194, format J8 R96). -/
def execJeRel8 (rel : Byte) (s : State) : Host.Outcome State Fault Refusal :=
  .next (runRecord Config.reference (recRel8 .je rel) s)

/-- `JB rel8` (R195, format J8 R96). -/
def execJbRel8 (rel : Byte) (s : State) : Host.Outcome State Fault Refusal :=
  .next (runRecord Config.reference (recRel8 .jb rel) s)

/-- `JP rel8` (R196, format J8 R96). -/
def execJpRel8 (rel : Byte) (s : State) : Host.Outcome State Fault Refusal :=
  .next (runRecord Config.reference (recRel8 .jp rel) s)

/-- `LOOP rel8` (R198, format J8 R96). -/
def execLoopRel8 (rel : Byte) (s : State) : Host.Outcome State Fault Refusal :=
  .next (runRecord Config.reference (recRel8 .loop rel) s)

/-- `LOOPNZ rel8` (R199, format J8 R96). -/
def execLoopnzRel8 (rel : Byte) (s : State) : Host.Outcome State Fault Refusal :=
  .next (runRecord Config.reference (recRel8 .loopnz rel) s)

end Sys2Proof.Machine
end

