-- ==== Sys2Proof/Machine/Move.lean ====
section
/-! DEFINITION. The meanings of the eight MOV rows (43_move.md R170, R171): each is its level-1 record
(30_encoding.md R90 to R95), run by the engine at the reference parameters. -/

namespace Sys2Proof.Machine

/-- `MOV r/m, r` (R170, format RM R90, d = 0). -/
def execMovRmR (w : Width) (rm : RM) (reg : RegCode) (s : State) : Host.Outcome State Fault Refusal :=
  .next (runRecord Config.reference (recRmR .mov w rm reg) s)

/-- `MOV r, r/m` (R170, format RM R90, d = 1). -/
def execMovRRm (w : Width) (reg : RegCode) (rm : RM) (s : State) : Host.Outcome State Fault Refusal :=
  .next (runRecord Config.reference (recRRm .mov w reg rm) s)

/-- `MOV r/m, imm` (R170, format RMI R91). -/
def execMovRmImm (rm : RM) (imm : Imm) (s : State) : Host.Outcome State Fault Refusal :=
  .next (runRecord Config.reference (recRmImm .mov rm imm) s)

/-- `MOV r, imm` (R170, format RI R92). -/
def execMovRImm (reg : RegCode) (imm : Imm) (s : State) : Host.Outcome State Fault Refusal :=
  .next (runRecord Config.reference (recRImm .mov reg imm) s)

/-- `MOV acc, [addr]` (R170, format AM R93). -/
def execMovAccAddr (w : Width) (addr : Word) (s : State) : Host.Outcome State Fault Refusal :=
  .next (runRecord Config.reference (recAccAddr .mov w addr) s)

/-- `MOV [addr], acc` (R170, format AM R93). -/
def execMovAddrAcc (w : Width) (addr : Word) (s : State) : Host.Outcome State Fault Refusal :=
  .next (runRecord Config.reference (recAddrAcc .mov w addr) s)

/-- `MOV r/m16, sreg` (R171, format SR R95, 8C). -/
def execMovRm16Sreg (rm : RM) (sr : SReg) (s : State) : Host.Outcome State Fault Refusal :=
  .next (runRecord Config.reference (recRmSreg .mov rm sr) s)

/-- `MOV sreg, r/m16` (R171, format SR R95, 8E). -/
def execMovSregRm16 (sr : SReg) (rm : RM) (s : State) : Host.Outcome State Fault Refusal :=
  .next (runRecord Config.reference (recSregRm .mov sr rm) s)

end Sys2Proof.Machine
end

