-- ==== Sys2Proof/Machine/Dispatch.lean ====
section
/-! DEFINITION. The dispatch of the byte-encoded instructions: one arm per row of opcode_table.json. -/

namespace Sys2Proof.Machine

def exec (i : Instr) (s : State) : Host.Outcome State Fault Refusal :=
  match i with
  | .movRmR w rm reg => Sys2Proof.Machine.execMovRmR w rm reg s
  | .movRRm w reg rm => Sys2Proof.Machine.execMovRRm w reg rm s
  | .movRmImm rm imm => Sys2Proof.Machine.execMovRmImm rm imm s
  | .movRImm reg imm => Sys2Proof.Machine.execMovRImm reg imm s
  | .movAccAddr w addr => Sys2Proof.Machine.execMovAccAddr w addr s
  | .movAddrAcc w addr => Sys2Proof.Machine.execMovAddrAcc w addr s
  | .movRm16Sreg rm sr => Sys2Proof.Machine.execMovRm16Sreg rm sr s
  | .movSregRm16 sr rm => Sys2Proof.Machine.execMovSregRm16 sr rm s
  | .addRmR w rm reg => Sys2Proof.Machine.execAddRmR w rm reg s
  | .addRRm w reg rm => Sys2Proof.Machine.execAddRRm w reg rm s
  | .addRm8Imm8 rm imm => Sys2Proof.Machine.execAddRm8Imm8 rm imm s
  | .addRm16Imm16 rm imm => Sys2Proof.Machine.execAddRm16Imm16 rm imm s
  | .addRm16Simm8 rm imm => Sys2Proof.Machine.execAddRm16Simm8 rm imm s
  | .addAccImm imm => Sys2Proof.Machine.execAddAccImm imm s
  | .subRmR w rm reg => Sys2Proof.Machine.execSubRmR w rm reg s
  | .subRRm w reg rm => Sys2Proof.Machine.execSubRRm w reg rm s
  | .subRm8Imm8 rm imm => Sys2Proof.Machine.execSubRm8Imm8 rm imm s
  | .subRm16Imm16 rm imm => Sys2Proof.Machine.execSubRm16Imm16 rm imm s
  | .subRm16Simm8 rm imm => Sys2Proof.Machine.execSubRm16Simm8 rm imm s
  | .subAccImm imm => Sys2Proof.Machine.execSubAccImm imm s
  | .cmpRmR w rm reg => Sys2Proof.Machine.execCmpRmR w rm reg s
  | .cmpRRm w reg rm => Sys2Proof.Machine.execCmpRRm w reg rm s
  | .cmpRm8Imm8 rm imm => Sys2Proof.Machine.execCmpRm8Imm8 rm imm s
  | .cmpRm16Imm16 rm imm => Sys2Proof.Machine.execCmpRm16Imm16 rm imm s
  | .cmpRm16Simm8 rm imm => Sys2Proof.Machine.execCmpRm16Simm8 rm imm s
  | .cmpAccImm imm => Sys2Proof.Machine.execCmpAccImm imm s
  | .jneRel8 rel => Sys2Proof.Machine.execJneRel8 rel s
  | .jeRel8 rel => Sys2Proof.Machine.execJeRel8 rel s
  | .jbRel8 rel => Sys2Proof.Machine.execJbRel8 rel s
  | .jpRel8 rel => Sys2Proof.Machine.execJpRel8 rel s
  | .loopRel8 rel => Sys2Proof.Machine.execLoopRel8 rel s
  | .loopnzRel8 rel => Sys2Proof.Machine.execLoopnzRel8 rel s

end Sys2Proof.Machine
end

