-- ==== Sys2Proof/Machine/Fetch.lean ====
section
/-! DEFINITION. The end-of-program test, the fetch and the reference decoder's answer (40_dispatch.md R111, R112;
30_encoding.md R97, R99), and placing an instruction where the next step fetches it. -/

namespace Sys2Proof.Machine

/-- What a step finds before it runs anything (R111, R112, R115). -/
inductive Fetched where
  /-- the run has halted: no step applies (R115) -/
  | halted
  /-- `ip >= prog_len` (R111) -/
  | endOfProgram
  /-- an admitted instruction -/
  | instr (i : Instr)
  /-- a window that matches no row and that `DECODE_CLASS` names, with the size it gives (R99, R212) -/
  | unimplemented (t : String) (size : Nat)
  /-- "no instruction" (R70, R97, R99) -/
  | noInstruction
  deriving DecidableEq, Repr

/-- The end-of-program test, then the reference decoder on the window (R111). A size from `DECODE_CLASS` outside
`1 .. len(window)` is "no instruction" (R70, D28). -/
def State.fetch (s : State) : Fetched :=
  match s.run with
  | .running =>
    if s.atEnd then .endOfProgram
    else
      match decode s.window with
      | .instr i _ => .instr i
      | .noInstruction => .noInstruction
      | .notAdmitted =>
        match Config.decodeClass s.window with
        | .decodeFailure => .noInstruction
        | .unimplemented t n => if 1 ≤ n ∧ n ≤ s.window.length then .unimplemented t n else .noInstruction
  | .haltedClean => .halted
  | .haltedError _ => .halted

/-- Place the bytes of an instruction at `ip` and let the program reach past them, so that the next step fetches
them: the run is running, and `prog_len` is at least `ip` plus their number, up to its bound (log entry 6). -/
def State.placeAtIp (P : Config.Params) (s : State) (bytes : List Byte) : State :=
  { s with
    mem := s.mem.writeBytes s.ip.toNat bytes
    progLen := max s.progLen (min (s.ip.toNat + bytes.length) P.maxProgLen)
    run := .running }

end Sys2Proof.Machine
end

