-- ==== Sys2Proof/Machine/Step.lean ====
section
/-! DEFINITION. One step of the machine (40_dispatch.md R114) with the reference decoder and the reference
parameters. -/

namespace Sys2Proof.Machine

/-- One step (R111 to R115). `exec` itself advances `ip` past the instruction (R112). -/
def step (s : State) : Host.Outcome State Fault Refusal :=
  match s.fetch with
  | .halted => .fault .halted
  | .endOfProgram => .next s.haltClean
  | .instr i => exec i s
  | .unimplemented t n => .next ((s.advance n).raise (.unimplementedOpcode s.ip t))
  | .noInstruction => .next (s.raise (.decodeFailure s.ip))

/-- The state with an instruction, given by its table bits, stored where the next step fetches it. -/
def State.withFetchWord (s : State) (nbits w : Nat) : State :=
  s.placeAtIp Config.reference (tableBytes nbits w)

end Sys2Proof.Machine
end

