-- ==== Sys2Proof/Machine/Outputs.lean ====
section
/-! DEFINITION. The run outputs of an end state (70_reset_and_hazards.md R236), and the packed view of the flags
(10_state.md R28). They read the state and change nothing; the textual format is left open (D25). -/

namespace Sys2Proof.Machine

/-- The names of the nine flags (R26). -/
inductive Flag where
  | OF | DF | IF | TF | SF | ZF | AF | PF | CF
  deriving DecidableEq, Repr

/-- `flag.F` (R9). -/
def Flags.get (f : Flags) : Flag → Bool
  | .OF => f.OF
  | .DF => f.DF
  | .IF => f.IF
  | .TF => f.TF
  | .SF => f.SF
  | .ZF => f.ZF
  | .AF => f.AF
  | .PF => f.PF
  | .CF => f.CF

/-- The letter of a flag in the flags code (R236). -/
def Flag.letter : Flag → Char
  | .OF => 'O'
  | .DF => 'D'
  | .IF => 'I'
  | .TF => 'T'
  | .SF => 'S'
  | .ZF => 'Z'
  | .AF => 'A'
  | .PF => 'P'
  | .CF => 'C'

/-- The bit a flag has in the 8086 FLAGS word, for a packed view; the other bits are not modelled (R28). No rule
depends on it. -/
def Flag.wordBit : Flag → Nat
  | .CF => 0
  | .PF => 2
  | .AF => 4
  | .ZF => 6
  | .SF => 7
  | .TF => 8
  | .IF => 9
  | .DF => 10
  | .OF => 11

/-- The fixed order of the flags code, `O D I T S Z A P C` (R236). -/
def Flag.all : List Flag := [.OF, .DF, .IF, .TF, .SF, .ZF, .AF, .PF, .CF]

/-- The packed view of the flags, with the bits that are not modelled as 0 (R28). -/
def Flags.word (f : Flags) : Word :=
  (Flag.all.filter f.get).foldl (fun v x => v ||| BitVec.ofNat 16 (2 ^ x.wordBit)) 0

/-- The fixed order of the registers (R20, R236). -/
def Reg.all : List Reg :=
  [.gen .ax, .gen .bx, .gen .cx, .gen .dx, .gen .sp, .gen .bp, .gen .si, .gen .di,
   .seg .es, .seg .cs, .seg .ss, .seg .ds, .ip]

/-- The name of a register (R20). -/
def Reg.name : Reg → String
  | .gen .ax => "AX"
  | .gen .bx => "BX"
  | .gen .cx => "CX"
  | .gen .dx => "DX"
  | .gen .sp => "SP"
  | .gen .bp => "BP"
  | .gen .si => "SI"
  | .gen .di => "DI"
  | .seg .es => "ES"
  | .seg .cs => "CS"
  | .seg .ss => "SS"
  | .seg .ds => "DS"
  | .ip => "IP"

/-- A register of the run outputs: its unsigned value (shown in hexadecimal) and its signed value (R236). -/
structure RegOutput where
  reg : Reg
  unsigned : Nat
  signed : Int
  deriving DecidableEq, Repr

/-- The non-zero registers, in the fixed order (R236). -/
def registerOutputs (s : State) : List RegOutput :=
  (Reg.all.filter fun r => s.getWord r != 0).map fun r =>
    { reg := r, unsigned := (s.getWord r).toNat, signed := (s.getWord r).toInt }

/-- The flags code: the letters of the active flags, in the fixed order (R236). -/
def flagsCode (s : State) : List Char := (Flag.all.filter s.flags.get).map Flag.letter

/-- The optional memory output: the `MEM_SIZE` bytes in address order (R236). -/
def memoryOutput (P : Config.Params) (s : State) : List Byte := s.mem.readBytes 0 P.memSize

end Sys2Proof.Machine
end

