-- ==== Sys2Proof/Machine/Asm.lean ====
section
/-! DEFINITION. Assembler syntax (30_encoding.md R100, R101): the mnemonics and their second spellings, the rel8 an
assembler writes for a target, and the text of an instruction. Nothing in the machine depends on it. -/

namespace Sys2Proof.Machine.Asm

/-- The mnemonic of an operation (R5, R100). -/
def mnemonic : Op → String
  | .mov => "mov"
  | .add => "add"
  | .sub => "sub"
  | .cmp => "cmp"
  | .jne => "jne"
  | .je => "je"
  | .jb => "jb"
  | .jp => "jp"
  | .loop => "loop"
  | .loopnz => "loopnz"
  | .other t => t

/-- The second spellings that assemble to the same bytes (R101). -/
def spellings : Op → List String
  | .jne => ["jnz"]
  | .je => ["jz"]
  | .jb => ["jc", "jnae"]
  | .jp => ["jpe"]
  | .loopnz => ["loopne"]
  | .mov => []
  | .add => []
  | .sub => []
  | .cmp => []
  | .loop => []
  | .other _ => []

/-- `rel8 = target - (address of the jump + 2)` (R100); `none` where it is not a signed 8-bit number. -/
def rel8 (pos target : Nat) : Option Byte :=
  let d : Int := target - (pos + 2 : Nat)
  if -128 ≤ d ∧ d ≤ 127 then some (BitVec.ofInt 8 d) else none

/-- The name of a general register. -/
def genName : GReg → String
  | .ax => "ax"
  | .bx => "bx"
  | .cx => "cx"
  | .dx => "dx"
  | .sp => "sp"
  | .bp => "bp"
  | .si => "si"
  | .di => "di"

/-- The name of a segment register. -/
def segName : SReg → String
  | .es => "es"
  | .cs => "cs"
  | .ss => "ss"
  | .ds => "ds"

/-- The name of the register a field names at a width (R84). -/
def regName : Width → RegCode → String
  | .byte, .axAl => "al"
  | .byte, .cxCl => "cl"
  | .byte, .dxDl => "dl"
  | .byte, .bxBl => "bl"
  | .byte, .spAh => "ah"
  | .byte, .bpCh => "ch"
  | .byte, .siDh => "dh"
  | .byte, .diBh => "bh"
  | .word, c => genName c.word

/-- A displacement after the terms: nothing for 0, else ` + n` or ` - n`. -/
def dispText (d : Int) : String :=
  if d = 0 then "" else if d < 0 then " - " ++ toString d.natAbs else " + " ++ toString d.natAbs

/-- An `r/m` operand: a register, `[terms + disp]` or `[addr]` (R100). -/
def rmText (w : Width) (rm : RM) : String :=
  match rm with
  | .reg c => regName w c
  | .direct a => "[" ++ toString a.toNat ++ "]"
  | .ind _ | .disp8 _ _ | .disp16 _ _ =>
    "[" ++ " + ".intercalate (rm.terms.map fun t => genName t.gen) ++ dispText rm.disp ++ "]"

/-- The size keyword before a memory operand that no register fixes the width of (R100). -/
def sizedText (w : Width) (rm : RM) : String :=
  match rm with
  | .reg c => regName w c
  | .ind _ | .direct _ | .disp8 _ _ | .disp16 _ _ =>
    (match w with
      | .byte => "byte "
      | .word => "word ") ++ rmText w rm

/-- A decimal immediate (R100). -/
def immText : Imm → String
  | .imm8 v => toString v.toNat
  | .imm16 v => toString v.toNat

/-- A jump target relative to the jump, `$+n` or `$-n` (R100). -/
def relText (rel : Byte) : String :=
  let n := rel.toInt + 2
  if n < 0 then "$-" ++ toString n.natAbs else "$+" ++ toString n.natAbs

/-- `mnemonic dest, src` (R100). -/
def two (op : Op) (dst src : String) : String := mnemonic op ++ " " ++ dst ++ ", " ++ src

/-- `mnemonic target` (R100). -/
def one (op : Op) (target : String) : String := mnemonic op ++ " " ++ target

/-- The text of an instruction (R100). -/
def text : Instr → String
  | .movRmR w rm reg => two .mov (rmText w rm) (regName w reg)
  | .movRRm w reg rm => two .mov (regName w reg) (rmText w rm)
  | .movRmImm rm imm => two .mov (sizedText imm.width rm) (immText imm)
  | .movRImm reg imm => two .mov (regName imm.width reg) (immText imm)
  | .movAccAddr w addr => two .mov (regName w .axAl) (rmText w (.direct addr))
  | .movAddrAcc w addr => two .mov (rmText w (.direct addr)) (regName w .axAl)
  | .movRm16Sreg rm sr => two .mov (rmText .word rm) (segName sr)
  | .movSregRm16 sr rm => two .mov (segName sr) (rmText .word rm)
  | .addRmR w rm reg => two .add (rmText w rm) (regName w reg)
  | .addRRm w reg rm => two .add (regName w reg) (rmText w rm)
  | .addRm8Imm8 rm imm => two .add (sizedText .byte rm) (toString imm.toNat)
  | .addRm16Imm16 rm imm => two .add (sizedText .word rm) (toString imm.toNat)
  | .addRm16Simm8 rm imm => two .add (sizedText .word rm) (toString imm.toInt)
  | .addAccImm imm => two .add (regName imm.width .axAl) (immText imm)
  | .subRmR w rm reg => two .sub (rmText w rm) (regName w reg)
  | .subRRm w reg rm => two .sub (regName w reg) (rmText w rm)
  | .subRm8Imm8 rm imm => two .sub (sizedText .byte rm) (toString imm.toNat)
  | .subRm16Imm16 rm imm => two .sub (sizedText .word rm) (toString imm.toNat)
  | .subRm16Simm8 rm imm => two .sub (sizedText .word rm) (toString imm.toInt)
  | .subAccImm imm => two .sub (regName imm.width .axAl) (immText imm)
  | .cmpRmR w rm reg => two .cmp (rmText w rm) (regName w reg)
  | .cmpRRm w reg rm => two .cmp (regName w reg) (rmText w rm)
  | .cmpRm8Imm8 rm imm => two .cmp (sizedText .byte rm) (toString imm.toNat)
  | .cmpRm16Imm16 rm imm => two .cmp (sizedText .word rm) (toString imm.toNat)
  | .cmpRm16Simm8 rm imm => two .cmp (sizedText .word rm) (toString imm.toInt)
  | .cmpAccImm imm => two .cmp (regName imm.width .axAl) (immText imm)
  | .jneRel8 rel => one .jne (relText rel)
  | .jeRel8 rel => one .je (relText rel)
  | .jbRel8 rel => one .jb (relText rel)
  | .jpRel8 rel => one .jp (relText rel)
  | .loopRel8 rel => one .loop (relText rel)
  | .loopnzRel8 rel => one .loopnz (relText rel)

end Sys2Proof.Machine.Asm
end

