-- ==== Sys2Proof/Safety.lean ====
section
/-! DEFINITION. What a state of a run of this engine satisfies, what is reachable, and what a safe run is: the terms
the statements use. -/

namespace Sys2Proof

open Machine

/-- What holds of every state of a run (R27, R30, R32, R35, R231): memory is in canonical form and lists no address
outside `0 .. MEM_SIZE - 1`, the program length keeps its bound, and the three inert flags are 0. -/
structure Inv (P : Config.Params) (s : State) : Prop where
  memWf : s.mem.wf
  memInBank : ∀ c ∈ s.mem, c.1 < P.memSize
  progLenBound : s.progLen ≤ P.maxProgLen
  inert : s.flags.DF = false ∧ s.flags.IF = false ∧ s.flags.TF = false

/-- The states a run passes through from a state, the state itself included. -/
inductive Reaches (s : State) : State → Prop where
  | refl : Reaches s s
  | step {t u : State} : Reaches s t → Machine.step t = .next u → Reaches s u

/-- The run has not ended in an error halt (R31, R210). -/
def errorFree (s : State) : Bool :=
  match s.run with
  | .running => true
  | .haltedClean => true
  | .haltedError _ => false

/-- A safe run: no state it reaches is an error halt. -/
def SafeFrom (s : State) : Prop := ∀ t, Reaches s t → errorFree t = true

/-! ### What a write to a place touches -/

/-- The register whose cell a place is in, if it is a register (R21, R133). -/
def placeReg {w : Width} : Place w → Option Reg
  | .half r _ => some (.gen r.gen)
  | .gen g => some (.gen g)
  | .seg sr => some (.seg sr)
  | .mem _ _ => none

/-- The byte half a place is, if it is one (R23, R133). -/
def placeHalf {w : Width} : Place w → Option (HalfReg × Half)
  | .half r k => some (r, k)
  | .gen _ => none
  | .seg _ => none
  | .mem _ _ => none

/-- Whether an address is one of the bytes a place covers: `EA .. EA + width - 1` of a memory operand, with the
effective address of R136 at the given registers; none for a register. -/
def covers {w : Width} (r : Regs) (p : Place w) (a : Nat) : Prop :=
  match p with
  | .mem terms disp => effectiveAddress terms disp r ≤ a ∧ (a : Int) < effectiveAddress terms disp r + w.bytes
  | .half _ _ => False
  | .gen _ => False
  | .seg _ => False

/-- Everything but `ip` and one place is the same in `t` as in `s`: every other register, the other half of a byte
register's cell, every byte of memory outside the place, and the program length. -/
structure SameOutside {w : Width} (p : Place w) (s t : State) : Prop where
  regs : ∀ x, x ≠ .ip → placeReg p ≠ some x → t.getWord x = s.getWord x
  otherHalf : ∀ r k k', placeHalf p = some (r, k) → k' ≠ k → t.regs.getByte r k' = s.regs.getByte r k'
  mem : ∀ a, ¬ covers s.regs p a → t.mem.read a = s.mem.read a
  progLen : t.progLen = s.progLen

/-- Everything but `ip` and the flags is the same in `t` as in `s`. -/
structure SameButFlags (s t : State) : Prop where
  regs : ∀ x, x ≠ .ip → t.getWord x = s.getWord x
  mem : ∀ a, t.mem.read a = s.mem.read a
  progLen : t.progLen = s.progLen

/-- The three flags no instruction writes are the same (R27). -/
def SameInert (s t : State) : Prop :=
  t.flags.DF = s.flags.DF ∧ t.flags.IF = s.flags.IF ∧ t.flags.TF = s.flags.TF

/-- The run state is the old one, or the error halt `bad` allows (R211). -/
def RunsOr (bad : HaltRecord → Prop) (s t : State) : Prop :=
  t.run = s.run ∨ ∃ r, t.run = .haltedError r ∧ bad r

/-- An AddressOutOfRange record (R216). -/
def isAddressHalt : HaltRecord → Prop
  | .addressOutOfRange _ _ _ => True
  | .decodeFailure _ => False
  | .unimplementedOpcode _ _ => False
  | .operandTypeMismatch _ _ => False
  | .registerIndexViolation _ _ => False
  | .branchTargetOutOfRange _ _ => False

/-- A BranchTargetOutOfRange record (R217). -/
def isBranchHalt : HaltRecord → Prop
  | .branchTargetOutOfRange _ _ => True
  | .decodeFailure _ => False
  | .unimplementedOpcode _ _ => False
  | .operandTypeMismatch _ _ => False
  | .registerIndexViolation _ _ => False
  | .addressOutOfRange _ _ _ => False

end Sys2Proof
end

