-- ==== Sys2Proof/Certificates/Slice0/Obligations.lean ====
section
/-! DEFINITION. The statements for the provers. Each says what the rules of spec/ it cites say of the model. -/

open Sys2Proof Sys2Proof.Machine

/-! ### Encoding and decoding -/

/-- Decoding the encoding of a well-formed instruction, whatever bytes follow it, gives the instruction back and
consumes exactly its encoding (30_encoding.md R80 to R97). -/
def Obligations.DecodeOfEncodeIsIdentity : Prop :=
  ∀ (i : Instr) (rest : List Byte), i.wellFormed = true →
    decode (encode i ++ rest) = .instr i (encode i).length

/-- The bytes a decoded instruction took are its encoding: every admitted byte sequence has one meaning and no bit of
it is dropped. The instruction is well formed, takes 2 to 6 bytes, and its record's size is what was consumed
(30_encoding.md R70, R80, R97). -/
def Obligations.EncodeOfDecodeIsIdentity : Prop :=
  ∀ (window : List Byte) (i : Instr) (n : Nat), decode window = .instr i n →
    i.wellFormed = true ∧ window.take n = encode i ∧ n = i.record.size ∧ 2 ≤ n ∧ n ≤ 6 ∧ n ≤ window.length

/-- "Exactly one row matches any key that matches at all (the rows are disjoint)" (30_encoding.md R80): no key matches
two rows, and every row is in the table the decoder searches. -/
def Obligations.OpcodeRowsAreDisjoint : Prop :=
  (∀ (K : BitVec 16) (r r' : Row), r.matchesKey K = true → r'.matchesKey K = true → r = r') ∧
  ∀ r : Row, r ∈ Row.all

/-- Words written out bit by bit from the format tables of 30_encoding.md, and the instruction each stands for: at least one
for each of the 32 rows (R90 to R96, R98), then one for each register code in each of its three positions (R84), each `sr`
code in both SR forms (R85), and each `r/m` code at mod = 00, 01 and 10 (R86, R87). -/
def Obligations.SpecWordsDecode : Prop :=
  (decode [0b10001001, 0b11011000] = .instr (.movRmR .word (.reg .axAl) .bxBl) 2 ∧
    decode [0b10001000, 0b11011000] = .instr (.movRmR .byte (.reg .axAl) .bxBl) 2 ∧
    decode [0b10001011, 0b01000110, 0xFE] = .instr (.movRRm .word .axAl (.disp8 .bp 0xFE)) 3 ∧
    decode [0b11000111, 0b10000110, 0x34, 0x12, 0x78, 0x56] =
      .instr (.movRmImm (.disp16 .bp 0x1234) (.imm16 0x5678)) 6 ∧
    decode [0b11000110, 0b00000110, 0x06, 0x00, 0x2A] = .instr (.movRmImm (.direct 0x0006) (.imm8 0x2A)) 5 ∧
    decode [0b10110100, 0x12] = .instr (.movRImm .spAh (.imm8 0x12)) 2 ∧
    decode [0b10111100, 0x34, 0x12] = .instr (.movRImm .spAh (.imm16 0x1234)) 3 ∧
    decode [0b10100000, 0x00, 0x03] = .instr (.movAccAddr .byte 0x0300) 3 ∧
    decode [0b10100001, 0x00, 0x80] = .instr (.movAccAddr .word 0x8000) 3 ∧
    decode [0b10100010, 0x01, 0x03] = .instr (.movAddrAcc .byte 0x0301) 3 ∧
    decode [0b10100011, 0x00, 0x03] = .instr (.movAddrAcc .word 0x0300) 3 ∧
    decode [0b10001100, 0b11001011] = .instr (.movRm16Sreg (.reg .bxBl) .cs) 2 ∧
    decode [0b10001110, 0b11011000] = .instr (.movSregRm16 .ds (.reg .axAl)) 2) ∧
  (decode [0b00000001, 0b11001010] = .instr (.addRmR .word (.reg .dxDl) .cxCl) 2 ∧
    decode [0b00000010, 0b11100011] = .instr (.addRRm .byte .spAh (.reg .bxBl)) 2 ∧
    decode [0b10000000, 0b00000111, 0x7F] = .instr (.addRm8Imm8 (.ind .bx) 0x7F) 3 ∧
    decode [0b10000001, 0b00000111, 0x01, 0x02] = .instr (.addRm16Imm16 (.ind .bx) 0x0201) 4 ∧
    decode [0b10000011, 0b11000000, 0xFF] = .instr (.addRm16Simm8 (.reg .axAl) 0xFF) 3 ∧
    decode [0b00000100, 0xFF] = .instr (.addAccImm (.imm8 0xFF)) 2 ∧
    decode [0b00000101, 0x0A, 0x00] = .instr (.addAccImm (.imm16 0x000A)) 3) ∧
  (decode [0b00101000, 0b11101001] = .instr (.subRmR .byte (.reg .cxCl) .bpCh) 2 ∧
    decode [0b00101010, 0b11000111] = .instr (.subRRm .byte .axAl (.reg .diBh)) 2 ∧
    decode [0b10000000, 0b01101111, 0x02, 0x01] = .instr (.subRm8Imm8 (.disp8 .bx 0x02) 0x01) 4 ∧
    decode [0b10000001, 0b11101110, 0x10, 0x00] = .instr (.subRm16Imm16 (.reg .siDh) 0x0010) 4 ∧
    decode [0b10000011, 0b11101011, 0x01] = .instr (.subRm16Simm8 (.reg .bxBl) 0x01) 3 ∧
    decode [0b00101100, 0x80] = .instr (.subAccImm (.imm8 0x80)) 2 ∧
    decode [0b00101101, 0x0A, 0x00] = .instr (.subAccImm (.imm16 0x000A)) 3) ∧
  (decode [0b00111000, 0b01000111, 0xFF] = .instr (.cmpRmR .byte (.disp8 .bx 0xFF) .axAl) 3 ∧
    decode [0b00111010, 0b00000111] = .instr (.cmpRRm .byte .axAl (.ind .bx)) 2 ∧
    decode [0b10000000, 0b00111100, 0x00] = .instr (.cmpRm8Imm8 (.ind .si) 0x00) 3 ∧
    decode [0b10000001, 0b00111111, 0x00, 0x80] = .instr (.cmpRm16Imm16 (.ind .bx) 0x8000) 4 ∧
    decode [0b10000011, 0b11111010, 0x0F] = .instr (.cmpRm16Simm8 (.reg .dxDl) 0x0F) 3 ∧
    decode [0b00111100, 0x01] = .instr (.cmpAccImm (.imm8 0x01)) 2 ∧
    decode [0b00111101, 0x0A, 0x00] = .instr (.cmpAccImm (.imm16 0x000A)) 3) ∧
  (decode [0b01110101, 0xFA] = .instr (.jneRel8 0xFA) 2 ∧ decode [0b01110100, 0x05] = .instr (.jeRel8 0x05) 2 ∧
    decode [0b01110010, 0x02] = .instr (.jbRel8 0x02) 2 ∧ decode [0b01111010, 0x80] = .instr (.jpRel8 0x80) 2 ∧
    decode [0b11100010, 0xFB] = .instr (.loopRel8 0xFB) 2 ∧ decode [0b11100000, 0xFE] = .instr (.loopnzRel8 0xFE) 2) ∧
  [0b11000000, 0b11001000, 0b11010000, 0b11011000, 0b11100000, 0b11101000, 0b11110000, 0b11111000].map
      (fun b => decode [0b00000011, b]) =
    [.axAl, .cxCl, .dxDl, .bxBl, .spAh, .bpCh, .siDh, .diBh].map (fun c => .instr (.addRRm .word c (.reg .axAl)) 2) ∧
  [0b11000000, 0b11000001, 0b11000010, 0b11000011, 0b11000100, 0b11000101, 0b11000110, 0b11000111].map
      (fun b => decode [0b00101011, b]) =
    [.axAl, .cxCl, .dxDl, .bxBl, .spAh, .bpCh, .siDh, .diBh].map (fun c => .instr (.subRRm .word .axAl (.reg c)) 2) ∧
  [0b10110000, 0b10110001, 0b10110010, 0b10110011, 0b10110100, 0b10110101, 0b10110110, 0b10110111].map
      (fun b => decode [b, 0x12]) =
    [.axAl, .cxCl, .dxDl, .bxBl, .spAh, .bpCh, .siDh, .diBh].map (fun c => .instr (.movRImm c (.imm8 0x12)) 2) ∧
  [0b11000001, 0b11001001, 0b11010001, 0b11011001].map (fun b => (decode [0b10001100, b], decode [0b10001110, b])) =
    [SReg.es, .cs, .ss, .ds].map
      (fun sr => (.instr (.movRm16Sreg (.reg .cxCl) sr) 2, .instr (.movSregRm16 sr (.reg .cxCl)) 2)) ∧
  [0b00000000, 0b00000001, 0b00000010, 0b00000011, 0b00000100, 0b00000101, 0b00000111].map
      (fun b => decode [0b00111011, b]) =
    [.bxSi, .bxDi, .bpSi, .bpDi, .si, .di, .bx].map (fun b => .instr (.cmpRRm .word .axAl (.ind b)) 2) ∧
  decode [0b00111011, 0b00000110, 0x34, 0x12] = .instr (.cmpRRm .word .axAl (.direct 0x1234)) 4 ∧
  [0b01000000, 0b01000001, 0b01000010, 0b01000011, 0b01000100, 0b01000101, 0b01000110, 0b01000111].map
      (fun b => decode [0b00111011, b, 0x80]) =
    [.bxSi, .bxDi, .bpSi, .bpDi, .si, .di, .bp, .bx].map (fun b => .instr (.cmpRRm .word .axAl (.disp8 b 0x80)) 3) ∧
  [0b10000000, 0b10000001, 0b10000010, 0b10000011, 0b10000100, 0b10000101, 0b10000110, 0b10000111].map
      (fun b => decode [0b00111011, b, 0x34, 0x12]) =
    [.bxSi, .bxDi, .bpSi, .bpDi, .si, .di, .bp, .bx].map (fun b => .instr (.cmpRRm .word .axAl (.disp16 b 0x1234)) 4)

/-- A window is "not admitted" exactly when it has at least two bytes and its key matches no row (30_encoding.md R80,
R99); a window of fewer than two bytes is "no instruction" (R97, D29). -/
def Obligations.NotAdmittedExactlyWhenNoRowMatches : Prop :=
  (∀ window : List Byte, decode window = .notAdmitted ↔
    ∃ b0 b1 rest, window = b0 :: b1 :: rest ∧ ∀ r : Row, r.matchesKey (keyOf b0 b1) = false) ∧
  ∀ window : List Byte, window.length < 2 → decode window = .noInstruction

/-- A window shorter than the form its first bytes select is "no instruction": cutting a well-formed instruction
anywhere gives no instruction (30_encoding.md R97). -/
def Obligations.TruncatedInstructionIsNoInstruction : Prop :=
  ∀ (i : Instr) (n : Nat), i.wellFormed = true → n < (encode i).length →
    decode ((encode i).take n) = .noInstruction

/-- The records of the byte-encoded instructions keep the register contract (R214), and pass the shape checks of R117
except that, with `MEM_DEST_ARITH = false`, a memory left operand of ADD, SUB or CMP is an OperandTypeMismatch at
operands[0] (40_dispatch.md R117, 60_exceptions.md R214, R215, D16). -/
def Obligations.EncodedRecordsPassTheChecks : Prop :=
  ∀ (P : Config.Params) (i : Instr), registerViolation i.record.operands = none ∧
    ∃ check, shapeCheck P i.record.op = .ok check ∧
      ((∃ c, check i.record.operands = .ok c) ↔
        (P.memDestArith = true ∨ i.record.op ∉ [.add, .sub, .cmp] ∨
          ∀ terms disp w, i.record.operands.head? ≠ some (.mem terms disp w))) ∧
      ((∃ k, check i.record.operands = .error k) → check i.record.operands = .error (some 0))

/-! ### The step -/

/-- When the program has not ended and the bytes at `ip` decode to an instruction, one step is `exec` of it; `exec`
itself moves `ip` past the instruction's bytes before anything else (40_dispatch.md R111, R112, R114). -/
def Obligations.StepRunsTheDecodedInstruction : Prop :=
  ∀ (s : State) (i : Instr) (n : Nat), s.run = .running → s.ip.toNat < s.progLen →
    decode (s.mem.readBytes s.ip.toNat (s.progLen - s.ip.toNat)) = .instr i n →
    step s = exec i s ∧ exec i s = .next (dispatch Config.reference s.ip i.record (s.advance i.size))

/-- The machine's step, which decodes to an `Instr` and runs its arm, is the level-1 step of R114 with the reference
decoder and the reference parameters, on every state (40_dispatch.md R110, R114). -/
def Obligations.StepIsTheLevelOneStep : Prop :=
  ∀ s : State, step s = stepWith Config.reference referenceDecoder s

/-- HaltedClean is entered exactly when `unsigned(ip) >= prog_len` before a fetch, and nothing but `run` changes then
(40_dispatch.md R111, 70_reset_and_hazards.md R233). For any parameters and any decoder. -/
def Obligations.CleanHaltExactlyAtEndOfProgram : Prop :=
  ∀ (P : Config.Params) (D : Decoder) (s : State), s.run = .running →
    (s.progLen ≤ s.ip.toNat → stepWith P D s = .next { s with run := .haltedClean }) ∧
    (s.ip.toNat < s.progLen → ∀ t, stepWith P D s = .next t → t.run ≠ .haltedClean)

/-- A halted state has no step (40_dispatch.md R115): the step answers the fault `halted`, for any parameters and any
decoder. -/
def Obligations.HaltedStateHasNoStep : Prop :=
  ∀ (P : Config.Params) (D : Decoder) (s : State), s.run ≠ .running →
    stepWith P D s = .fault .halted ∧ step s = .fault .halted

/-- Every state a run reaches after it has halted is that halted state (40_dispatch.md R115, 10_state.md R31). -/
def Obligations.HaltedStatesAreFinal : Prop :=
  ∀ s t : State, s.run ≠ .running → Reaches s t → t = s

/-- "No instruction" halts with DecodeFailure at `ip`, and nothing but `run` changes (40_dispatch.md R112,
60_exceptions.md R213). The first clause is for any decoder, its broken contract included (30_encoding.md R70, D28); the
second is for the reference decoder. -/
def Obligations.DecodeFailureChangesOnlyTheRun : Prop :=
  (∀ (P : Config.Params) (D : Decoder) (s : State), s.run = .running → s.ip.toNat < s.progLen →
    (∀ rec n, D s.window = some (rec, n) → n < 1 ∨ s.progLen - s.ip.toNat < n ∨ rec.size ≠ n) →
    stepWith P D s = .next { s with run := .haltedError (.decodeFailure s.ip) }) ∧
  ∀ s : State, s.run = .running → s.ip.toNat < s.progLen → decode s.window = .noInstruction →
    step s = .next { s with run := .haltedError (.decodeFailure s.ip) }

/-- A window that matches no row halts the run, whatever `DECODE_CLASS` says: with DecodeFailure, or with
UnimplementedOpcode after an `ip` advance of 1 to `len(window)` bytes, and nothing else changes; it is never a silent
no-op (30_encoding.md R99, 60_exceptions.md R212). It holds for every value of the free `Config.decodeClass`
(log entry 3). -/
def Obligations.NotAdmittedWindowHalts : Prop :=
  ∀ s : State, s.run = .running → s.ip.toNat < s.progLen → decode s.window = .notAdmitted →
    step s = .next (s.raise (.decodeFailure s.ip)) ∨
    ∃ t n, 1 ≤ n ∧ n ≤ s.progLen - s.ip.toNat ∧
      step s = .next ((s.advance n).raise (.unimplementedOpcode s.ip t))

/-- Halts are precise: a step that enters an error halt changes no flag, no memory byte, no register but `ip`, and `ip`
only by the advance past the decoded instruction, not at all for DecodeFailure (60_exceptions.md R211, 40_dispatch.md
R116, D20). For any parameters and any decoder. -/
def Obligations.ErrorHaltsArePrecise : Prop :=
  ∀ (P : Config.Params) (D : Decoder) (s t : State) (r : HaltRecord),
    stepWith P D s = .next t → t.run = .haltedError r →
    t.flags = s.flags ∧ t.mem = s.mem ∧ t.progLen = s.progLen ∧
    (∀ x, x ≠ .ip → t.getWord x = s.getWord x) ∧
    (r.code = 1 → t.ip = s.ip) ∧
    (r.code ≠ 1 → ∃ rec n, D s.window = some (rec, n) ∧ rec.size = n ∧ 1 ≤ n ∧ n ≤ s.progLen - s.ip.toNat ∧
      t.ip = s.ip + BitVec.ofNat 16 n)

/-- The numeric codes of the outcomes (60_exceptions.md R210, D22). -/
def Obligations.OutcomeCodes : Prop :=
  RunState.running.code = none ∧ RunState.haltedClean.code = some 0 ∧
  ∀ (pos : Word) (t : String) (p : Option Nat) (k : Nat) (a : Int) (w : Width),
    (RunState.haltedError (.decodeFailure pos)).code = some 1 ∧
    (RunState.haltedError (.unimplementedOpcode pos t)).code = some 2 ∧
    (RunState.haltedError (.operandTypeMismatch pos p)).code = some 3 ∧
    (RunState.haltedError (.registerIndexViolation pos k)).code = some 4 ∧
    (RunState.haltedError (.addressOutOfRange pos a w)).code = some 5 ∧
    (RunState.haltedError (.branchTargetOutOfRange pos a)).code = some 6

/-! ### Reset, load and the invariant -/

/-- The state right after reset, with no image loaded: every register 0, every flag 0, every memory byte 0, `run =
Running`, and the invariant (10_state.md R35, 70_reset_and_hazards.md R230). That the image is the empty one, so that
`prog_len` is 0, is the model's choice (log entry 6). -/
def Obligations.ResetStateIsAllZeroAndInvariant : Prop :=
  (∀ x, State.reset.getWord x = 0) ∧
  State.reset.flags = { OF := false, DF := false, IF := false, TF := false, SF := false, ZF := false, AF := false,
                        PF := false, CF := false } ∧
  (∀ a, State.reset.mem.read a = 0) ∧ State.reset.progLen = 0 ∧ State.reset.run = .running ∧
  Inv Config.reference State.reset

/-- The state at the start of a run, after the image is loaded: registers and flags 0, the image at 0 .. L - 1 and zeros
after it, `prog_len = L`, Running; it satisfies the invariant. An image longer than `min(MEM_SIZE, 0xFFFF)` is refused
(10_state.md R35, 70_reset_and_hazards.md R231). -/
def Obligations.LoadGivesTheStartOfARun : Prop :=
  ∀ (P : Config.Params) (image : List Byte),
    (image.length ≤ min P.memSize 0xFFFF → ∃ s, loadWith P image = .next s ∧
      (∀ x, s.getWord x = 0) ∧ s.flags = Flags.reset ∧
      (∀ i (h : i < image.length), s.mem.read i = image[i]) ∧
      (∀ a, image.length ≤ a → s.mem.read a = 0) ∧
      s.progLen = image.length ∧ s.run = .running ∧ Inv P s) ∧
    (min P.memSize 0xFFFF < image.length → loadWith P image = .refused .imageTooLong)

/-- Every step keeps the invariant: memory stays in canonical form and inside the bank, the program length keeps its
bound, and DF, IF and TF stay 0 (10_state.md R27, R30, R32, 20_memory.md R58). For any parameters and any decoder, and
so for the machine's step. -/
def Obligations.EveryStepKeepsTheInvariant : Prop :=
  (∀ (P : Config.Params) (D : Decoder) (s t : State), Inv P s → stepWith P D s = .next t → Inv P t) ∧
  ∀ s t : State, Inv Config.reference s → step s = .next t → Inv Config.reference t

/-- DF, IF and TF are inert: no step writes them, so they keep their value, 0 at reset, for the whole run; and no step reads
them: a state that differs in them alone takes the same step to a state that differs in them alone (10_state.md R27). The
first two clauses are for any parameters and any decoder. -/
def Obligations.InertFlagsAreNeitherWrittenNorRead : Prop :=
  (∀ (P : Config.Params) (D : Decoder) (s t : State), stepWith P D s = .next t → SameInert s t) ∧
  (∀ (P : Config.Params) (D : Decoder) (s : State) (df ifl tf : Bool),
    let twin := fun u : State => u.setFlags { u.flags with DF := df, IF := ifl, TF := tf }
    (∀ t, stepWith P D s = .next t → stepWith P D (twin s) = .next (twin t)) ∧
    (∀ r, stepWith P D s = .fault r → stepWith P D (twin s) = .fault r)) ∧
  (∀ s t : State, Reaches s t → SameInert s t) ∧
  State.reset.flags.DF = false ∧ State.reset.flags.IF = false ∧ State.reset.flags.TF = false

/-- No step writes `prog_len`: a store at or past it does not lengthen the program, for any parameters and any decoder, and
so it is the same in every state a run reaches (10_state.md R32). -/
def Obligations.NoStepWritesTheProgramLength : Prop :=
  (∀ (P : Config.Params) (D : Decoder) (s t : State), stepWith P D s = .next t → t.progLen = s.progLen) ∧
  ∀ s t : State, Reaches s t → t.progLen = s.progLen

/-! ### Registers and memory -/

/-- Word access to any of the 13 registers: what is written is read, no other register changes, and writing the full word
overwrites both halves (10_state.md R22). -/
def Obligations.WordAccessOfRegisters : Prop :=
  ∀ (r : Regs) (x : Reg) (v : Word), (r.setWord x v).getWord x = v ∧
    (∀ y, y ≠ x → (r.setWord x v).getWord y = r.getWord y) ∧
    ∀ h : HalfReg, x = .gen h.gen →
      (r.setWord x v).getByte h .low = v.extractLsb' 0 8 ∧ (r.setWord x v).getByte h .high = v.extractLsb' 8 8

/-- The aliasing law: after a byte write to one half, the other half reads as before, the word is the two halves
together, and no other register changes (10_state.md R24). -/
def Obligations.ByteHalvesAliasTheWord : Prop :=
  ∀ (r : Regs) (h : HalfReg) (v : Byte),
    ((r.setByte h .low v).getByte h .low = v ∧ (r.setByte h .low v).getByte h .high = r.getByte h .high ∧
      (r.setByte h .low v).getWord (.gen h.gen) = r.getByte h .high ++ v) ∧
    ((r.setByte h .high v).getByte h .high = v ∧ (r.setByte h .high v).getByte h .low = r.getByte h .low ∧
      (r.setByte h .high v).getWord (.gen h.gen) = v ++ r.getByte h .low) ∧
    ∀ k y, y ≠ .gen h.gen → (r.setByte h k v).getWord y = r.getWord y

/-- Memory after a write of one or two bytes: little-endian, read back at either width, mixed widths see the bytes
named, and no other byte changes (20_memory.md R52, R53, R54). In canonical form, which every step keeps. -/
def Obligations.MemoryIsLittleEndian : Prop :=
  ∀ (m : Memory) (a : Nat) (b : Byte) (v : Word), m.wf →
    ((m.writeW a .byte b).readW a .byte = b ∧ ∀ a', a' ≠ a → (m.writeW a .byte b).read a' = m.read a') ∧
    ((m.writeW a .word v).readW a .word = v ∧
      (m.writeW a .word v).readW a .byte = v.extractLsb' 0 8 ∧
      (m.writeW a .word v).readW (a + 1) .byte = v.extractLsb' 8 8 ∧
      loByte ((m.writeW a .word v).readW (a + 1) .word) = v.extractLsb' 8 8 ∧
      ∀ a', a' ≠ a → a' ≠ a + 1 → (m.writeW a .word v).read a' = m.read a')

/-- The canonical form is canonical: two memories in it that read the same at every address are the same data. It is the
model's representation of the bank of 10_state.md R30 (log entry 7). -/
def Obligations.CanonicalMemoriesAreEqualWhenTheyReadTheSame : Prop :=
  ∀ m m' : Memory, m.wf → m'.wf → (∀ a, m.read a = m'.read a) → m = m'

/-- A fetch reads the bytes in memory at the moment of the step: byte k of the window is the byte at `ip + k`, and a
byte stored inside the program, ahead of `ip`, is in the window (20_memory.md R63, 70_reset_and_hazards.md R241). -/
def Obligations.FetchSeesEarlierStores : Prop :=
  ∀ (s : State), s.window.length = s.progLen - s.ip.toNat ∧
    (∀ k, k < s.progLen - s.ip.toNat → s.window[k]? = some (s.mem.read (s.ip.toNat + k))) ∧
    ∀ (k : Nat) (b : Byte), s.mem.wf → k < s.progLen - s.ip.toNat →
      (s.setMem (s.mem.write (s.ip.toNat + k) b)).window = s.window.set k b

/-! ### Flags -/

/-- The flags common to ADD, SUB and CMP, of the result `r` truncated to the width: ZF says that `r` is 0, SF is its
high-order bit (bit 7 or bit 15), and PF says that its low byte has an even number of set bits, the high byte of a word not
counting (42_flags.md R150, R151, R152). -/
def Obligations.ZeroSignAndParityOfAResult : Prop :=
  ∀ (w : Width) (a b r : BitVec w.bits) (f g : Flags),
    (r = a + b ∧ g = addFlags a b f) ∨ (r = a - b ∧ g = subFlags a b f) →
    (g.ZF = true ↔ r.toNat = 0) ∧ g.SF = r.getLsbD (w.bits - 1) ∧
    (g.PF = true ↔ Even ((Finset.range 8).filter fun i => r.getLsbD i = true).card)

/-- CF of an addition is the unsigned overflow out of the high-order bit; CF and AF of a subtraction are the unsigned borrow
and the low-nibble borrow (42_flags.md R153, R157, R158). -/
def Obligations.CarryAndBorrow : Prop :=
  ∀ (w : Width) (a b : BitVec w.bits) (f : Flags),
    ((addFlags a b f).CF = true ↔ 2 ^ w.bits ≤ a.toNat + b.toNat) ∧
    ((subFlags a b f).CF = true ↔ a.toNat < b.toNat) ∧
    ((subFlags a b f).AF = true ↔ a.toNat % 16 < b.toNat % 16)

/-- AF of an addition is the carry out of bit 3; OF of an addition and of a subtraction is the masked formula of the rule,
and says that the signed result lies outside the width. The second forms are the spec's own inferences, which it marks
"derived" (42_flags.md R154, R155, R159). -/
def Obligations.AuxiliaryCarryAndOverflow : Prop :=
  ∀ (w : Width) (a b : BitVec w.bits) (f : Flags),
    ((addFlags a b f).AF = true ↔ 0x10 ≤ a.toNat % 16 + b.toNat % 16) ∧
    ((addFlags a b f).AF = true ↔ (a ^^^ b ^^^ (a + b)) &&& 0x10 ≠ 0) ∧
    ((addFlags a b f).OF = true ↔ ~~~(a ^^^ b) &&& ((a + b) ^^^ a) &&& hib w ≠ 0) ∧
    ((addFlags a b f).OF = true ↔
      ¬(-2 ^ (w.bits - 1) ≤ a.toInt + b.toInt ∧ a.toInt + b.toInt ≤ 2 ^ (w.bits - 1) - 1)) ∧
    ((subFlags a b f).OF = true ↔ (a ^^^ b) &&& (a ^^^ (a - b)) &&& hib w ≠ 0) ∧
    ((subFlags a b f).OF = true ↔
      ¬(-2 ^ (w.bits - 1) ≤ a.toInt - b.toInt ∧ a.toInt - b.toInt ≤ 2 ^ (w.bits - 1) - 1))

/-- The laws of 42_flags.md R161, which the spec derives from R156 and R160: a value minus itself; CF and ZF after a
subtraction are unsigned less-than and equality, so JB and JE after it are; adding 0; and parity reads the low byte
only. -/
def Obligations.FlagLaws : Prop :=
  (∀ (w : Width) (a : BitVec w.bits) (f : Flags), a - a = 0 ∧
    (subFlags a a f).ZF = true ∧ (subFlags a a f).CF = false ∧ (subFlags a a f).SF = false ∧
    (subFlags a a f).OF = false ∧ (subFlags a a f).AF = false ∧ (subFlags a a f).PF = true) ∧
  (∀ (w : Width) (a b : BitVec w.bits) (f : Flags),
    ((subFlags a b f).CF = true ↔ a.toNat < b.toNat) ∧ ((subFlags a b f).ZF = true ↔ a = b) ∧
    ((subFlags a b f).holds .b = true ↔ a.toNat < b.toNat) ∧ ((subFlags a b f).holds .e = true ↔ a = b)) ∧
  (∀ (w : Width) (a : BitVec w.bits) (f : Flags), a + 0 = a ∧
    (addFlags a 0 f).CF = false ∧ (addFlags a 0 f).AF = false ∧ (addFlags a 0 f).OF = false) ∧
  parityFlag (w := .word) 0x0100 = true ∧ parityFlag (w := .word) 0x0001 = false

/-! ### Operands -/

/-- An immediate source supplies its whole value at width 2 and `value[7:0]` at width 1, so that two immediates with the
same low byte are the same source at width 1 (41_operands_ea.md R131). -/
def Obligations.ImmediateSources : Prop :=
  ∀ (s : State) (v v' : Word),
    Source.read s (.imm v : Source .word) = v ∧ Source.read s (.imm v : Source .byte) = v.extractLsb' 0 8 ∧
    (v.extractLsb' 0 8 = v'.extractLsb' 0 8 →
      Source.read s (.imm v : Source .byte) = Source.read s (.imm v' : Source .byte))

/-- Every operand form an encoding names, as the place it is: the sixteen cells of the register table of R84; memory forms by
R86 and R87 with the effective address the exact sum of R136, and the address stays in [-32768, 0x27FFD]; so with 1 MiB of
memory only a negative address can leave the bank (30_encoding.md R84, R86, R87, 41_operands_ea.md R136, 20_memory.md
R58). -/
def Obligations.EffectiveAddressesOfEncodedOperands : Prop :=
  ([RegCode.axAl, .cxCl, .dxDl, .bxBl, .spAh, .bpCh, .siDh, .diBh].map (fun c => regPlace c .byte) =
    [.half .ax .low, .half .cx .low, .half .dx .low, .half .bx .low,
     .half .ax .high, .half .cx .high, .half .dx .high, .half .bx .high] ∧
   [RegCode.axAl, .cxCl, .dxDl, .bxBl, .spAh, .bpCh, .siDh, .diBh].map (fun c => regPlace c .word) =
    [.gen .ax, .gen .cx, .gen .dx, .gen .bx, .gen .sp, .gen .bp, .gen .si, .gen .di] ∧
   (∀ c w, rmPlace (.reg c) w = regPlace c w) ∧ ∀ w, accPlace w = regPlace .axAl w) ∧
  ∀ (r : Regs) (w : Width) (b : Base) (d8 : Byte) (d16 addr : Word),
    let base : Int := match b with
      | .bxSi => r.bx.toNat + r.si.toNat
      | .bxDi => r.bx.toNat + r.di.toNat
      | .bpSi => r.bp.toNat + r.si.toNat
      | .bpDi => r.bp.toNat + r.di.toNat
      | .si => r.si.toNat
      | .di => r.di.toNat
      | .bp => r.bp.toNat
      | .bx => r.bx.toNat
    Place.ea? r (rmPlace (.ind b) w) = some base ∧
    Place.ea? r (rmPlace (.disp8 b d8) w) = some (base + d8.toInt) ∧
    Place.ea? r (rmPlace (.disp16 b d16) w) = some (base + d16.toInt) ∧
    Place.ea? r (rmPlace (.direct addr) w) = some (addr.toNat : Int) ∧
    ∀ (rm : RM) (a : Int), Place.ea? r (rmPlace rm w) = some a →
      -32768 ≤ a ∧ a ≤ 0x27FFD ∧ (Place.inBank Config.reference r (rmPlace rm w) = false ↔ a < 0)

/-- Reading a place after writing it gives the value written: every destination form, both widths (41_operands_ea.md R130,
R133). A memory place lies in the bank, and keeps its address, since a store changes no register. Memory is in canonical
form. -/
def Obligations.PlaceReadsBackWhatWasWritten : Prop :=
  ∀ (P : Config.Params) (w : Width) (s : State) (p : Place w) (v : BitVec w.bits), s.mem.wf →
    Place.inBank P s.regs p = true →
    Place.read (Place.write s p v) p = v ∧ SameOutside p s (Place.write s p v) ∧
    (Place.write s p v).ip = s.ip ∧ (Place.write s p v).flags = s.flags ∧ (Place.write s p v).run = s.run

/-! ### MOV, ADD, SUB, CMP: results -/

/-- The instruction `i`, with a destination and a source at width `w`, completes as MOV: for every state in which both
operands lie in the memory bank it goes to the next state in which the destination has been given the source's value and
`ip` the address of the next instruction, and nothing else has been written. -/
def Moves (i : Instr) (w : Width) (dst : Place w) (src : Source w) : Prop :=
  ∀ s : State, Place.inBank Config.reference s.regs dst = true → Source.inBank Config.reference s.regs src = true →
    exec i s = .next (Place.write (s.advance (encode i).length) dst (Source.read s src))

/-- MOV, all eight rows: read the source, write the destination at its width, no flag (43_move.md R170, R171). -/
def Obligations.MovCopiesSourceToDestination : Prop :=
  (∀ w rm reg, Moves (.movRmR w rm reg) w (rmPlace rm w) (.place (regPlace reg w))) ∧
  (∀ w reg rm, Moves (.movRRm w reg rm) w (regPlace reg w) (.place (rmPlace rm w))) ∧
  (∀ rm v, Moves (.movRmImm rm (.imm8 v)) .byte (rmPlace rm .byte) (.imm (v.setWidth 16))) ∧
  (∀ rm v, Moves (.movRmImm rm (.imm16 v)) .word (rmPlace rm .word) (.imm v)) ∧
  (∀ reg v, Moves (.movRImm reg (.imm8 v)) .byte (regPlace reg .byte) (.imm (v.setWidth 16))) ∧
  (∀ reg v, Moves (.movRImm reg (.imm16 v)) .word (regPlace reg .word) (.imm v)) ∧
  (∀ w addr, Moves (.movAccAddr w addr) w (accPlace w) (.place (.mem [] addr.toNat))) ∧
  (∀ w addr, Moves (.movAddrAcc w addr) w (.mem [] addr.toNat) (.place (accPlace w))) ∧
  (∀ rm sr, Moves (.movRm16Sreg rm sr) .word (rmPlace rm .word) (.place (.seg sr))) ∧
  (∀ sr rm, Moves (.movSregRm16 sr rm) .word (.seg sr) (.place (rmPlace rm .word)))

/-- The instruction `i` completes as an arithmetic operation with the result `op a b` written to the destination and the
flags `fl a b`, where `a` and `b` are the operands' values before it. -/
def Computes (op : {w : Width} → BitVec w.bits → BitVec w.bits → BitVec w.bits)
    (fl : {w : Width} → BitVec w.bits → BitVec w.bits → Flags → Flags)
    (i : Instr) (w : Width) (dst : Place w) (src : Source w) : Prop :=
  ∀ s : State, Place.inBank Config.reference s.regs dst = true → Source.inBank Config.reference s.regs src = true →
    exec i s = .next ((Place.write (s.advance (encode i).length) dst
      (op (Place.read s dst) (Source.read s src))).setFlags (fl (Place.read s dst) (Source.read s src) s.flags))

/-- ADD, all six rows: `(left + right) mod 2^(8w)` to the destination, and the flags of AddFlags (44_arith.md R180,
42_flags.md R156). The 83 form adds its immediate sign-extended. -/
def Obligations.AddWritesSumAndFlags : Prop :=
  let Adds := Computes (fun a b => a + b) addFlags
  (∀ w rm reg, Adds (.addRmR w rm reg) w (rmPlace rm w) (.place (regPlace reg w))) ∧
  (∀ w reg rm, Adds (.addRRm w reg rm) w (regPlace reg w) (.place (rmPlace rm w))) ∧
  (∀ rm v, Adds (.addRm8Imm8 rm v) .byte (rmPlace rm .byte) (.imm (v.setWidth 16))) ∧
  (∀ rm v, Adds (.addRm16Imm16 rm v) .word (rmPlace rm .word) (.imm v)) ∧
  (∀ rm v, Adds (.addRm16Simm8 rm v) .word (rmPlace rm .word) (.imm (v.signExtend 16))) ∧
  (∀ v, Adds (.addAccImm (.imm8 v)) .byte (accPlace .byte) (.imm (v.setWidth 16))) ∧
  (∀ v, Adds (.addAccImm (.imm16 v)) .word (accPlace .word) (.imm v))

/-- SUB, all six rows: `(left - right) mod 2^(8w)` to the destination, and the flags of SubFlags (44_arith.md R181,
42_flags.md R160). -/
def Obligations.SubWritesDifferenceAndFlags : Prop :=
  let Subs := Computes (fun a b => a - b) subFlags
  (∀ w rm reg, Subs (.subRmR w rm reg) w (rmPlace rm w) (.place (regPlace reg w))) ∧
  (∀ w reg rm, Subs (.subRRm w reg rm) w (regPlace reg w) (.place (rmPlace rm w))) ∧
  (∀ rm v, Subs (.subRm8Imm8 rm v) .byte (rmPlace rm .byte) (.imm (v.setWidth 16))) ∧
  (∀ rm v, Subs (.subRm16Imm16 rm v) .word (rmPlace rm .word) (.imm v)) ∧
  (∀ rm v, Subs (.subRm16Simm8 rm v) .word (rmPlace rm .word) (.imm (v.signExtend 16))) ∧
  (∀ v, Subs (.subAccImm (.imm8 v)) .byte (accPlace .byte) (.imm (v.setWidth 16))) ∧
  (∀ v, Subs (.subAccImm (.imm16 v)) .word (accPlace .word) (.imm v))

/-- The instruction `i` completes as CMP: the flags of SubFlags, and `ip` at the next instruction; no register and no
memory byte is written. -/
def Compares (i : Instr) (w : Width) (dst : Place w) (src : Source w) : Prop :=
  ∀ s : State, Place.inBank Config.reference s.regs dst = true → Source.inBank Config.reference s.regs src = true →
    exec i s = .next ((s.advance (encode i).length).setFlags
      (subFlags (Place.read s dst) (Source.read s src) s.flags))

/-- CMP, all six rows (44_arith.md R182, 42_flags.md R160). -/
def Obligations.CmpSetsFlagsOnly : Prop :=
  (∀ w rm reg, Compares (.cmpRmR w rm reg) w (rmPlace rm w) (.place (regPlace reg w))) ∧
  (∀ w reg rm, Compares (.cmpRRm w reg rm) w (regPlace reg w) (.place (rmPlace rm w))) ∧
  (∀ rm v, Compares (.cmpRm8Imm8 rm v) .byte (rmPlace rm .byte) (.imm (v.setWidth 16))) ∧
  (∀ rm v, Compares (.cmpRm16Imm16 rm v) .word (rmPlace rm .word) (.imm v)) ∧
  (∀ rm v, Compares (.cmpRm16Simm8 rm v) .word (rmPlace rm .word) (.imm (v.signExtend 16))) ∧
  (∀ v, Compares (.cmpAccImm (.imm8 v)) .byte (accPlace .byte) (.imm (v.setWidth 16))) ∧
  (∀ v, Compares (.cmpAccImm (.imm16 v)) .word (accPlace .word) (.imm v))

/-- The SUB row with the operands of a CMP row. -/
def subTwin : Instr → Option Instr
  | .cmpRmR w rm reg => some (.subRmR w rm reg)
  | .cmpRRm w reg rm => some (.subRRm w reg rm)
  | .cmpRm8Imm8 rm v => some (.subRm8Imm8 rm v)
  | .cmpRm16Imm16 rm v => some (.subRm16Imm16 rm v)
  | .cmpRm16Simm8 rm v => some (.subRm16Simm8 rm v)
  | .cmpAccImm v => some (.subAccImm v)
  | _ => none

/-- "compare produces identical flags to subtract but leaves the destination register unmodified" (44_arith.md R182): in
every state, CMP and SUB with the same operands end with the same flags, the same `ip` and the same run state, and CMP
leaves every other register and memory as they were. -/
def Obligations.CmpAndSubAgreeOnFlags : Prop :=
  ∀ (i j : Instr) (s : State), subTwin i = some j →
    ∃ t u, exec i s = .next t ∧ exec j s = .next u ∧ t.flags = u.flags ∧ t.ip = u.ip ∧ t.run = u.run ∧
      t.mem = s.mem ∧ ∀ x, x ≠ .ip → t.getWord x = s.getWord x

/-! ### MOV, ADD, SUB, CMP: where they halt, and their frames -/

/-- The destination (or left operand) and the source of each MOV, ADD, SUB and CMP row, as places (30_encoding.md R89 to
R95). -/
def dataOperands : Instr → Option ((w : Width) × Place w × Source w)
  | .movRmR w rm reg | .addRmR w rm reg | .subRmR w rm reg | .cmpRmR w rm reg =>
    some ⟨w, rmPlace rm w, .place (regPlace reg w)⟩
  | .movRRm w reg rm | .addRRm w reg rm | .subRRm w reg rm | .cmpRRm w reg rm =>
    some ⟨w, regPlace reg w, .place (rmPlace rm w)⟩
  | .movRmImm rm v => some ⟨v.width, rmPlace rm v.width, .imm v.value⟩
  | .movRImm reg v => some ⟨v.width, regPlace reg v.width, .imm v.value⟩
  | .movAccAddr w addr => some ⟨w, accPlace w, .place (.mem [] addr.toNat)⟩
  | .movAddrAcc w addr => some ⟨w, .mem [] addr.toNat, .place (accPlace w)⟩
  | .movRm16Sreg rm sr => some ⟨.word, rmPlace rm .word, .place (.seg sr)⟩
  | .movSregRm16 sr rm => some ⟨.word, .seg sr, .place (rmPlace rm .word)⟩
  | .addRm8Imm8 rm v | .subRm8Imm8 rm v | .cmpRm8Imm8 rm v => some ⟨.byte, rmPlace rm .byte, .imm (v.setWidth 16)⟩
  | .addRm16Imm16 rm v | .subRm16Imm16 rm v | .cmpRm16Imm16 rm v => some ⟨.word, rmPlace rm .word, .imm v⟩
  | .addRm16Simm8 rm v | .subRm16Simm8 rm v | .cmpRm16Simm8 rm v =>
    some ⟨.word, rmPlace rm .word, .imm (v.signExtend 16)⟩
  | .addAccImm v | .subAccImm v | .cmpAccImm v => some ⟨v.width, accPlace v.width, .imm v.value⟩
  | .jneRel8 _ | .jeRel8 _ | .jbRel8 _ | .jpRel8 _ | .loopRel8 _ | .loopnzRel8 _ => none

/-- An access of an encoded instruction outside the 1 MiB bank halts with AddressOutOfRange, and nothing but `ip` and `run`
changes: all MOV, ADD, SUB and CMP rows, the left operand of CMP included (20_memory.md R58, 60_exceptions.md R216). The
same for every record and every bank, with its upper edge, is RecordAccessHaltsExactlyOutsideTheBank, and the order of two
bad addresses is in RecordHaltsInOrder. -/
def Obligations.AccessOutsideTheBankHalts : Prop :=
  ∀ (i : Instr) (w : Width) (dst : Place w) (src : Source w) (s : State),
    dataOperands i = some ⟨w, dst, src⟩ →
    (∀ a, Place.ea? s.regs dst = some a → ¬(0 ≤ a ∧ a + w.bytes ≤ 0x100000) →
      exec i s = .next ((s.advance (encode i).length).raise (.addressOutOfRange s.ip a w))) ∧
    (Place.inBank Config.reference s.regs dst = true →
      ∀ a, Source.ea? s.regs src = some a → ¬(0 ≤ a ∧ a + w.bytes ≤ 0x100000) →
      exec i s = .next ((s.advance (encode i).length).raise (.addressOutOfRange s.ip a w)))

/-- Whether an instruction is one of the MOV rows. -/
def isMov (i : Instr) : Bool := i.record.op == .mov

/-- Whether an instruction is one of the ADD or SUB rows. -/
def isAddOrSub (i : Instr) : Bool := i.record.op == .add || i.record.op == .sub

/-- Whether an instruction is one of the CMP rows. -/
def isCmp (i : Instr) : Bool := i.record.op == .cmp

/-- The frame of the MOV rows: every flag, every register but the destination and `ip`, the other half of a byte
destination's register, every byte of memory outside a memory destination (at the effective address of R136) and the
program length are unchanged; the run goes on or halts with AddressOutOfRange (43_move.md R170, R171, 10_state.md R23). -/
def Obligations.MovFrame : Prop :=
  ∀ (i : Instr) (w : Width) (dst : Place w) (src : Source w) (s t : State), isMov i = true →
    dataOperands i = some ⟨w, dst, src⟩ → exec i s = .next t →
    SameOutside dst s t ∧ t.flags = s.flags ∧ RunsOr isAddressHalt s t

/-- The frame of the ADD and SUB rows: every register but the destination and `ip`, the other half of a byte destination's
register, every byte of memory outside a memory destination, DF, IF, TF and the program length are unchanged; the run
goes on or halts with AddressOutOfRange (44_arith.md R180, R181, 10_state.md R27). -/
def Obligations.AddSubFrame : Prop :=
  ∀ (i : Instr) (w : Width) (dst : Place w) (src : Source w) (s t : State), isAddOrSub i = true →
    dataOperands i = some ⟨w, dst, src⟩ → exec i s = .next t →
    SameOutside dst s t ∧ SameInert s t ∧ RunsOr isAddressHalt s t

/-- The frame of the CMP rows: every register but `ip`, every byte of memory, DF, IF, TF and the program length are
unchanged; the run goes on or halts with AddressOutOfRange (44_arith.md R182). -/
def Obligations.CmpFrame : Prop :=
  ∀ (i : Instr) (s t : State), isCmp i = true → exec i s = .next t →
    SameButFlags s t ∧ SameInert s t ∧ RunsOr isAddressHalt s t

/-! ### Jumps and loops -/

/-- The condition of each conditional jump, and its displacement (45_branch.md R193 to R196). -/
def jumpOf : Instr → Option ((Flags → Bool) × Byte)
  | .jneRel8 d => some (fun f => f.ZF == false, d)
  | .jeRel8 d => some (fun f => f.ZF == true, d)
  | .jbRel8 d => some (fun f => f.CF == true, d)
  | .jpRel8 d => some (fun f => f.PF == true, d)
  | _ => none

/-- The conditional jumps. Not taken: `ip` is the address after the instruction. Taken: `ip` is that address plus the
signed displacement, as an exact integer, where that lies in 0 .. 0xFFFF; elsewhere BranchTargetOutOfRange. Nothing else
changes (45_branch.md R190 to R196). -/
def Obligations.ConditionalJumps : Prop :=
  ∀ (i : Instr) (cond : Flags → Bool) (d : Byte) (s : State), jumpOf i = some (cond, d) →
    let after := s.advance 2
    let target : Int := after.ip.toNat + d.toInt
    (cond s.flags = false → exec i s = .next after) ∧
    (cond s.flags = true → 0 ≤ target → target ≤ 0xFFFF →
      exec i s = .next (after.setIp (BitVec.ofInt 16 target)) ∧ ((BitVec.ofInt 16 target).toNat : Int) = target) ∧
    (cond s.flags = true → target < 0 ∨ 0xFFFF < target →
      exec i s = .next (after.raise (.branchTargetOutOfRange s.ip target)))

/-- LOOP and LOOPNZ. CX is decremented modulo 2^16 first. Not taken (the counter is then 0, or for LOOPNZ ZF = 1): `ip` is
the address after the instruction. Taken: `ip` is the target where it lies in 0 .. 0xFFFF; elsewhere
BranchTargetOutOfRange, with CX not written. No flag and nothing else changes (45_branch.md R190, R197 to R199). -/
def Obligations.Loops : Prop :=
  ∀ (d : Byte) (s : State),
    let after := s.advance 2
    let target : Int := after.ip.toNat + d.toInt
    let c := s.regs.cx - 1
    (c = 0 → exec (.loopRel8 d) s = .next (after.setCx c)) ∧
    (c ≠ 0 → 0 ≤ target → target ≤ 0xFFFF →
      exec (.loopRel8 d) s = .next ((after.setCx c).setIp (BitVec.ofInt 16 target))) ∧
    (c ≠ 0 → target < 0 ∨ 0xFFFF < target →
      exec (.loopRel8 d) s = .next (after.raise (.branchTargetOutOfRange s.ip target))) ∧
    (c = 0 ∨ s.flags.ZF = true → exec (.loopnzRel8 d) s = .next (after.setCx c)) ∧
    (c ≠ 0 → s.flags.ZF = false → 0 ≤ target → target ≤ 0xFFFF →
      exec (.loopnzRel8 d) s = .next ((after.setCx c).setIp (BitVec.ofInt 16 target))) ∧
    (c ≠ 0 → s.flags.ZF = false → target < 0 ∨ 0xFFFF < target →
      exec (.loopnzRel8 d) s = .next (after.raise (.branchTargetOutOfRange s.ip target)))

/-- The frame of the jumps and loops: no flag, no memory byte, no register but `ip` (and CX, for a loop), and not the
program length changes; the run goes on or halts with BranchTargetOutOfRange (45_branch.md R192, R197). -/
def Obligations.JumpAndLoopFrame : Prop :=
  ∀ (i : Instr) (s t : State), exec i s = .next t →
    ((jumpOf i).isSome = true → t.flags = s.flags ∧ SameButFlags s t ∧ RunsOr isBranchHalt s t) ∧
    (∀ d, i = .loopRel8 d ∨ i = .loopnzRel8 d →
      t.flags = s.flags ∧ t.mem = s.mem ∧ t.progLen = s.progLen ∧ RunsOr isBranchHalt s t ∧
      ∀ x, x ≠ .ip → x ≠ .gen .cx → t.getWord x = s.getWord x)

/-- One round of a loop: a body, then the loop instruction at the address `ip` then holds. -/
def loopRound (i : Instr) (body : State → State) (s : State) : State :=
  match exec i (body s) with
  | .next t => t
  | .fault _ => s
  | .refused _ => s

/-- The loop-count law of a loop that targets itself (rel8 = 0xFE), with a body that leaves `ip` alone: with CX = n at loop
entry, 1 <= n, and a body that writes neither CX nor `ip` (and, for LOOPNZ, leaves ZF = 0), it is taken on the first n - 1
rounds and falls through on the n-th, with CX = 0 (45_branch.md R200, which the spec derives from R198 and R199). The
instruction lies where its two bytes end inside 0 .. 0xFFFF. A loop around a body of instructions is
LoopRunsItsBodyNTimes. -/
def Obligations.LoopCountLaw : Prop :=
  ∀ (i : Instr) (body : State → State) (s : State) (n : Nat),
    i = .loopRel8 0xFE ∨ (i = .loopnzRel8 0xFE ∧ ∀ u, (body u).flags.ZF = false) →
    (∀ u, (body u).cx = u.cx ∧ (body u).ip = u.ip) → s.cx.toNat = n → 1 ≤ n → s.ip.toNat + 2 ≤ 0xFFFF →
    (∀ k, k < n → ((loopRound i body)^[k] s).cx.toNat = n - k ∧ ((loopRound i body)^[k] s).ip = s.ip) ∧
    ((loopRound i body)^[n] s).cx = 0 ∧ ((loopRound i body)^[n] s).ip = s.ip + 2

/-- The loop-count law around a body: with CX = n at loop entry, 1 <= n, and a body that on each round goes from the loop's
start `top` to the loop instruction at `bottom`, does not write CX and, for LOOPNZ, leaves ZF = 0 there, where the
displacement leads from the loop instruction back to `top`: the loop is taken on the first n - 1 rounds and falls through on
the n-th, with CX = 0, so the body runs n times (45_branch.md R200, which the spec derives from R198 and R199). The body is
any function of the state, so any instructions; its conditions are asked of the n rounds alone. -/
def Obligations.LoopRunsItsBodyNTimes : Prop :=
  ∀ (i : Instr) (body : State → State) (s : State) (n : Nat) (d : Byte) (top bottom : Word),
    let round := fun k => (loopRound i body)^[k] s
    i = .loopRel8 d ∨ (i = .loopnzRel8 d ∧ ∀ k, k < n → (body (round k)).flags.ZF = false) →
    (∀ k, k < n → (body (round k)).cx = (round k).cx ∧ (body (round k)).ip = bottom) →
    bottom.toNat + 2 ≤ 0xFFFF → (bottom.toNat : Int) + 2 + d.toInt = top.toNat →
    s.ip = top → s.cx.toNat = n → 1 ≤ n →
    (∀ k, k < n → (round k).cx.toNat = n - k ∧ (round k).ip = top) ∧
    (round n).cx = 0 ∧ (round n).ip = bottom + 2

/-- The rel8 an assembler writes for a target takes a conditional jump there (30_encoding.md R100, 45_branch.md R190). -/
def Obligations.AssembledJumpReachesItsTarget : Prop :=
  ∀ (i : Instr) (cond : Flags → Bool) (d : Byte) (s : State) (target : Nat), jumpOf i = some (cond, d) →
    Asm.rel8 s.ip.toNat target = some d → target ≤ 0xFFFF → s.ip.toNat + 2 ≤ 0xFFFF → cond s.flags = true →
    ∃ t, exec i s = .next t ∧ t.ip.toNat = target ∧ t.run = s.run

/-! ### Whole-machine rules -/

/-- The flags are written by ADD, SUB and CMP and by nothing else, and those write all six status flags, reading none:
the six after an ADD, SUB or CMP that does not halt do not depend on the flags before (10_state.md R26, 42_flags.md R156,
R160). -/
def Obligations.OnlyArithmeticWritesFlags : Prop :=
  (∀ (i : Instr) (s t : State), exec i s = .next t → isAddOrSub i = false → isCmp i = false → t.flags = s.flags) ∧
  ∀ (i : Instr) (s t u : State) (f : Flags), isAddOrSub i = true ∨ isCmp i = true → s.run = .running →
    exec i s = .next t → t.run = .running → exec i (s.setFlags f) = .next u →
    u.regs = t.regs ∧ u.mem = t.mem ∧ u.run = t.run ∧ u.flags = { t.flags with DF := f.DF, IF := f.IF, TF := f.TF }

/-- Memory is written only by the rows with a memory destination among MOV, ADD and SUB: CMP, the jumps and loops, the
loads and every register destination leave all of it unchanged (20_memory.md R51). -/
def Obligations.OnlyMemoryDestinationsWriteMemory : Prop :=
  ∀ (i : Instr) (s t : State), exec i s = .next t → t.mem ≠ s.mem →
    (isMov i = true ∨ isAddOrSub i = true) ∧
    ∃ w dst src a, dataOperands i = some ⟨w, dst, src⟩ ∧ Place.ea? s.regs dst = some a ∧ 0 ≤ a ∧
      a + w.bytes ≤ 0x100000

/-- Whether an instruction is `MOV r/m16, sreg`, the one row that reads a segment register. -/
def readsSegment : Instr → Bool
  | .movRm16Sreg _ _ => true
  | _ => false

/-- Two states that differ at most in the segment registers. -/
def SameButSegments (s t : State) : Prop :=
  t.flags = s.flags ∧ t.mem = s.mem ∧ t.progLen = s.progLen ∧ t.run = s.run ∧ t.ip = s.ip ∧
    ∀ g, t.regs.getGen g = s.regs.getGen g

/-- The segment registers are plain storage (10_state.md R29, 20_memory.md R65, 43_move.md R171): only `MOV sreg, r/m16`
writes one, and their values reach nothing else. Two states that differ in them alone fetch the same, and a step that runs
no `MOV r/m16, sreg` takes them to states that differ in them alone. -/
def Obligations.SegmentRegistersAreStorageOnly : Prop :=
  (∀ (i : Instr) (s t : State) (sr : SReg), exec i s = .next t → t.regs.getSeg sr ≠ s.regs.getSeg sr →
    ∃ rm, i = .movSregRm16 sr rm) ∧
  ∀ s u : State, SameButSegments s u → s.fetch = u.fetch ∧
    ((∀ i, s.fetch = .instr i → readsSegment i = false) → ∀ t, step s = .next t →
      ∃ v, step u = .next v ∧ SameButSegments t v)

/-! ### Level-1 records that no byte encoding gives -/

/-- Whether an operation is one of the four with two data operands (40_dispatch.md R117). -/
def isDataOp : Op → Bool
  | .mov | .add | .sub | .cmp => true
  | .jne | .je | .jb | .jp | .loop | .loopnz | .other _ => false

/-- A general register operand, by its id of the table of R20 (40_dispatch.md R117: AX to DI). -/
def isGeneralOperand : OperandRec → Prop
  | .reg index width _ => 1 ≤ index ∧ index ≤ 8 ∧ (width = 1 ∨ width = 2)
  | .imm _ | .mem _ _ _ => False

/-- A segment register operand (40_dispatch.md R117: ES to DS), always a word (10_state.md R29). -/
def isSegmentOperand : OperandRec → Prop
  | .reg index width _ => 9 ≤ index ∧ index ≤ 12 ∧ width = 2
  | .imm _ | .mem _ _ _ => False

/-- A memory operand of a valid form: width 1 or 2, and at most two terms, each BX, BP, SI or DI (40_dispatch.md R117,
41_operands_ea.md R135). -/
def isMemoryOperand : OperandRec → Prop
  | .mem terms _ width => (width = 1 ∨ width = 2) ∧ terms.length ≤ 2 ∧ ∀ t ∈ terms, t = 2 ∨ t = 6 ∨ t = 7 ∨ t = 8
  | .imm _ | .reg _ _ _ => False

/-- An immediate operand. -/
def isImmediateOperand : OperandRec → Prop
  | .imm _ => True
  | .reg _ _ _ | .mem _ _ _ => False

/-- The width of an operand; an immediate has none (30_encoding.md R76). -/
def operandWidth : OperandRec → Option Nat
  | .reg _ width _ => some width
  | .mem _ _ width => some width
  | .imm _ => none

/-- The column `operands[0]` of the table of 40_dispatch.md R117. -/
def mayBeFirst (P : Config.Params) (op : Op) (o : OperandRec) : Prop :=
  isGeneralOperand o ∨ (isMemoryOperand o ∧ (op = .mov ∨ P.memDestArith = true)) ∨ (isSegmentOperand o ∧ op = .mov)

/-- The column `operands[1]` of the table of 40_dispatch.md R117. -/
def mayBeSecond (op : Op) (o : OperandRec) : Prop :=
  isGeneralOperand o ∨ isMemoryOperand o ∨ isImmediateOperand o ∨ (isSegmentOperand o ∧ op = .mov)

/-- What a segment register may be paired with: a general register or memory, of width 2 (40_dispatch.md R117). -/
def pairsWithSegment (o : OperandRec) : Prop := (isGeneralOperand o ∨ isMemoryOperand o) ∧ operandWidth o = some 2

/-- The row of the table of 40_dispatch.md R117 for each operation, all its columns. `OTHER(t)` has no row. -/
def fitsTable (P : Config.Params) (op : Op) (operands : List OperandRec) : Prop :=
  match op with
  | .mov | .add | .sub | .cmp => ∃ o0 o1, operands = [o0, o1] ∧ mayBeFirst P op o0 ∧ mayBeSecond op o1 ∧
      (∀ w, operandWidth o1 = some w → operandWidth o0 = some w) ∧
      (isSegmentOperand o0 → pairsWithSegment o1) ∧ (isSegmentOperand o1 → pairsWithSegment o0)
  | .jne | .je | .jb | .jp | .loop | .loopnz => ∃ v, operands = [.imm v]
  | .other _ => False

/-- The address and the width of an operand's memory access: the exact sum of its terms' registers, by the ids of BX, BP, SI
and DI, and its displacement (41_operands_ea.md R135, R136). -/
def accessOf (r : Regs) : OperandRec → Option (Int × Width)
  | .mem terms disp width =>
    let word : Nat → Nat := fun t =>
      if t = 2 then r.bx.toNat else if t = 6 then r.bp.toNat else if t = 7 then r.si.toNat
      else if t = 8 then r.di.toNat else 0
    some ((terms.map word).sum + disp, if width = 1 then .byte else .word)
  | .reg _ _ _ | .imm _ => none

/-- The operand accesses memory at `a` with width `w`, and the access is not inside the bank (20_memory.md R58). -/
def accessOutside (P : Config.Params) (r : Regs) (o : OperandRec) (a : Int) (w : Width) : Prop :=
  accessOf r o = some (a, w) ∧ (a < 0 ∨ P.memSize < a + w.bytes)

/-- The order of the halts of one record (60_exceptions.md R218): OTHER(t) first; then a register outside the contract, by
the position of the first operand that breaks it; then an operand shape; then, of a record that fits its row of the table,
the first operand in list order, the destination before the source, whose access is outside the bank; a branch target last,
reported only by a jump or loop that fits its row. Each comes after the `ip` advance, with nothing else changed
(40_dispatch.md R114, R116, R117). The order is the spec's decision D21; which records fail the shape check, and where, is
OperandShapeTable. -/
def Obligations.RecordHaltsInOrder : Prop :=
  ∀ (P : Config.Params) (rec : Record) (s : State),
    (∀ t, rec.op = .other t → runRecord P rec s = (s.advance rec.size).raise (.unimplementedOpcode s.ip t)) ∧
    (∀ k o, (∀ t, rec.op ≠ .other t) → rec.operands[k]? = some o → registersOk o = false →
      (∀ j o', j < k → rec.operands[j]? = some o' → registersOk o' = true) →
      runRecord P rec s = (s.advance rec.size).raise (.registerIndexViolation s.ip k)) ∧
    (∀ check k, shapeCheck P rec.op = .ok check → (∀ o ∈ rec.operands, registersOk o = true) →
      check rec.operands = .error k →
      runRecord P rec s = (s.advance rec.size).raise (.operandTypeMismatch s.ip k)) ∧
    (∀ (k : Nat) (o : OperandRec) (a : Int) (w : Width), isDataOp rec.op = true →
      (∀ o ∈ rec.operands, registersOk o = true) → fitsTable P rec.op rec.operands → rec.operands[k]? = some o → accessOutside P s.regs o a w →
      (∀ (j : Nat) (o' : OperandRec) (a' : Int) (w' : Width), j < k →
        rec.operands[j]? = some o' → ¬ accessOutside P s.regs o' a' w') →
      runRecord P rec s = (s.advance rec.size).raise (.addressOutOfRange s.ip a w)) ∧
    (∀ pos target, s.run = .running →
      (runRecord P rec s).run = .haltedError (.branchTargetOutOfRange pos target) →
      pos = s.ip ∧ isDataOp rec.op = false ∧ fitsTable P rec.op rec.operands)

/-- The operand shape table of R117: a record that keeps the register contract halts with OperandTypeMismatch exactly when it
does not fit its row; and the position reported is 0 for an `operands[0]` outside its column (an immediate, IP, a bad memory
form, a segment register or a memory operand where the row takes none), 1 for an `operands[1]` outside its column, 1 for
widths that differ where no segment register stands (log entry 14), and 0 for a jump's or loop's one operand that is no
immediate. Where the spec states no position (the operand count, a segment pairing) the first clause says that some
position, or none, is reported (log entry 4). The rows beyond the source's examples are the spec's decisions D16 and D17
(40_dispatch.md R117, R118, 60_exceptions.md R215, R218). -/
def Obligations.OperandShapeTable : Prop :=
  ∀ (P : Config.Params) (rec : Record) (s : State), s.run = .running → (∀ t, rec.op ≠ .other t) →
    (∀ o ∈ rec.operands, registersOk o = true) →
    let mismatch := fun k => runRecord P rec s = (s.advance rec.size).raise (.operandTypeMismatch s.ip k)
    ((∃ k, mismatch k) ↔ ¬ fitsTable P rec.op rec.operands) ∧
    (isDataOp rec.op = true → ∀ o0 o1, rec.operands = [o0, o1] →
      (¬ mayBeFirst P rec.op o0 → mismatch (some 0)) ∧
      (mayBeFirst P rec.op o0 → ¬ mayBeSecond rec.op o1 → mismatch (some 1)) ∧
      (mayBeFirst P rec.op o0 → mayBeSecond rec.op o1 → ¬ isSegmentOperand o0 → ¬ isSegmentOperand o1 →
        ∀ w, operandWidth o1 = some w → operandWidth o0 ≠ some w → mismatch (some 1))) ∧
    (isDataOp rec.op = false → ∀ o, rec.operands = [o] → ¬ isImmediateOperand o → mismatch (some 0))

/-- The range check at every capacity of the bank: a MOV, ADD, SUB or CMP record that keeps the register contract and fits its
row halts with AddressOutOfRange exactly when some memory operand's access has a < 0 or a + w > MEM_SIZE, and otherwise the
run goes on (20_memory.md R58, 60_exceptions.md R216). The halt is the spec's decision D8. -/
def Obligations.RecordAccessHaltsExactlyOutsideTheBank : Prop :=
  ∀ (P : Config.Params) (rec : Record) (s : State), s.run = .running → isDataOp rec.op = true →
    (∀ o ∈ rec.operands, registersOk o = true) → fitsTable P rec.op rec.operands →
    ((∃ a w, runRecord P rec s = (s.advance rec.size).raise (.addressOutOfRange s.ip a w)) ↔
      ∃ o ∈ rec.operands, ∃ a w, accessOutside P s.regs o a w) ∧
    ((∀ o ∈ rec.operands, ∀ a w, ¬ accessOutside P s.regs o a w) → (runRecord P rec s).run = .running)

/-- The register contract on raw indices: the valid indices are 1 to 13, and a byte access is valid only for a half (offset
0 or 1) of AX, BX, CX, DX (10_state.md R20, R23, 40_dispatch.md R117). -/
def Obligations.RegisterContract : Prop :=
  (∀ index width offset, registersOk (.reg index width offset) = true ↔
    (1 ≤ index ∧ index ≤ 13 ∧ (width = 1 → index ≤ 4 ∧ offset ≤ 1))) ∧
  ∀ terms disp width, registersOk (.mem terms disp width) = true ↔ ∀ t ∈ terms, 1 ≤ t ∧ t ≤ 13

/-- The instruction pointer is never a data operand (40_dispatch.md R118): a record with an operand `Reg` that names IP
(id 13) runs no rule; it halts, with code 2, 3 or 4, and changes nothing but `run` and the `ip` advance. -/
def Obligations.IpIsNeverADataOperand : Prop :=
  ∀ (P : Config.Params) (rec : Record) (s : State) (width offset : Nat), .reg 13 width offset ∈ rec.operands →
    ∃ r, runRecord P rec s = (s.advance rec.size).raise r ∧ (r.code = 2 ∨ r.code = 3 ∨ r.code = 4)

/-- A record that passes the checks of R117 has a meaning in every state: the run goes on, but for the two halts that depend
on values, AddressOutOfRange and BranchTargetOutOfRange (40_dispatch.md R119). -/
def Obligations.CheckedRecordsRun : Prop :=
  ∀ (P : Config.Params) (rec : Record) (s : State) (check : List OperandRec → Except (Option Nat) Checked) (c : Checked),
    shapeCheck P rec.op = .ok check → registerViolation rec.operands = none → check rec.operands = .ok c →
    RunsOr (fun r => isAddressHalt r ∨ isBranchHalt r) s (runRecord P rec s)

/-- A Mem-to-Mem record, which no byte encoding gives, is accepted: MOV reads the source and then writes the destination;
with `MEM_DEST_ARITH = true`, ADD and SUB read both and write the destination and the flags, and CMP the flags alone
(43_move.md R170, 44_arith.md R180, R181, R182; the spec's decision D17). Each memory operand has at most two terms, named by
their ids, and both accesses lie in the bank. -/
def Obligations.MemoryToMemoryRecordsRun : Prop :=
  ∀ (P : Config.Params) (s : State) (w : Width) (n : Nat) (ts ts' : List AddrReg) (d d' : Int),
    ts.length ≤ 2 → ts'.length ≤ 2 →
    admitted P.memSize (effectiveAddress ts d s.regs) w = true →
    admitted P.memSize (effectiveAddress ts' d' s.regs) w = true →
    let operands := [OperandRec.mem (ts.map fun t => Reg.id (.gen t.gen)) d w.bytes,
                     OperandRec.mem (ts'.map fun t => Reg.id (.gen t.gen)) d' w.bytes]
    let a := s.mem.readW (effectiveAddress ts d s.regs).toNat w
    let b := s.mem.readW (effectiveAddress ts' d' s.regs).toNat w
    let store := fun v => (s.advance n).setMem (s.mem.writeW (effectiveAddress ts d s.regs).toNat w v)
    runRecord P { op := .mov, size := n, operands } s = store b ∧
    (P.memDestArith = true →
      runRecord P { op := .add, size := n, operands } s = (store (a + b)).setFlags (addFlags a b s.flags) ∧
      runRecord P { op := .sub, size := n, operands } s = (store (a - b)).setFlags (subFlags a b s.flags) ∧
      runRecord P { op := .cmp, size := n, operands } s = (s.advance n).setFlags (subFlags a b s.flags))

/-! ### Run outputs -/

/-- The run outputs: exactly the non-zero registers, each once, in the order AX to IP of R20, with its unsigned and signed
value; and the letter of a flag is in the flags code exactly when the flag is set, in the order `O D I T S Z A P C`
(70_reset_and_hazards.md R236; the register order is the spec's decision D25). -/
def Obligations.RunOutputsShowNonZeroRegistersAndActiveFlags : Prop :=
  ∀ s : State,
    (∀ o, o ∈ registerOutputs s ↔ (s.getWord o.reg ≠ 0 ∧ o.unsigned = (s.getWord o.reg).toNat ∧
      o.signed = (s.getWord o.reg).toInt)) ∧
    ((registerOutputs s).map RegOutput.reg).Nodup ∧
    ((registerOutputs s).map RegOutput.reg).Sublist
      [.gen .ax, .gen .bx, .gen .cx, .gen .dx, .gen .sp, .gen .bp, .gen .si, .gen .di,
       .seg .es, .seg .cs, .seg .ss, .seg .ds, .ip] ∧
    (∀ f : Flag, f.letter ∈ flagsCode s ↔ s.flags.get f = true) ∧
    (flagsCode s).Sublist ['O', 'D', 'I', 'T', 'S', 'Z', 'A', 'P', 'C']
end

