-- ==== Sys2Proof/Laws/Decode.lean ====
section
/-! SUPPORT. Reading back what the encoder writes, field by field (30_encoding.md R81 to R88), and the key of each row's
encoding against its match and mask (R80). -/

namespace Sys2Proof

/-! ### Fields -/

/-- A word is its high byte and its low byte (R82). -/
theorem hiByte_append_loByte (v : Word) : hiByte v ++ loByte v = v := by
  apply BitVec.eq_of_getLsbD_eq
  intro i hi
  simp only [hiByte, loByte, BitVec.getLsbD_append, BitVec.getLsbD_extractLsb']
  split
  · simp; omega
  · have : i - 8 < 8 := by omega
    simp [this]; congr 1; omega

/-- The low byte of two joined bytes is the second. -/
@[simp] theorem loByte_append (hi lo : Byte) : loByte (hi ++ lo) = lo := by
  apply BitVec.eq_of_getLsbD_eq
  intro i h
  have := BitVec.getLsbD_append (x := hi) (y := lo) (i := i)
  simp only [loByte, BitVec.getLsbD_extractLsb', h, decide_true, Bool.true_and, Nat.zero_add]
  exact this.trans (by simp [h])

/-- The high byte of two joined bytes is the first. -/
@[simp] theorem hiByte_append (hi lo : Byte) : hiByte (hi ++ lo) = hi := by
  apply BitVec.eq_of_getLsbD_eq
  intro i h
  have := BitVec.getLsbD_append (x := hi) (y := lo) (i := 8 + i)
  simp only [hiByte, BitVec.getLsbD_extractLsb', h, decide_true, Bool.true_and]
  exact this.trans (by simp)

@[simp] theorem regField_modRM : ∀ (m : BitVec 2) (r c : BitVec 3), regField (modRM m r c) = r := by decide

@[simp] theorem srField_modRM : ∀ (m : BitVec 2) (r c : BitVec 3), srField (modRM m r c) = r.extractLsb' 0 2 := by decide

@[simp] theorem modField_modRM : ∀ (m : BitVec 2) (r c : BitVec 3), modField (modRM m r c) = m := by decide

@[simp] theorem rmField_modRM : ∀ (m : BitVec 2) (r c : BitVec 3), rmField (modRM m r c) = c := by decide

/-- A ModRM byte is its three fields (R81). -/
theorem modRM_fields : ∀ b : Byte, modRM (modField b) (regField b) (rmField b) = b := by decide

@[simp] theorem RegCode.ofBits_bits (c : RegCode) : RegCode.ofBits c.bits = c := by cases c <;> rfl

@[simp] theorem RegCode.bits_ofBits : ∀ b : BitVec 3, (RegCode.ofBits b).bits = b := by decide

@[simp] theorem Base.ofBits_bits (b : Base) : Base.ofBits b.bits = b := by cases b <;> rfl

@[simp] theorem Base.bits_ofBits : ∀ b : BitVec 3, (Base.ofBits b).bits = b := by decide

@[simp] theorem SReg.ofBits_bits (sr : SReg) : SReg.ofBits sr.bits = sr := by cases sr <;> rfl

@[simp] theorem SReg.bits_ofBits : ∀ b : BitVec 2, (SReg.ofBits b).bits = b := by decide

/-- The `sr` field of an SR form's ModRM byte (R85). -/
@[simp] theorem SReg.extract_bits (sr : SReg) :
    BitVec.extractLsb' 0 2 ((0 : BitVec 1) ++ sr.bits : BitVec 3) = sr.bits := by cases sr <;> rfl

/-- The `w` bit is bit 0 of byte 0 (R83). -/
@[simp] theorem wField_append (c : BitVec 7) (w : Width) : wField (c ++ w.wBit) = w := by
  cases w <;> revert c <;> decide

/-- The `w` bit of the RI form is bit 3 of byte 0 (R92). -/
@[simp] theorem riWidth (w : Width) (c : BitVec 3) :
    Width.ofBit (((0b1011 : BitVec 4) ++ w.wBit ++ c : BitVec 8).getLsbD 3) = w := by
  cases w <;> revert c <;> decide

/-- The register field of the RI form is bits 2..0 of byte 0 (R92). -/
@[simp] theorem riReg (w : BitVec 1) (c : BitVec 3) :
    ((0b1011 : BitVec 4) ++ w ++ c : BitVec 8).extractLsb' 0 3 = c := by
  revert w c; decide

/-! ### Reading back operands -/

theorem takeWord_wordBytes (v : Word) (rest : List Byte) : takeWord (wordBytes v ++ rest) = some (v, rest) := by
  simp [wordBytes, takeWord, hiByte_append_loByte]

theorem takeImm_encode (v : Imm) (rest : List Byte) : takeImm v.width (v.encode ++ rest) = some (v, rest) := by
  cases v with
  | imm8 v => rfl
  | imm16 v => simp [Imm.encode, Imm.width, takeImm, takeWord_wordBytes]

/-- The encoding of an `r/m` operand is a ModRM byte with the given `reg` field and the displacement bytes (R86). -/
theorem encode_rm (rm : RM) (reg : BitVec 3) :
    ∃ b1 tl, rm.encode reg = b1 :: tl ∧ regField b1 = reg ∧ tl.length = rm.dispBytes := by
  cases rm <;> exact ⟨_, _, rfl, regField_modRM _ _ _, rfl⟩

/-- Reading an encoded `r/m` operand gives it back, and the bytes after it. -/
theorem takeRM_encode (rm : RM) (reg : BitVec 3) (h : rm.wellFormed = true) (rest : List Byte) :
    ∃ b1 tl, rm.encode reg = b1 :: tl ∧ takeRM b1 (tl ++ rest) = some (rm, rest) ∧ regField b1 = reg ∧
      srField b1 = reg.extractLsb' 0 2 := by
  cases rm with
  | reg c =>
    exact ⟨_, _, rfl, by simp [takeRM], regField_modRM _ _ _, srField_modRM _ _ _⟩
  | ind b =>
    refine ⟨_, _, rfl, ?_, regField_modRM _ _ _, srField_modRM _ _ _⟩
    cases b <;> simp [takeRM, Base.bits, Base.ofBits] at h ⊢
    simp [RM.wellFormed] at h
  | direct a =>
    exact ⟨_, _, rfl, by simp [takeRM, Base.ofBits, wordBytes, takeWord, hiByte_append_loByte],
      regField_modRM _ _ _, srField_modRM _ _ _⟩
  | disp8 b d =>
    exact ⟨_, _, rfl, by simp [takeRM, takeByte], regField_modRM _ _ _, srField_modRM _ _ _⟩
  | disp16 b d =>
    exact ⟨_, _, rfl, by simp [takeRM, takeWord, wordBytes, hiByte_append_loByte],
      regField_modRM _ _ _, srField_modRM _ _ _⟩

theorem length_encode_imm (v : Imm) : v.encode.length = v.width.bytes := by cases v <;> rfl

theorem encode_imm_cons (v : Imm) : ∃ b tl, v.encode = b :: tl := by cases v <;> exact ⟨_, _, rfl⟩

theorem RM.dispBytes_le (rm : RM) : rm.dispBytes ≤ 2 := by cases rm <;> simp [RM.dispBytes]

theorem Width.bytes_le (w : Width) : 1 ≤ w.bytes ∧ w.bytes ≤ 2 := by cases w <;> simp [Width.bytes]

/-! ### The key of each row's encoding matches the row (R80) -/

theorem matchesKey_movRmR (w : Width) (b1 : Byte) :
    Row.matchesKey .movRmR (keyOf ((0b1000100 : BitVec 7) ++ w.wBit) b1) = true := by
  cases w <;> revert b1 <;> decide

theorem matchesKey_movRRm (w : Width) (b1 : Byte) :
    Row.matchesKey .movRRm (keyOf ((0b1000101 : BitVec 7) ++ w.wBit) b1) = true := by
  cases w <;> revert b1 <;> decide

theorem matchesKey_movAccAddr (w : Width) (b1 : Byte) :
    Row.matchesKey .movAccAddr (keyOf ((0b1010000 : BitVec 7) ++ w.wBit) b1) = true := by
  cases w <;> revert b1 <;> decide

theorem matchesKey_movAddrAcc (w : Width) (b1 : Byte) :
    Row.matchesKey .movAddrAcc (keyOf ((0b1010001 : BitVec 7) ++ w.wBit) b1) = true := by
  cases w <;> revert b1 <;> decide

theorem matchesKey_addRmR (w : Width) (b1 : Byte) :
    Row.matchesKey .addRmR (keyOf ((0b0000000 : BitVec 7) ++ w.wBit) b1) = true := by
  cases w <;> revert b1 <;> decide

theorem matchesKey_addRRm (w : Width) (b1 : Byte) :
    Row.matchesKey .addRRm (keyOf ((0b0000001 : BitVec 7) ++ w.wBit) b1) = true := by
  cases w <;> revert b1 <;> decide

theorem matchesKey_addAccImm (w : Width) (b1 : Byte) :
    Row.matchesKey .addAccImm (keyOf ((0b0000010 : BitVec 7) ++ w.wBit) b1) = true := by
  cases w <;> revert b1 <;> decide

theorem matchesKey_subRmR (w : Width) (b1 : Byte) :
    Row.matchesKey .subRmR (keyOf ((0b0010100 : BitVec 7) ++ w.wBit) b1) = true := by
  cases w <;> revert b1 <;> decide

theorem matchesKey_subRRm (w : Width) (b1 : Byte) :
    Row.matchesKey .subRRm (keyOf ((0b0010101 : BitVec 7) ++ w.wBit) b1) = true := by
  cases w <;> revert b1 <;> decide

theorem matchesKey_subAccImm (w : Width) (b1 : Byte) :
    Row.matchesKey .subAccImm (keyOf ((0b0010110 : BitVec 7) ++ w.wBit) b1) = true := by
  cases w <;> revert b1 <;> decide

theorem matchesKey_cmpRmR (w : Width) (b1 : Byte) :
    Row.matchesKey .cmpRmR (keyOf ((0b0011100 : BitVec 7) ++ w.wBit) b1) = true := by
  cases w <;> revert b1 <;> decide

theorem matchesKey_cmpRRm (w : Width) (b1 : Byte) :
    Row.matchesKey .cmpRRm (keyOf ((0b0011101 : BitVec 7) ++ w.wBit) b1) = true := by
  cases w <;> revert b1 <;> decide

theorem matchesKey_cmpAccImm (w : Width) (b1 : Byte) :
    Row.matchesKey .cmpAccImm (keyOf ((0b0011110 : BitVec 7) ++ w.wBit) b1) = true := by
  cases w <;> revert b1 <;> decide

theorem matchesKey_movRmImm (w : Width) (b1 : Byte) (h : regField b1 = 0) :
    Row.matchesKey .movRmImm (keyOf ((0b1100011 : BitVec 7) ++ w.wBit) b1) = true := by
  cases w <;> revert b1 <;> decide

theorem matchesKey_movRImm (w : Width) (c : BitVec 3) (b1 : Byte) :
    Row.matchesKey .movRImm (keyOf ((0b1011 : BitVec 4) ++ w.wBit ++ c) b1) = true := by
  have h : ∀ c : BitVec 3, ∀ b1 : Byte, Row.matchesKey .movRImm (keyOf ((0b1011 : BitVec 4) ++ w.wBit ++ c) b1) = true := by
    cases w <;> decide +kernel
  exact h c b1

theorem matchesKey_movRm16Sreg (sr : SReg) (b1 : Byte) (h : regField b1 = (0 : BitVec 1) ++ sr.bits) :
    Row.matchesKey .movRm16Sreg (keyOf 0x8C b1) = true := by
  cases sr <;> revert b1 <;> decide

theorem matchesKey_movSregRm16 (sr : SReg) (b1 : Byte) (h : regField b1 = (0 : BitVec 1) ++ sr.bits) :
    Row.matchesKey .movSregRm16 (keyOf 0x8E b1) = true := by
  cases sr <;> revert b1 <;> decide

theorem matchesKey_addRm8Imm8 (b1 : Byte) (h : regField b1 = 0) : Row.matchesKey .addRm8Imm8 (keyOf 0x80 b1) = true := by
  revert b1; decide

theorem matchesKey_addRm16Imm16 (b1 : Byte) (h : regField b1 = 0) : Row.matchesKey .addRm16Imm16 (keyOf 0x81 b1) = true := by
  revert b1; decide

theorem matchesKey_addRm16Simm8 (b1 : Byte) (h : regField b1 = 0) : Row.matchesKey .addRm16Simm8 (keyOf 0x83 b1) = true := by
  revert b1; decide

theorem matchesKey_subRm8Imm8 (b1 : Byte) (h : regField b1 = 5) : Row.matchesKey .subRm8Imm8 (keyOf 0x80 b1) = true := by
  revert b1; decide

theorem matchesKey_subRm16Imm16 (b1 : Byte) (h : regField b1 = 5) : Row.matchesKey .subRm16Imm16 (keyOf 0x81 b1) = true := by
  revert b1; decide

theorem matchesKey_subRm16Simm8 (b1 : Byte) (h : regField b1 = 5) : Row.matchesKey .subRm16Simm8 (keyOf 0x83 b1) = true := by
  revert b1; decide

theorem matchesKey_cmpRm8Imm8 (b1 : Byte) (h : regField b1 = 7) : Row.matchesKey .cmpRm8Imm8 (keyOf 0x80 b1) = true := by
  revert b1; decide

theorem matchesKey_cmpRm16Imm16 (b1 : Byte) (h : regField b1 = 7) : Row.matchesKey .cmpRm16Imm16 (keyOf 0x81 b1) = true := by
  revert b1; decide

theorem matchesKey_cmpRm16Simm8 (b1 : Byte) (h : regField b1 = 7) : Row.matchesKey .cmpRm16Simm8 (keyOf 0x83 b1) = true := by
  revert b1; decide

theorem matchesKey_jneRel8 (b1 : Byte) : Row.matchesKey .jneRel8 (keyOf 0x75 b1) = true := by
  revert b1; decide

theorem matchesKey_jeRel8 (b1 : Byte) : Row.matchesKey .jeRel8 (keyOf 0x74 b1) = true := by
  revert b1; decide

theorem matchesKey_jbRel8 (b1 : Byte) : Row.matchesKey .jbRel8 (keyOf 0x72 b1) = true := by
  revert b1; decide

theorem matchesKey_jpRel8 (b1 : Byte) : Row.matchesKey .jpRel8 (keyOf 0x7A b1) = true := by
  revert b1; decide

theorem matchesKey_loopRel8 (b1 : Byte) : Row.matchesKey .loopRel8 (keyOf 0xE2 b1) = true := by
  revert b1; decide

theorem matchesKey_loopnzRel8 (b1 : Byte) : Row.matchesKey .loopnzRel8 (keyOf 0xE0 b1) = true := by
  revert b1; decide

end Sys2Proof
end

