-- ==== Sys2Proof/Laws/Memory.lean ====
section
/-! SUPPORT. The memory bank: every operation keeps the canonical form, a write leaves every other address alone, and
a byte written is the byte read. -/

namespace Sys2Proof.Machine

/-- The addresses a memory lists after a byte is written: the old ones, and perhaps the one written. -/
theorem mem_write_fst {m : Memory} {a : Nat} {b : Byte} {c : Host.Cell} (h : c ∈ m.write a b) :
    c.1 = a ∨ c ∈ m := by
  induction m with
  | nil => simp only [Memory.write] at h; split at h <;> simp_all
  | cons d m ih =>
    obtain ⟨k, v⟩ := d
    simp only [Memory.write] at h
    split at h
    · split at h <;> simp_all
      rcases h with rfl | h <;> simp_all
    · split at h
      · split at h <;> simp_all
        rcases h with rfl | h <;> simp_all
      · simp only [List.mem_cons] at h ⊢
        rcases h with rfl | h
        · simp
        · rcases ih h with h | h <;> simp [h]

/-- Writing a byte keeps the canonical form. -/
theorem write_wf {m : Memory} (h : m.wf) (a : Nat) (b : Byte) : (m.write a b).wf := by
  induction m with
  | nil =>
    simp only [Memory.write]
    split
    · exact h
    · rename_i hb; simp [Memory.wf, hb]
  | cons d m ih =>
    obtain ⟨k, v⟩ := d
    obtain ⟨hp, hz⟩ := h
    rw [List.pairwise_cons] at hp
    have hwf : Memory.wf m := ⟨hp.2, fun c hc => hz c (List.mem_cons_of_mem _ hc)⟩
    have hv : v ≠ Memory.unlisted := hz (k, v) (by simp)
    simp only [Memory.write]
    split
    · rename_i hlt
      split
      · exact ⟨List.pairwise_cons.mpr hp, hz⟩
      · rename_i hb
        refine ⟨List.pairwise_cons.mpr ⟨?_, List.pairwise_cons.mpr hp⟩, ?_⟩
        · intro c hc
          rcases List.mem_cons.mp hc with rfl | hc
          · exact hlt
          · exact lt_trans hlt (hp.1 c hc)
        · intro c hc
          rcases List.mem_cons.mp hc with rfl | hc
          · exact hb
          · exact hz c hc
    · split
      · split
        · exact hwf
        · rename_i hb
          refine ⟨List.pairwise_cons.mpr ⟨hp.1, hp.2⟩, ?_⟩
          intro c hc
          rcases List.mem_cons.mp hc with rfl | hc
          · exact hb
          · exact hwf.2 c hc
      · rename_i hnlt hne
        obtain ⟨hp', hz'⟩ := ih hwf
        refine ⟨List.pairwise_cons.mpr ⟨?_, hp'⟩, ?_⟩
        · intro c hc
          rcases mem_write_fst hc with h | h
          · simp only [h]; omega
          · exact hp.1 c h
        · intro c hc
          rcases List.mem_cons.mp hc with rfl | hc
          · exact hv
          · exact hz' c hc

/-- An address below every listed one reads as an unlisted address. -/
theorem read_of_lt {m : Memory} {a : Nat} (h : ∀ c ∈ m, a < c.1) : m.read a = Memory.unlisted := by
  induction m with
  | nil => rfl
  | cons d m ih =>
    obtain ⟨k, v⟩ := d
    have hk : a < k := h (k, v) (by simp)
    simp only [Memory.read, if_neg (Nat.ne_of_lt hk)]
    exact ih fun c hc => h c (List.mem_cons_of_mem _ hc)

/-- Writing a byte leaves every other address alone, in any memory. -/
theorem read_write_ne (m : Memory) {a a' : Nat} (b : Byte) (h : a' ≠ a) : (m.write a b).read a' = m.read a' := by
  induction m with
  | nil => simp only [Memory.write]; split <;> simp [Memory.read, h]
  | cons d m ih =>
    obtain ⟨k, v⟩ := d
    simp only [Memory.write]
    split
    · split <;> simp [Memory.read, h]
    · split
      · rename_i hk; subst hk
        split <;> simp [Memory.read, h]
      · simp only [Memory.read, ih]

/-- The byte written is the byte read, in canonical form. -/
theorem read_write_self {m : Memory} (hm : m.wf) (a : Nat) (b : Byte) : (m.write a b).read a = b := by
  induction m with
  | nil => simp only [Memory.write]; split <;> simp_all [Memory.read]
  | cons d m ih =>
    obtain ⟨k, v⟩ := d
    obtain ⟨hp, hz⟩ := hm
    rw [List.pairwise_cons] at hp
    simp only [Memory.write]
    split
    · rename_i hlt
      split
      · rename_i hb
        rw [hb]
        exact read_of_lt fun c hc => by
          rcases List.mem_cons.mp hc with rfl | hc
          · exact hlt
          · exact lt_trans hlt (hp.1 c hc)
      · simp [Memory.read]
    · split
      · rename_i hk; subst hk
        split
        · rename_i hb
          rw [hb]
          exact read_of_lt hp.1
        · simp [Memory.read]
      · rename_i hne
        simp only [Memory.read, if_neg hne]
        exact ih ⟨hp.2, fun c hc => hz c (List.mem_cons_of_mem _ hc)⟩

/-- A write of a byte or a word keeps the canonical form. -/
theorem writeW_wf {m : Memory} (h : m.wf) (a : Nat) (w : Width) (v : BitVec w.bits) : (m.writeW a w v).wf := by
  cases w
  · exact write_wf h a v
  · exact write_wf (write_wf h a _) (a + 1) _

/-- Every address a write of a byte or a word lists was listed, or is one of the bytes written. -/
theorem mem_writeW_fst {m : Memory} {a : Nat} {w : Width} {v : BitVec w.bits} {c : Host.Cell}
    (h : c ∈ m.writeW a w v) : (a ≤ c.1 ∧ c.1 < a + w.bytes) ∨ c ∈ m := by
  cases w
  · rcases mem_write_fst h with h | h
    · simp [h, Width.bytes]
    · exact .inr h
  · rcases mem_write_fst h with h | h
    · simp [h, Width.bytes]
    · rcases mem_write_fst h with h | h
      · simp [h, Width.bytes]
      · exact .inr h

/-- A write of a byte or a word leaves every address outside the bytes written alone. -/
theorem read_writeW_of_outside (m : Memory) {a a' : Nat} (w : Width) (v : BitVec w.bits)
    (h : ¬(a ≤ a' ∧ a' < a + w.bytes)) : (m.writeW a w v).read a' = m.read a' := by
  cases w <;> simp only [Width.bytes] at h
  · exact read_write_ne m v (by omega)
  · simp only [Memory.writeW]
    rw [read_write_ne _ _ (by omega), read_write_ne _ _ (by omega)]

/-- Storing a list of bytes keeps the canonical form. -/
theorem writeBytes_wf {m : Memory} (h : m.wf) (a : Nat) (bs : List Byte) : (m.writeBytes a bs).wf := by
  induction bs generalizing m a with
  | nil => exact h
  | cons b bs ih => exact ih (write_wf h a b) (a + 1)

/-- Every address a stored list of bytes lists was listed, or is one of the bytes stored. -/
theorem mem_writeBytes_fst {m : Memory} {a : Nat} {bs : List Byte} {c : Host.Cell}
    (h : c ∈ m.writeBytes a bs) : (a ≤ c.1 ∧ c.1 < a + bs.length) ∨ c ∈ m := by
  induction bs generalizing m a with
  | nil => exact .inr h
  | cons b bs ih =>
    rcases ih h with ⟨h1, h2⟩ | h
    · left; simp only [List.length_cons]; omega
    · rcases mem_write_fst h with h | h
      · left; simp only [h, List.length_cons]; omega
      · exact .inr h

/-- Storing a list of bytes leaves every address outside them alone. -/
theorem read_writeBytes_of_outside (m : Memory) {a a' : Nat} (bs : List Byte)
    (h : ¬(a ≤ a' ∧ a' < a + bs.length)) : (m.writeBytes a bs).read a' = m.read a' := by
  induction bs generalizing m a with
  | nil => rfl
  | cons b bs ih =>
    simp only [List.length_cons] at h
    simp only [Memory.writeBytes]
    rw [ih _ (by omega), read_write_ne _ _ (by omega)]

/-- Each byte stored is the byte read, in canonical form. -/
theorem read_writeBytes {m : Memory} (hm : m.wf) (a : Nat) (bs : List Byte) (i : Nat) (hi : i < bs.length) :
    (m.writeBytes a bs).read (a + i) = bs[i] := by
  induction bs generalizing m a i with
  | nil => simp at hi
  | cons b bs ih =>
    simp only [Memory.writeBytes]
    cases i with
    | zero =>
      rw [read_writeBytes_of_outside _ _ (by omega)]
      exact read_write_self hm a b
    | succ i =>
      have := ih (write_wf hm a b) (a + 1) i (by simpa using hi)
      rw [show a + (i + 1) = a + 1 + i by omega, this]
      rfl

@[simp] theorem length_readBytes (m : Memory) (a n : Nat) : (m.readBytes a n).length = n := by
  induction n generalizing a with
  | zero => rfl
  | succ n ih => simp [Memory.readBytes, ih]

end Sys2Proof.Machine
end

