-- ==== Sys2Proof/Laws/State.lean ====
section
/-! SUPPORT. One lemma per field per update of a state and of the register file, so that no later proof unfolds a
record update. -/

namespace Sys2Proof.Machine

/-! ### The four whole-field updates -/

@[simp] theorem setRegs_regs (s : State) (r : Regs) : (s.setRegs r).regs = r := rfl
@[simp] theorem setRegs_flags (s : State) (r : Regs) : (s.setRegs r).flags = s.flags := rfl
@[simp] theorem setRegs_mem (s : State) (r : Regs) : (s.setRegs r).mem = s.mem := rfl
@[simp] theorem setRegs_progLen (s : State) (r : Regs) : (s.setRegs r).progLen = s.progLen := rfl
@[simp] theorem setRegs_run (s : State) (r : Regs) : (s.setRegs r).run = s.run := rfl

@[simp] theorem setFlags_regs (s : State) (f : Flags) : (s.setFlags f).regs = s.regs := rfl
@[simp] theorem setFlags_flags (s : State) (f : Flags) : (s.setFlags f).flags = f := rfl
@[simp] theorem setFlags_mem (s : State) (f : Flags) : (s.setFlags f).mem = s.mem := rfl
@[simp] theorem setFlags_progLen (s : State) (f : Flags) : (s.setFlags f).progLen = s.progLen := rfl
@[simp] theorem setFlags_run (s : State) (f : Flags) : (s.setFlags f).run = s.run := rfl

@[simp] theorem setMem_regs (s : State) (m : Memory) : (s.setMem m).regs = s.regs := rfl
@[simp] theorem setMem_flags (s : State) (m : Memory) : (s.setMem m).flags = s.flags := rfl
@[simp] theorem setMem_mem (s : State) (m : Memory) : (s.setMem m).mem = m := rfl
@[simp] theorem setMem_progLen (s : State) (m : Memory) : (s.setMem m).progLen = s.progLen := rfl
@[simp] theorem setMem_run (s : State) (m : Memory) : (s.setMem m).run = s.run := rfl

@[simp] theorem setRun_regs (s : State) (r : RunState) : (s.setRun r).regs = s.regs := rfl
@[simp] theorem setRun_flags (s : State) (r : RunState) : (s.setRun r).flags = s.flags := rfl
@[simp] theorem setRun_mem (s : State) (r : RunState) : (s.setRun r).mem = s.mem := rfl
@[simp] theorem setRun_progLen (s : State) (r : RunState) : (s.setRun r).progLen = s.progLen := rfl
@[simp] theorem setRun_run (s : State) (r : RunState) : (s.setRun r).run = r := rfl

/-! ### Writing `ip` and CX, and the advance -/

@[simp] theorem setIp_regs (s : State) (v : Word) : (s.setIp v).regs = { s.regs with ip := v } := rfl
@[simp] theorem setIp_flags (s : State) (v : Word) : (s.setIp v).flags = s.flags := rfl
@[simp] theorem setIp_mem (s : State) (v : Word) : (s.setIp v).mem = s.mem := rfl
@[simp] theorem setIp_progLen (s : State) (v : Word) : (s.setIp v).progLen = s.progLen := rfl
@[simp] theorem setIp_run (s : State) (v : Word) : (s.setIp v).run = s.run := rfl
@[simp] theorem setIp_ip (s : State) (v : Word) : (s.setIp v).ip = v := rfl

@[simp] theorem setCx_regs (s : State) (v : Word) : (s.setCx v).regs = { s.regs with cx := v } := rfl
@[simp] theorem setCx_flags (s : State) (v : Word) : (s.setCx v).flags = s.flags := rfl
@[simp] theorem setCx_mem (s : State) (v : Word) : (s.setCx v).mem = s.mem := rfl
@[simp] theorem setCx_progLen (s : State) (v : Word) : (s.setCx v).progLen = s.progLen := rfl
@[simp] theorem setCx_run (s : State) (v : Word) : (s.setCx v).run = s.run := rfl
@[simp] theorem setCx_ip (s : State) (v : Word) : (s.setCx v).ip = s.ip := rfl
@[simp] theorem setCx_cx (s : State) (v : Word) : (s.setCx v).cx = v := rfl
@[simp] theorem setIp_cx (s : State) (v : Word) : (s.setIp v).cx = s.cx := rfl

@[simp] theorem advance_regs (s : State) (n : Nat) :
    (s.advance n).regs = { s.regs with ip := s.ip + BitVec.ofNat 16 n } := rfl
@[simp] theorem advance_flags (s : State) (n : Nat) : (s.advance n).flags = s.flags := rfl
@[simp] theorem advance_mem (s : State) (n : Nat) : (s.advance n).mem = s.mem := rfl
@[simp] theorem advance_progLen (s : State) (n : Nat) : (s.advance n).progLen = s.progLen := rfl
@[simp] theorem advance_run (s : State) (n : Nat) : (s.advance n).run = s.run := rfl
@[simp] theorem advance_ip (s : State) (n : Nat) : (s.advance n).ip = s.ip + BitVec.ofNat 16 n := rfl
@[simp] theorem advance_cx (s : State) (n : Nat) : (s.advance n).cx = s.cx := rfl

/-! ### Entering a halt -/

@[simp] theorem raise_regs (s : State) (r : HaltRecord) : (s.raise r).regs = s.regs := rfl
@[simp] theorem raise_flags (s : State) (r : HaltRecord) : (s.raise r).flags = s.flags := rfl
@[simp] theorem raise_mem (s : State) (r : HaltRecord) : (s.raise r).mem = s.mem := rfl
@[simp] theorem raise_progLen (s : State) (r : HaltRecord) : (s.raise r).progLen = s.progLen := rfl
@[simp] theorem raise_run (s : State) (r : HaltRecord) : (s.raise r).run = .haltedError r := rfl
@[simp] theorem raise_ip (s : State) (r : HaltRecord) : (s.raise r).ip = s.ip := rfl

@[simp] theorem haltClean_regs (s : State) : s.haltClean.regs = s.regs := rfl
@[simp] theorem haltClean_flags (s : State) : s.haltClean.flags = s.flags := rfl
@[simp] theorem haltClean_mem (s : State) : s.haltClean.mem = s.mem := rfl
@[simp] theorem haltClean_progLen (s : State) : s.haltClean.progLen = s.progLen := rfl
@[simp] theorem haltClean_run (s : State) : s.haltClean.run = .haltedClean := rfl

/-! ### The register file -/

@[simp] theorem getGen_setGen (r : Regs) (g : GReg) (v : Word) : (r.setGen g v).getGen g = v := by
  cases g <;> rfl

theorem getGen_setGen_ne (r : Regs) (g g' : GReg) (v : Word) (h : g' ≠ g) :
    (r.setGen g v).getGen g' = r.getGen g' := by
  cases g <;> cases g' <;> first | rfl | exact absurd rfl h

@[simp] theorem getSeg_setGen (r : Regs) (g : GReg) (sr : SReg) (v : Word) :
    (r.setGen g v).getSeg sr = r.getSeg sr := by
  cases g <;> cases sr <;> rfl

@[simp] theorem ip_setGen (r : Regs) (g : GReg) (v : Word) : (r.setGen g v).ip = r.ip := by
  cases g <;> rfl

@[simp] theorem getSeg_setSeg (r : Regs) (sr : SReg) (v : Word) : (r.setSeg sr v).getSeg sr = v := by
  cases sr <;> rfl

theorem getSeg_setSeg_ne (r : Regs) (sr sr' : SReg) (v : Word) (h : sr' ≠ sr) :
    (r.setSeg sr v).getSeg sr' = r.getSeg sr' := by
  cases sr <;> cases sr' <;> first | rfl | exact absurd rfl h

@[simp] theorem getGen_setSeg (r : Regs) (sr : SReg) (g : GReg) (v : Word) :
    (r.setSeg sr v).getGen g = r.getGen g := by
  cases sr <;> cases g <;> rfl

@[simp] theorem ip_setSeg (r : Regs) (sr : SReg) (v : Word) : (r.setSeg sr v).ip = r.ip := by
  cases sr <;> rfl

@[simp] theorem getGen_setIp (r : Regs) (g : GReg) (v : Word) : Regs.getGen { r with ip := v } g = r.getGen g := by
  cases g <;> rfl

@[simp] theorem getSeg_setIp (r : Regs) (sr : SReg) (v : Word) :
    Regs.getSeg { r with ip := v } sr = r.getSeg sr := by
  cases sr <;> rfl

@[simp] theorem getByte_setIp (r : Regs) (x : HalfReg) (k : Half) (v : Word) :
    Regs.getByte { r with ip := v } x k = r.getByte x k := by
  simp [Regs.getByte]

theorem setGen_setIp (r : Regs) (g : GReg) (v u : Word) :
    Regs.setGen { r with ip := u } g v = { r.setGen g v with ip := u } := by
  cases g <;> rfl

theorem setSeg_setIp (r : Regs) (sr : SReg) (v u : Word) :
    Regs.setSeg { r with ip := u } sr v = { r.setSeg sr v with ip := u } := by
  cases sr <;> rfl

/-- A byte write is a write of some word to the cell of the half (R21). -/
theorem setByte_eq_setGen (r : Regs) (x : HalfReg) (k : Half) (v : Byte) :
    ∃ u, r.setByte x k v = r.setGen x.gen u := by
  cases k <;> exact ⟨_, rfl⟩

/-- Two register files with the same 13 cells are equal. -/
theorem regs_eq_of_getWord (r r' : Regs) (h : ∀ x, r.getWord x = r'.getWord x) : r = r' := by
  have hg : ∀ g, r.getGen g = r'.getGen g := fun g => h (.gen g)
  have hs : ∀ sr, r.getSeg sr = r'.getSeg sr := fun sr => h (.seg sr)
  obtain ⟨⟩ := r
  obtain ⟨⟩ := r'
  exact (Regs.mk.injEq ..).mpr
    ⟨hg .ax, hg .bx, hg .cx, hg .dx, hg .sp, hg .bp, hg .si, hg .di, hs .es, hs .cs, hs .ss, hs .ds, h .ip⟩

end Sys2Proof.Machine
end

