-- ==== Sys2Proof/Laws/Operands.lean ====
section
/-! SUPPORT. Operands: the `ip` advance does not reach them, what a write to a place touches, the range check in terms
of the two operands, and the shapes of the operands the encoding fields name. -/

namespace Sys2Proof.Machine

/-! ### `ip` is no operand and no address term (R118, R135) -/

@[simp] theorem effectiveAddress_setIp (terms : List AddrReg) (disp : Int) (r : Regs) (v : Word) :
    effectiveAddress terms disp { r with ip := v } = effectiveAddress terms disp r := by
  simp [effectiveAddress]

@[simp] theorem placeEa_setIp {w : Width} (p : Place w) (r : Regs) (v : Word) :
    Place.ea? { r with ip := v } p = Place.ea? r p := by
  cases p <;> simp [Place.ea?]

@[simp] theorem sourceEa_setIp {w : Width} (src : Source w) (r : Regs) (v : Word) :
    Source.ea? { r with ip := v } src = Source.ea? r src := by
  cases src <;> simp [Source.ea?]

@[simp] theorem placeInBank_setIp {w : Width} (P : Config.Params) (p : Place w) (r : Regs) (v : Word) :
    Place.inBank P { r with ip := v } p = Place.inBank P r p := by
  cases p <;> simp [Place.inBank]

@[simp] theorem sourceInBank_setIp {w : Width} (P : Config.Params) (src : Source w) (r : Regs) (v : Word) :
    Source.inBank P { r with ip := v } src = Source.inBank P r src := by
  cases src <;> simp [Source.inBank]

@[simp] theorem rangeViolation_setIp {w : Width} (P : Config.Params) (dst : Place w) (src : Source w) (r : Regs)
    (v : Word) : rangeViolation P dst src { r with ip := v } = rangeViolation P dst src r := by
  simp [rangeViolation]

@[simp] theorem placeRead_advance {w : Width} (p : Place w) (s : State) (n : Nat) :
    Place.read (s.advance n) p = Place.read s p := by
  cases p <;> simp [Place.read]

@[simp] theorem sourceRead_advance {w : Width} (src : Source w) (s : State) (n : Nat) :
    Source.read (s.advance n) src = Source.read s src := by
  cases src <;> simp [Source.read]

/-! ### The range check in terms of the two operands (R58, R116) -/

/-- No operand fails the range check exactly when both lie in the bank. -/
theorem rangeViolation_eq_none {w : Width} (P : Config.Params) (dst : Place w) (src : Source w) (r : Regs) :
    rangeViolation P dst src r = none ↔ Place.inBank P r dst = true ∧ Source.inBank P r src = true := by
  have hp : ∀ p : Place w, badAddress P w (Place.ea? r p) = none ↔ Place.inBank P r p = true := by
    intro p; cases p <;> simp [badAddress, Place.ea?, Place.inBank]
  have hs : badAddress P w (Source.ea? r src) = none ↔ Source.inBank P r src = true := by
    cases src with
    | place p => exact hp p
    | imm v => simp [badAddress, Source.ea?, Source.inBank]
  rw [rangeViolation, ← hp dst, ← hs]
  cases badAddress P w (Place.ea? r dst) <;> simp

/-- The address reported is that of the destination where it fails, else that of the source. -/
theorem rangeViolation_eq_some {w : Width} {P : Config.Params} {dst : Place w} {src : Source w} {r : Regs} {a : Int}
    (h : rangeViolation P dst src r = some a) :
    (Place.ea? r dst = some a ∧ admitted P.memSize a w = false) ∨
    (Place.inBank P r dst = true ∧ Source.ea? r src = some a ∧ admitted P.memSize a w = false) := by
  have hbad : ∀ o : Option Int, badAddress P w o = some a → o = some a ∧ admitted P.memSize a w = false := by
    intro o ho
    cases o with
    | none => simp [badAddress] at ho
    | some b =>
      simp only [badAddress] at ho
      split at ho
      · simp at ho
      · simp_all
  rw [rangeViolation] at h
  split at h
  · rename_i b hb
    simp only [Option.some.injEq] at h
    subst h
    exact .inl (hbad _ hb)
  · rename_i hb
    right
    refine ⟨?_, hbad _ h⟩
    cases dst <;> simp_all [badAddress, Place.ea?, Place.inBank]

/-! ### What a write to a place touches (R133) -/

@[simp] theorem placeWrite_flags {w : Width} (s : State) (p : Place w) (v : BitVec w.bits) :
    (Place.write s p v).flags = s.flags := by
  cases p <;> rfl

@[simp] theorem placeWrite_progLen {w : Width} (s : State) (p : Place w) (v : BitVec w.bits) :
    (Place.write s p v).progLen = s.progLen := by
  cases p <;> rfl

@[simp] theorem placeWrite_run {w : Width} (s : State) (p : Place w) (v : BitVec w.bits) :
    (Place.write s p v).run = s.run := by
  cases p <;> rfl

/-- A write to a place leaves the memory, or writes it at the place's effective address. -/
theorem placeWrite_mem {w : Width} (s : State) (p : Place w) (v : BitVec w.bits) :
    (Place.write s p v).mem = s.mem ∨
      ∃ a, Place.ea? s.regs p = some a ∧ (Place.write s p v).mem = s.mem.writeW a.toNat w v := by
  cases p with
  | mem terms disp => exact .inr ⟨_, rfl, rfl⟩
  | half r k => exact .inl rfl
  | gen g => exact .inl rfl
  | seg sr => exact .inl rfl

/-- `ip` is no place (R118). -/
@[simp] theorem placeWrite_ip {w : Width} (s : State) (p : Place w) (v : BitVec w.bits) :
    (Place.write s p v).ip = s.ip := by
  cases p with
  | mem terms disp => rfl
  | half r k =>
    obtain ⟨u, hu⟩ := setByte_eq_setGen s.regs r k v
    simp [Place.write, State.ip, hu]
  | gen g => simp [Place.write, State.ip]
  | seg sr => simp [Place.write, State.ip]

/-! ### The operands of the encoding fields (R84, R86): they pass R117, and their shapes -/

@[simp] theorem registersOk_regOperand (c : RegCode) (w : Width) : registersOk (c.operand w) = true := by
  cases c <;> cases w <;> rfl

@[simp] theorem registersOk_rmOperand (rm : RM) (w : Width) : registersOk (rm.operand w) = true := by
  cases rm with
  | reg c => exact registersOk_regOperand c w
  | ind b => cases b <;> rfl
  | direct a => rfl
  | disp8 b d => cases b <;> rfl
  | disp16 b d => cases b <;> rfl

@[simp] theorem registersOk_sregOperand (sr : SReg) : registersOk sr.operand = true := by
  cases sr <;> rfl

@[simp] theorem registersOk_directOperand (addr : Word) (w : Width) :
    registersOk (directOperand addr w) = true := rfl

@[simp] theorem registersOk_imm (v : Word) : registersOk (.imm v) = true := rfl

@[simp] theorem shapeOf_regOperand (c : RegCode) (w : Width) :
    shapeOf (c.operand w) = some (.place w (regPlace c w)) := by
  cases c <;> cases w <;> rfl

@[simp] theorem shapeOf_rmOperand (rm : RM) (w : Width) :
    shapeOf (rm.operand w) = some (.place w (rmPlace rm w)) := by
  cases rm with
  | reg c => exact shapeOf_regOperand c w
  | ind b => cases b <;> cases w <;> rfl
  | direct a => cases w <;> rfl
  | disp8 b d => cases b <;> cases w <;> rfl
  | disp16 b d => cases b <;> cases w <;> rfl

@[simp] theorem shapeOf_sregOperand (sr : SReg) : shapeOf sr.operand = some (.place .word (.seg sr)) := by
  cases sr <;> rfl

@[simp] theorem shapeOf_directOperand (addr : Word) (w : Width) :
    shapeOf (directOperand addr w) = some (.place w (.mem [] addr.toNat)) := by
  cases w <;> rfl

@[simp] theorem shapeOf_imm (v : Word) : shapeOf (.imm v) = some (.imm v) := rfl

@[simp] theorem registerViolation_two (o0 o1 : OperandRec) (h0 : registersOk o0 = true) (h1 : registersOk o1 = true) :
    registerViolation [o0, o1] = none := by
  simp [registerViolation, h0, h1]

@[simp] theorem registerViolation_rel (v : Word) : registerViolation [.imm v] = none := rfl

/-- No `r/m` field and no register field names a segment register. -/
@[simp] theorem isSegment_regPlace (c : RegCode) (w : Width) : isSegment (regPlace c w) = false := by
  cases w <;> rfl

@[simp] theorem isSegment_rmPlace (rm : RM) (w : Width) : isSegment (rmPlace rm w) = false := by
  cases rm with
  | reg c => exact isSegment_regPlace c w
  | ind b => rfl
  | direct a => rfl
  | disp8 b d => rfl
  | disp16 b d => rfl

@[simp] theorem sourceOk_regPlace (op : BinOp) (c : RegCode) (w : Width) : sourceOk op (regPlace c w) = true := by
  cases op <;> cases w <;> rfl

@[simp] theorem sourceOk_rmPlace (op : BinOp) (rm : RM) (w : Width) : sourceOk op (rmPlace rm w) = true := by
  cases rm with
  | reg c => exact sourceOk_regPlace op c w
  | ind b => cases op <;> rfl
  | direct a => cases op <;> rfl
  | disp8 b d => cases op <;> rfl
  | disp16 b d => cases op <;> rfl

@[simp] theorem destinationOk_regPlace (P : Config.Params) (op : BinOp) (c : RegCode) (w : Width) :
    destinationOk P op (regPlace c w) = true := by
  cases op <;> cases w <;> rfl

/-- An `r/m` operand may be the left operand where memory left operands are accepted (R117, D16). -/
theorem destinationOk_rmPlace (P : Config.Params) (op : BinOp) (rm : RM) (w : Width)
    (h : P.memDestArith = true) : destinationOk P op (rmPlace rm w) = true := by
  cases rm with
  | reg c => exact destinationOk_regPlace P op c w
  | ind b => cases op <;> first | rfl | exact h
  | direct a => cases op <;> first | rfl | exact h
  | disp8 b d => cases op <;> first | rfl | exact h
  | disp16 b d => cases op <;> first | rfl | exact h

/-- Two places of one width, not both segment registers, pass the pair check (R117). -/
theorem checkPair_same (op : BinOp) (operands : List OperandRec) (w : Width) (dst src : Place w)
    (h : pairOk dst src = true) : checkPair op operands w w dst src = .ok (op.checked w dst (.place src)) := by
  cases w <;> simp [checkPair, h]

/-! ### The range check, address by address -/

/-- An access fails the range check below 0 or past the end of the bank (R58). -/
theorem admitted_eq_false (memSize : Nat) (a : Int) (w : Width) :
    admitted memSize a w = false ↔ a < 0 ∨ (memSize : Int) < a + w.bytes := by
  simp only [admitted, Bool.and_eq_false_iff, decide_eq_false_iff_not, Int.not_le]

/-- A destination outside the bank is what the range check reports, whatever the source (R116). -/
theorem rangeViolation_of_destination {w : Width} {P : Config.Params} {dst : Place w} {r : Regs} {a : Int} (src : Source w)
    (h : Place.ea? r dst = some a) (ha : admitted P.memSize a w = false) : rangeViolation P dst src r = some a := by
  simp [rangeViolation, h, badAddress, ha]

/-- A source outside the bank is what the range check reports when the destination is inside it (R116). -/
theorem rangeViolation_of_source {w : Width} {P : Config.Params} {dst : Place w} {src : Source w} {r : Regs} {a : Int}
    (hd : Place.inBank P r dst = true) (h : Source.ea? r src = some a) (ha : admitted P.memSize a w = false) :
    rangeViolation P dst src r = some a := by
  have hn : badAddress P w (Place.ea? r dst) = none := by
    cases dst <;> simp_all [badAddress, Place.ea?, Place.inBank]
  rw [rangeViolation, hn]
  simp [h, badAddress, ha]

end Sys2Proof.Machine
end

