-- ==== Sys2Proof/Laws/Engine.lean ====
section
/-! SUPPORT. What each opcode can do, said once (an inversion lemma and an equation per shared operation), and the
checked form every byte-encoded instruction runs as: one equation per arm of `exec`. -/

namespace Sys2Proof.Machine

/-! ### The checks on a two-operand record -/

theorem checkBinary_places {P : Config.Params} {op : BinOp} {o0 o1 : OperandRec} {w : Width} {dst src : Place w}
    (h0 : shapeOf o0 = some (.place w dst)) (h1 : shapeOf o1 = some (.place w src))
    (hd : destinationOk P op dst = true) (hs : sourceOk op src = true) (hp : pairOk dst src = true) :
    checkBinary P op [o0, o1] = .ok (op.checked w dst (.place src)) := by
  simp [checkBinary, h0, h1, hd, hs, checkPair_same op _ w dst src hp]

theorem checkBinary_imm {P : Config.Params} {op : BinOp} {o0 : OperandRec} {w : Width} {dst : Place w} {v : Word}
    (h0 : shapeOf o0 = some (.place w dst)) (hd : destinationOk P op dst = true) (hseg : isSegment dst = false) :
    checkBinary P op [o0, .imm v] = .ok (op.checked w dst (.imm v)) := by
  simp [checkBinary, h0, hd, hseg]

/-- Every two-operand record that passes the shape check: its destination and source at one width, within the columns and
the pairing of the table (R117 part 2). -/
theorem checkBinary_eq_ok {P : Config.Params} {op : BinOp} {o0 o1 : OperandRec} {c : Checked}
    (h : checkBinary P op [o0, o1] = .ok c) :
    ∃ (w : Width) (dst : Place w) (src : Source w), c = op.checked w dst src ∧ shapeOf o0 = some (.place w dst) ∧
      destinationOk P op dst = true ∧
      ((∃ v, src = .imm v ∧ shapeOf o1 = some (.imm v) ∧ isSegment dst = false) ∨
       ∃ p, src = .place p ∧ shapeOf o1 = some (.place w p) ∧ sourceOk op p = true ∧ pairOk dst p = true) := by
  simp only [checkBinary] at h
  split at h
  · rename_i w dst h0
    split at h
    · rename_i hd
      split at h
      · cases h
      · rename_i v h1
        split at h
        · cases h
        · rename_i hseg
          cases h
          exact ⟨w, dst, .imm v, rfl, h0, hd, .inl ⟨v, rfl, h1, by simpa using hseg⟩⟩
      · rename_i w' src h1
        split at h
        · rename_i hs
          cases w <;> cases w' <;> simp only [checkPair] at h
          · cases h
            refine ⟨.byte, dst, .place src, rfl, h0, hd, .inr ⟨src, rfl, h1, hs, ?_⟩⟩
            cases dst <;> rfl
          · cases h
          · cases h
          · split at h
            · rename_i hp
              cases h
              exact ⟨.word, dst, .place src, rfl, h0, hd, .inr ⟨src, rfl, h1, hs, hp⟩⟩
            · cases h
        · cases h
    · cases h
  · cases h

/-- Every two-operand record that passes the shape check has two operands. -/
theorem checkBinary_ok_length {P : Config.Params} {op : BinOp} {operands : List OperandRec} {c : Checked}
    (h : checkBinary P op operands = .ok c) : ∃ o0 o1, operands = [o0, o1] := by
  unfold checkBinary at h
  split at h
  · exact ⟨_, _, rfl⟩
  · cases h

/-- A jump or loop record that passes the shape check has one immediate (R117 part 2). -/
theorem checkRelative_eq_ok {mk : Byte → Checked} {operands : List OperandRec} {c : Checked}
    (h : checkRelative mk operands = .ok c) : ∃ v, operands = [.imm v] ∧ c = mk (loByte v) := by
  unfold checkRelative at h
  split at h
  · cases h; exact ⟨_, rfl, rfl⟩
  · cases h
  · cases h

/-- A record that passes both parts of R117 runs its checked form. -/
theorem runRecord_of_checked {P : Config.Params} {rec : Record} {check : List OperandRec → Except (Option Nat) Checked}
    {c : Checked} (hop : shapeCheck P rec.op = .ok check) (hr : registerViolation rec.operands = none)
    (hc : check rec.operands = .ok c) (s : State) :
    runRecord P rec s = runChecked P s.ip c (s.advance rec.size) := by
  simp [runRecord, dispatch, hop, hr, hc]

/-! ### The opcodes: what each can do -/

/-- An operand outside the bank halts any of the four operations, destination first (R58, R116). -/
theorem runChecked_move_halt {P : Config.Params} {pos : Word} {w : Width} {dst : Place w} {src : Source w} {s : State}
    {a : Int} (h : rangeViolation P dst src s.regs = some a) :
    runChecked P pos (.move w dst src) s = s.raise (.addressOutOfRange pos a w) := by
  simp [runChecked, runMove, h]

theorem runChecked_arith_halt {P : Config.Params} {pos : Word} {op : ArithOp} {w : Width} {dst : Place w}
    {src : Source w} {s : State} {a : Int} (h : rangeViolation P dst src s.regs = some a) :
    runChecked P pos (.arith op w dst src) s = s.raise (.addressOutOfRange pos a w) := by
  cases op <;> simp [runChecked, runAdd, runSub, runCmp, h]

/-- With both operands in the bank, MOV writes the source's value (R170). -/
theorem runMove_eq {P : Config.Params} {pos : Word} {w : Width} {dst : Place w} {src : Source w} {s : State}
    (h : rangeViolation P dst src s.regs = none) :
    runMove P pos dst src s = Place.write s dst (Source.read s src) := by
  simp [runMove, h]

/-- With both operands in the bank, ADD writes the sum and the flags of AddFlags (R180). -/
theorem runAdd_eq {P : Config.Params} {pos : Word} {w : Width} {dst : Place w} {src : Source w} {s : State}
    (h : rangeViolation P dst src s.regs = none) :
    runAdd P pos dst src s =
      (Place.write s dst (Place.read s dst + Source.read s src)).setFlags
        (addFlags (Place.read s dst) (Source.read s src) s.flags) := by
  simp [runAdd, h]

/-- With both operands in the bank, SUB writes the difference and the flags of SubFlags (R181). -/
theorem runSub_eq {P : Config.Params} {pos : Word} {w : Width} {dst : Place w} {src : Source w} {s : State}
    (h : rangeViolation P dst src s.regs = none) :
    runSub P pos dst src s =
      (Place.write s dst (Place.read s dst - Source.read s src)).setFlags
        (subFlags (Place.read s dst) (Source.read s src) s.flags) := by
  simp [runSub, h]

/-- With both operands in the bank, CMP writes the flags of SubFlags (R182). -/
theorem runCmp_eq {P : Config.Params} {pos : Word} {w : Width} {dst : Place w} {src : Source w} {s : State}
    (h : rangeViolation P dst src s.regs = none) :
    runCmp P pos dst src s = s.setFlags (subFlags (Place.read s dst) (Source.read s src) s.flags) := by
  simp [runCmp, h]

/-- Everything MOV, ADD, SUB and CMP can do: an AddressOutOfRange halt, or, with both operands in the bank, a value
written to the destination or to nothing, and flags that keep DF, IF and TF. -/
theorem runChecked_data_cases (P : Config.Params) (pos : Word) {w : Width} (dst : Place w) (src : Source w)
    (s : State) (c : Checked) (hc : c = .move w dst src ∨ ∃ op, c = .arith op w dst src) :
    (∃ a, rangeViolation P dst src s.regs = some a ∧
      runChecked P pos c s = s.raise (.addressOutOfRange pos a w)) ∨
    (rangeViolation P dst src s.regs = none ∧
      ∃ f : Flags, (f.DF = s.flags.DF ∧ f.IF = s.flags.IF ∧ f.TF = s.flags.TF) ∧
        ((∃ v, runChecked P pos c s = (Place.write s dst v).setFlags f) ∨ runChecked P pos c s = s.setFlags f)) := by
  cases h : rangeViolation P dst src s.regs with
  | some a =>
    left
    refine ⟨a, rfl, ?_⟩
    rcases hc with rfl | ⟨op, rfl⟩
    · exact runChecked_move_halt h
    · exact runChecked_arith_halt h
  | none =>
    right
    refine ⟨rfl, ?_⟩
    rcases hc with rfl | ⟨op, rfl⟩
    · refine ⟨s.flags, ⟨rfl, rfl, rfl⟩, .inl ⟨Source.read s src, ?_⟩⟩
      have hf : (Place.write s dst (Source.read s src)).setFlags s.flags = Place.write s dst (Source.read s src) := by
        cases dst <;> rfl
      rw [hf]
      exact runMove_eq h
    · cases op with
      | add => exact ⟨addFlags (Place.read s dst) (Source.read s src) s.flags, ⟨rfl, rfl, rfl⟩, .inl ⟨_, runAdd_eq h⟩⟩
      | sub => exact ⟨subFlags (Place.read s dst) (Source.read s src) s.flags, ⟨rfl, rfl, rfl⟩, .inl ⟨_, runSub_eq h⟩⟩
      | cmp => exact ⟨subFlags (Place.read s dst) (Source.read s src) s.flags, ⟨rfl, rfl, rfl⟩, .inr (runCmp_eq h)⟩

/-- Everything a conditional jump can do (R192). -/
theorem runJump_cases (pos : Word) (c : Cond) (disp : Byte) (s : State) :
    (s.flags.holds c = false ∧ runJump pos c disp s = s) ∨
    (s.flags.holds c = true ∧ targetOk (branchTarget disp s) = true ∧
      runJump pos c disp s = s.setIp (BitVec.ofInt 16 (branchTarget disp s))) ∨
    (s.flags.holds c = true ∧ targetOk (branchTarget disp s) = false ∧
      runJump pos c disp s = s.raise (.branchTargetOutOfRange pos (branchTarget disp s))) := by
  cases hc : s.flags.holds c <;> cases ht : targetOk (branchTarget disp s) <;> simp [runJump, hc, ht]

/-- Everything a loop can do (R197 to R199). -/
theorem runLoop_cases (pos : Word) (nz : Bool) (disp : Byte) (s : State) :
    (loopTaken nz (s.cx - 1) s.flags = false ∧ runLoop pos nz disp s = s.setCx (s.cx - 1)) ∨
    (loopTaken nz (s.cx - 1) s.flags = true ∧ targetOk (branchTarget disp s) = true ∧
      runLoop pos nz disp s = (s.setCx (s.cx - 1)).setIp (BitVec.ofInt 16 (branchTarget disp s))) ∨
    (loopTaken nz (s.cx - 1) s.flags = true ∧ targetOk (branchTarget disp s) = false ∧
      runLoop pos nz disp s = s.raise (.branchTargetOutOfRange pos (branchTarget disp s))) := by
  cases hc : loopTaken nz (s.cx - 1) s.flags <;> cases ht : targetOk (branchTarget disp s) <;>
    simp only [runLoop, hc, ht] <;> simp

/-- Everything `runRecord` can do: one of the three halts of the checks, or the rule of a checked form, each after the
advance (R112 to R117). -/
theorem runRecord_cases (P : Config.Params) (rec : Record) (s : State) :
    (∃ t, rec.op = .other t ∧ runRecord P rec s = (s.advance rec.size).raise (.unimplementedOpcode s.ip t)) ∨
    (∃ k, registerViolation rec.operands = some k ∧
      runRecord P rec s = (s.advance rec.size).raise (.registerIndexViolation s.ip k)) ∨
    (∃ k, registerViolation rec.operands = none ∧
      runRecord P rec s = (s.advance rec.size).raise (.operandTypeMismatch s.ip k)) ∨
    (∃ check c, shapeCheck P rec.op = .ok check ∧ registerViolation rec.operands = none ∧
      check rec.operands = .ok c ∧ runRecord P rec s = runChecked P s.ip c (s.advance rec.size)) := by
  unfold runRecord dispatch
  split
  · rename_i t h
    left
    refine ⟨t, ?_, rfl⟩
    cases hop : rec.op <;> simp_all [shapeCheck]
  · rename_i check h
    right
    split
    · rename_i k hk; exact .inl ⟨k, hk, rfl⟩
    · rename_i hr
      right
      split
      · rename_i c hc; exact .inr ⟨check, c, h, hr, hc, rfl⟩
      · rename_i k hk; exact .inl ⟨k, hr, rfl⟩

/-! ### The checked form of every byte-encoded instruction -/

theorem exec_movRmR (w : Width) (rm : RM) (reg : RegCode) (s : State) :
    exec (.movRmR w rm reg) s =
      .next (runChecked Config.reference s.ip (.move w (rmPlace rm w) (.place (regPlace reg w)))
        (s.advance (2 + rm.dispBytes))) :=
  congrArg _ (runRecord_of_checked (rec := Instr.record (.movRmR w rm reg)) rfl
    (registerViolation_two _ _ (by simp) (by simp))
    (checkBinary_places (shapeOf_rmOperand rm w) (shapeOf_regOperand reg w) (destinationOk_rmPlace _ _ _ _ rfl) (by simp)
      (by simp [pairOk])) s)

theorem exec_movRRm (w : Width) (reg : RegCode) (rm : RM) (s : State) :
    exec (.movRRm w reg rm) s =
      .next (runChecked Config.reference s.ip (.move w (regPlace reg w) (.place (rmPlace rm w)))
        (s.advance (2 + rm.dispBytes))) :=
  congrArg _ (runRecord_of_checked (rec := Instr.record (.movRRm w reg rm)) rfl
    (registerViolation_two _ _ (by simp) (by simp))
    (checkBinary_places (shapeOf_regOperand reg w) (shapeOf_rmOperand rm w) (by simp) (by simp) (by simp [pairOk])) s)

theorem exec_movRmImm (rm : RM) (imm : Imm) (s : State) :
    exec (.movRmImm rm imm) s =
      .next (runChecked Config.reference s.ip (.move imm.width (rmPlace rm imm.width) (.imm imm.value))
        (s.advance (2 + rm.dispBytes + imm.width.bytes))) :=
  congrArg _ (runRecord_of_checked (rec := Instr.record (.movRmImm rm imm)) rfl
    (registerViolation_two _ _ (by simp) (by simp))
    (checkBinary_imm (shapeOf_rmOperand rm imm.width) (destinationOk_rmPlace _ _ _ _ rfl) (by simp)) s)

theorem exec_movRImm (reg : RegCode) (imm : Imm) (s : State) :
    exec (.movRImm reg imm) s =
      .next (runChecked Config.reference s.ip (.move imm.width (regPlace reg imm.width) (.imm imm.value))
        (s.advance (1 + imm.width.bytes))) :=
  congrArg _ (runRecord_of_checked (rec := Instr.record (.movRImm reg imm)) rfl
    (registerViolation_two _ _ (by simp) (by simp))
    (checkBinary_imm (shapeOf_regOperand reg imm.width) (by simp) (by simp)) s)

theorem exec_movAccAddr (w : Width) (addr : Word) (s : State) :
    exec (.movAccAddr w addr) s =
      .next (runChecked Config.reference s.ip (.move w (accPlace w) (.place (.mem [] addr.toNat)))
        (s.advance (3))) :=
  congrArg _ (runRecord_of_checked (rec := Instr.record (.movAccAddr w addr)) rfl
    (registerViolation_two _ _ (registersOk_regOperand .axAl w) (by simp))
    (checkBinary_places (shapeOf_regOperand .axAl w) (shapeOf_directOperand addr w) (by simp) rfl (by simp [pairOk])) s)

theorem exec_movAddrAcc (w : Width) (addr : Word) (s : State) :
    exec (.movAddrAcc w addr) s =
      .next (runChecked Config.reference s.ip (.move w (.mem [] addr.toNat) (.place (accPlace w)))
        (s.advance (3))) :=
  congrArg _ (runRecord_of_checked (rec := Instr.record (.movAddrAcc w addr)) rfl
    (registerViolation_two _ _ (by simp) (registersOk_regOperand .axAl w))
    (checkBinary_places (shapeOf_directOperand addr w) (shapeOf_regOperand .axAl w) rfl (by simp) (by simp [pairOk])) s)

theorem exec_movRm16Sreg (rm : RM) (sr : SReg) (s : State) :
    exec (.movRm16Sreg rm sr) s =
      .next (runChecked Config.reference s.ip (.move .word (rmPlace rm .word) (.place (.seg sr)))
        (s.advance (2 + rm.dispBytes))) :=
  congrArg _ (runRecord_of_checked (rec := Instr.record (.movRm16Sreg rm sr)) rfl
    (registerViolation_two _ _ (by simp) (by simp))
    (checkBinary_places (shapeOf_rmOperand rm .word) (shapeOf_sregOperand sr) (destinationOk_rmPlace _ _ _ _ rfl) rfl
      (by simp [pairOk])) s)

theorem exec_movSregRm16 (sr : SReg) (rm : RM) (s : State) :
    exec (.movSregRm16 sr rm) s =
      .next (runChecked Config.reference s.ip (.move .word (.seg sr) (.place (rmPlace rm .word)))
        (s.advance (2 + rm.dispBytes))) :=
  congrArg _ (runRecord_of_checked (rec := Instr.record (.movSregRm16 sr rm)) rfl
    (registerViolation_two _ _ (by simp) (by simp))
    (checkBinary_places (shapeOf_sregOperand sr) (shapeOf_rmOperand rm .word) rfl (by simp) (by simp [pairOk])) s)

theorem exec_addRmR (w : Width) (rm : RM) (reg : RegCode) (s : State) :
    exec (.addRmR w rm reg) s =
      .next (runChecked Config.reference s.ip (.arith .add w (rmPlace rm w) (.place (regPlace reg w)))
        (s.advance (2 + rm.dispBytes))) :=
  congrArg _ (runRecord_of_checked (rec := Instr.record (.addRmR w rm reg)) rfl
    (registerViolation_two _ _ (by simp) (by simp))
    (checkBinary_places (shapeOf_rmOperand rm w) (shapeOf_regOperand reg w) (destinationOk_rmPlace _ _ _ _ rfl) (by simp)
      (by simp [pairOk])) s)

theorem exec_addRRm (w : Width) (reg : RegCode) (rm : RM) (s : State) :
    exec (.addRRm w reg rm) s =
      .next (runChecked Config.reference s.ip (.arith .add w (regPlace reg w) (.place (rmPlace rm w)))
        (s.advance (2 + rm.dispBytes))) :=
  congrArg _ (runRecord_of_checked (rec := Instr.record (.addRRm w reg rm)) rfl
    (registerViolation_two _ _ (by simp) (by simp))
    (checkBinary_places (shapeOf_regOperand reg w) (shapeOf_rmOperand rm w) (by simp) (by simp) (by simp [pairOk])) s)

theorem exec_addRm8Imm8 (rm : RM) (imm : Byte) (s : State) :
    exec (.addRm8Imm8 rm imm) s =
      .next (runChecked Config.reference s.ip (.arith .add .byte (rmPlace rm .byte) (.imm (Imm.imm8 imm).value))
        (s.advance (2 + rm.dispBytes + 1))) :=
  congrArg _ (runRecord_of_checked (rec := Instr.record (.addRm8Imm8 rm imm)) rfl
    (registerViolation_two _ _ (by simp) (by simp))
    (checkBinary_imm (shapeOf_rmOperand rm .byte) (destinationOk_rmPlace _ _ _ _ rfl) (by simp)) s)

theorem exec_addRm16Imm16 (rm : RM) (imm : Word) (s : State) :
    exec (.addRm16Imm16 rm imm) s =
      .next (runChecked Config.reference s.ip (.arith .add .word (rmPlace rm .word) (.imm imm))
        (s.advance (2 + rm.dispBytes + 2))) :=
  congrArg _ (runRecord_of_checked (rec := Instr.record (.addRm16Imm16 rm imm)) rfl
    (registerViolation_two _ _ (by simp) (by simp))
    (checkBinary_imm (shapeOf_rmOperand rm .word) (destinationOk_rmPlace _ _ _ _ rfl) (by simp)) s)

theorem exec_addRm16Simm8 (rm : RM) (imm : Byte) (s : State) :
    exec (.addRm16Simm8 rm imm) s =
      .next (runChecked Config.reference s.ip (.arith .add .word (rmPlace rm .word) (.imm (imm.signExtend 16)))
        (s.advance (2 + rm.dispBytes + 1))) :=
  congrArg _ (runRecord_of_checked (rec := Instr.record (.addRm16Simm8 rm imm)) rfl
    (registerViolation_two _ _ (by simp) (by simp))
    (checkBinary_imm (shapeOf_rmOperand rm .word) (destinationOk_rmPlace _ _ _ _ rfl) (by simp)) s)

theorem exec_addAccImm (imm : Imm) (s : State) :
    exec (.addAccImm imm) s =
      .next (runChecked Config.reference s.ip (.arith .add imm.width (accPlace imm.width) (.imm imm.value))
        (s.advance (1 + imm.width.bytes))) :=
  congrArg _ (runRecord_of_checked (rec := Instr.record (.addAccImm imm)) rfl
    (registerViolation_two _ _ (registersOk_regOperand .axAl imm.width) (by simp))
    (checkBinary_imm (shapeOf_regOperand .axAl imm.width) (destinationOk_regPlace _ _ .axAl _) (isSegment_regPlace .axAl _)) s)

theorem exec_subRmR (w : Width) (rm : RM) (reg : RegCode) (s : State) :
    exec (.subRmR w rm reg) s =
      .next (runChecked Config.reference s.ip (.arith .sub w (rmPlace rm w) (.place (regPlace reg w)))
        (s.advance (2 + rm.dispBytes))) :=
  congrArg _ (runRecord_of_checked (rec := Instr.record (.subRmR w rm reg)) rfl
    (registerViolation_two _ _ (by simp) (by simp))
    (checkBinary_places (shapeOf_rmOperand rm w) (shapeOf_regOperand reg w) (destinationOk_rmPlace _ _ _ _ rfl) (by simp)
      (by simp [pairOk])) s)

theorem exec_subRRm (w : Width) (reg : RegCode) (rm : RM) (s : State) :
    exec (.subRRm w reg rm) s =
      .next (runChecked Config.reference s.ip (.arith .sub w (regPlace reg w) (.place (rmPlace rm w)))
        (s.advance (2 + rm.dispBytes))) :=
  congrArg _ (runRecord_of_checked (rec := Instr.record (.subRRm w reg rm)) rfl
    (registerViolation_two _ _ (by simp) (by simp))
    (checkBinary_places (shapeOf_regOperand reg w) (shapeOf_rmOperand rm w) (by simp) (by simp) (by simp [pairOk])) s)

theorem exec_subRm8Imm8 (rm : RM) (imm : Byte) (s : State) :
    exec (.subRm8Imm8 rm imm) s =
      .next (runChecked Config.reference s.ip (.arith .sub .byte (rmPlace rm .byte) (.imm (Imm.imm8 imm).value))
        (s.advance (2 + rm.dispBytes + 1))) :=
  congrArg _ (runRecord_of_checked (rec := Instr.record (.subRm8Imm8 rm imm)) rfl
    (registerViolation_two _ _ (by simp) (by simp))
    (checkBinary_imm (shapeOf_rmOperand rm .byte) (destinationOk_rmPlace _ _ _ _ rfl) (by simp)) s)

theorem exec_subRm16Imm16 (rm : RM) (imm : Word) (s : State) :
    exec (.subRm16Imm16 rm imm) s =
      .next (runChecked Config.reference s.ip (.arith .sub .word (rmPlace rm .word) (.imm imm))
        (s.advance (2 + rm.dispBytes + 2))) :=
  congrArg _ (runRecord_of_checked (rec := Instr.record (.subRm16Imm16 rm imm)) rfl
    (registerViolation_two _ _ (by simp) (by simp))
    (checkBinary_imm (shapeOf_rmOperand rm .word) (destinationOk_rmPlace _ _ _ _ rfl) (by simp)) s)

theorem exec_subRm16Simm8 (rm : RM) (imm : Byte) (s : State) :
    exec (.subRm16Simm8 rm imm) s =
      .next (runChecked Config.reference s.ip (.arith .sub .word (rmPlace rm .word) (.imm (imm.signExtend 16)))
        (s.advance (2 + rm.dispBytes + 1))) :=
  congrArg _ (runRecord_of_checked (rec := Instr.record (.subRm16Simm8 rm imm)) rfl
    (registerViolation_two _ _ (by simp) (by simp))
    (checkBinary_imm (shapeOf_rmOperand rm .word) (destinationOk_rmPlace _ _ _ _ rfl) (by simp)) s)

theorem exec_subAccImm (imm : Imm) (s : State) :
    exec (.subAccImm imm) s =
      .next (runChecked Config.reference s.ip (.arith .sub imm.width (accPlace imm.width) (.imm imm.value))
        (s.advance (1 + imm.width.bytes))) :=
  congrArg _ (runRecord_of_checked (rec := Instr.record (.subAccImm imm)) rfl
    (registerViolation_two _ _ (registersOk_regOperand .axAl imm.width) (by simp))
    (checkBinary_imm (shapeOf_regOperand .axAl imm.width) (destinationOk_regPlace _ _ .axAl _) (isSegment_regPlace .axAl _)) s)

theorem exec_cmpRmR (w : Width) (rm : RM) (reg : RegCode) (s : State) :
    exec (.cmpRmR w rm reg) s =
      .next (runChecked Config.reference s.ip (.arith .cmp w (rmPlace rm w) (.place (regPlace reg w)))
        (s.advance (2 + rm.dispBytes))) :=
  congrArg _ (runRecord_of_checked (rec := Instr.record (.cmpRmR w rm reg)) rfl
    (registerViolation_two _ _ (by simp) (by simp))
    (checkBinary_places (shapeOf_rmOperand rm w) (shapeOf_regOperand reg w) (destinationOk_rmPlace _ _ _ _ rfl) (by simp)
      (by simp [pairOk])) s)

theorem exec_cmpRRm (w : Width) (reg : RegCode) (rm : RM) (s : State) :
    exec (.cmpRRm w reg rm) s =
      .next (runChecked Config.reference s.ip (.arith .cmp w (regPlace reg w) (.place (rmPlace rm w)))
        (s.advance (2 + rm.dispBytes))) :=
  congrArg _ (runRecord_of_checked (rec := Instr.record (.cmpRRm w reg rm)) rfl
    (registerViolation_two _ _ (by simp) (by simp))
    (checkBinary_places (shapeOf_regOperand reg w) (shapeOf_rmOperand rm w) (by simp) (by simp) (by simp [pairOk])) s)

theorem exec_cmpRm8Imm8 (rm : RM) (imm : Byte) (s : State) :
    exec (.cmpRm8Imm8 rm imm) s =
      .next (runChecked Config.reference s.ip (.arith .cmp .byte (rmPlace rm .byte) (.imm (Imm.imm8 imm).value))
        (s.advance (2 + rm.dispBytes + 1))) :=
  congrArg _ (runRecord_of_checked (rec := Instr.record (.cmpRm8Imm8 rm imm)) rfl
    (registerViolation_two _ _ (by simp) (by simp))
    (checkBinary_imm (shapeOf_rmOperand rm .byte) (destinationOk_rmPlace _ _ _ _ rfl) (by simp)) s)

theorem exec_cmpRm16Imm16 (rm : RM) (imm : Word) (s : State) :
    exec (.cmpRm16Imm16 rm imm) s =
      .next (runChecked Config.reference s.ip (.arith .cmp .word (rmPlace rm .word) (.imm imm))
        (s.advance (2 + rm.dispBytes + 2))) :=
  congrArg _ (runRecord_of_checked (rec := Instr.record (.cmpRm16Imm16 rm imm)) rfl
    (registerViolation_two _ _ (by simp) (by simp))
    (checkBinary_imm (shapeOf_rmOperand rm .word) (destinationOk_rmPlace _ _ _ _ rfl) (by simp)) s)

theorem exec_cmpRm16Simm8 (rm : RM) (imm : Byte) (s : State) :
    exec (.cmpRm16Simm8 rm imm) s =
      .next (runChecked Config.reference s.ip (.arith .cmp .word (rmPlace rm .word) (.imm (imm.signExtend 16)))
        (s.advance (2 + rm.dispBytes + 1))) :=
  congrArg _ (runRecord_of_checked (rec := Instr.record (.cmpRm16Simm8 rm imm)) rfl
    (registerViolation_two _ _ (by simp) (by simp))
    (checkBinary_imm (shapeOf_rmOperand rm .word) (destinationOk_rmPlace _ _ _ _ rfl) (by simp)) s)

theorem exec_cmpAccImm (imm : Imm) (s : State) :
    exec (.cmpAccImm imm) s =
      .next (runChecked Config.reference s.ip (.arith .cmp imm.width (accPlace imm.width) (.imm imm.value))
        (s.advance (1 + imm.width.bytes))) :=
  congrArg _ (runRecord_of_checked (rec := Instr.record (.cmpAccImm imm)) rfl
    (registerViolation_two _ _ (registersOk_regOperand .axAl imm.width) (by simp))
    (checkBinary_imm (shapeOf_regOperand .axAl imm.width) (destinationOk_regPlace _ _ .axAl _) (isSegment_regPlace .axAl _)) s)

/-- The displacement bits survive the sign extension to 16 bits (R88, R191). -/
@[simp] theorem loByte_signExtend (rel : Byte) : loByte (rel.signExtend 16) = rel := by
  revert rel; decide

theorem exec_jneRel8 (rel : Byte) (s : State) :
    exec (.jneRel8 rel) s = .next (runChecked Config.reference s.ip (.jump .ne rel) (s.advance 2)) :=
  congrArg _ (runRecord_of_checked (rec := Instr.record (.jneRel8 rel)) rfl rfl
    (by simp [Instr.record, recRel8, checkRelative]) s)

theorem exec_jeRel8 (rel : Byte) (s : State) :
    exec (.jeRel8 rel) s = .next (runChecked Config.reference s.ip (.jump .e rel) (s.advance 2)) :=
  congrArg _ (runRecord_of_checked (rec := Instr.record (.jeRel8 rel)) rfl rfl
    (by simp [Instr.record, recRel8, checkRelative]) s)

theorem exec_jbRel8 (rel : Byte) (s : State) :
    exec (.jbRel8 rel) s = .next (runChecked Config.reference s.ip (.jump .b rel) (s.advance 2)) :=
  congrArg _ (runRecord_of_checked (rec := Instr.record (.jbRel8 rel)) rfl rfl
    (by simp [Instr.record, recRel8, checkRelative]) s)

theorem exec_jpRel8 (rel : Byte) (s : State) :
    exec (.jpRel8 rel) s = .next (runChecked Config.reference s.ip (.jump .p rel) (s.advance 2)) :=
  congrArg _ (runRecord_of_checked (rec := Instr.record (.jpRel8 rel)) rfl rfl
    (by simp [Instr.record, recRel8, checkRelative]) s)

theorem exec_loopRel8 (rel : Byte) (s : State) :
    exec (.loopRel8 rel) s = .next (runChecked Config.reference s.ip (.loop false rel) (s.advance 2)) :=
  congrArg _ (runRecord_of_checked (rec := Instr.record (.loopRel8 rel)) rfl rfl
    (by simp [Instr.record, recRel8, checkRelative]) s)

theorem exec_loopnzRel8 (rel : Byte) (s : State) :
    exec (.loopnzRel8 rel) s = .next (runChecked Config.reference s.ip (.loop true rel) (s.advance 2)) :=
  congrArg _ (runRecord_of_checked (rec := Instr.record (.loopnzRel8 rel)) rfl rfl
    (by simp [Instr.record, recRel8, checkRelative]) s)

end Sys2Proof.Machine
end

