-- ==== Sys2Proof/Laws/PerInstr.lean ====
section
/-! SUPPORT. The family `Admitted`: what holds of every instruction as syntax. -/

namespace Sys2Proof.Laws.Admitted

/-- An instruction takes 2 to 6 bytes, as many as its record says, and its first two bytes match its row of the opcode
table (30_encoding.md R71, R80). It holds of the ill-formed terms too. -/
def Statement (i : Instr) : Prop :=
  (encode i).length = i.size ∧ 2 ≤ i.size ∧ i.size ≤ 6 ∧
    ∃ b0 b1 tl, encode i = b0 :: b1 :: tl ∧ i.row.matchesKey (keyOf b0 b1) = true

/-- An encoding that begins with two given bytes. -/
theorem of_bytes {i : Instr} {b0 b1 : Byte} {tl : List Byte} (he : encode i = b0 :: b1 :: tl)
    (hs : i.size = 2 + tl.length) (hl : tl.length ≤ 4) (hm : i.row.matchesKey (keyOf b0 b1) = true) : Statement i :=
  ⟨by rw [he, hs]; simp only [List.length_cons]; omega, by omega, by omega, b0, b1, tl, he, hm⟩

theorem movRmR (w : Width) (rm : RM) (reg : RegCode) : Statement (.movRmR w rm reg) := by
  obtain ⟨b1, tl, he, _, hl⟩ := encode_rm rm reg.bits
  exact of_bytes (by simp only [encode]; rw [he]) (by simp [Instr.size, Instr.record, recRmR, hl])
    (by have := rm.dispBytes_le; omega) (matchesKey_movRmR w b1)

theorem movRRm (w : Width) (reg : RegCode) (rm : RM) : Statement (.movRRm w reg rm) := by
  obtain ⟨b1, tl, he, _, hl⟩ := encode_rm rm reg.bits
  exact of_bytes (by simp only [encode]; rw [he]) (by simp [Instr.size, Instr.record, recRRm, hl])
    (by have := rm.dispBytes_le; omega) (matchesKey_movRRm w b1)

theorem addRmR (w : Width) (rm : RM) (reg : RegCode) : Statement (.addRmR w rm reg) := by
  obtain ⟨b1, tl, he, _, hl⟩ := encode_rm rm reg.bits
  exact of_bytes (by simp only [encode]; rw [he]) (by simp [Instr.size, Instr.record, recRmR, hl])
    (by have := rm.dispBytes_le; omega) (matchesKey_addRmR w b1)

theorem addRRm (w : Width) (reg : RegCode) (rm : RM) : Statement (.addRRm w reg rm) := by
  obtain ⟨b1, tl, he, _, hl⟩ := encode_rm rm reg.bits
  exact of_bytes (by simp only [encode]; rw [he]) (by simp [Instr.size, Instr.record, recRRm, hl])
    (by have := rm.dispBytes_le; omega) (matchesKey_addRRm w b1)

theorem subRmR (w : Width) (rm : RM) (reg : RegCode) : Statement (.subRmR w rm reg) := by
  obtain ⟨b1, tl, he, _, hl⟩ := encode_rm rm reg.bits
  exact of_bytes (by simp only [encode]; rw [he]) (by simp [Instr.size, Instr.record, recRmR, hl])
    (by have := rm.dispBytes_le; omega) (matchesKey_subRmR w b1)

theorem subRRm (w : Width) (reg : RegCode) (rm : RM) : Statement (.subRRm w reg rm) := by
  obtain ⟨b1, tl, he, _, hl⟩ := encode_rm rm reg.bits
  exact of_bytes (by simp only [encode]; rw [he]) (by simp [Instr.size, Instr.record, recRRm, hl])
    (by have := rm.dispBytes_le; omega) (matchesKey_subRRm w b1)

theorem cmpRmR (w : Width) (rm : RM) (reg : RegCode) : Statement (.cmpRmR w rm reg) := by
  obtain ⟨b1, tl, he, _, hl⟩ := encode_rm rm reg.bits
  exact of_bytes (by simp only [encode]; rw [he]) (by simp [Instr.size, Instr.record, recRmR, hl])
    (by have := rm.dispBytes_le; omega) (matchesKey_cmpRmR w b1)

theorem cmpRRm (w : Width) (reg : RegCode) (rm : RM) : Statement (.cmpRRm w reg rm) := by
  obtain ⟨b1, tl, he, _, hl⟩ := encode_rm rm reg.bits
  exact of_bytes (by simp only [encode]; rw [he]) (by simp [Instr.size, Instr.record, recRRm, hl])
    (by have := rm.dispBytes_le; omega) (matchesKey_cmpRRm w b1)

theorem movRmImm (rm : RM) (imm : Imm) : Statement (.movRmImm rm imm) := by
  obtain ⟨b1, tl, he, hr, hl⟩ := encode_rm rm 0b000
  have hi := length_encode_imm imm
  exact of_bytes (tl := tl ++ imm.encode) (by simp only [encode]; rw [he]; rfl)
    (by simp [Instr.size, Instr.record, recRmImm, hl, hi]; omega)
    (by have := rm.dispBytes_le; have := imm.width.bytes_le; rw [List.length_append]; omega)
    (matchesKey_movRmImm imm.width b1 hr)

theorem movRImm (reg : RegCode) (imm : Imm) : Statement (.movRImm reg imm) := by
  obtain ⟨b, tl, he⟩ := encode_imm_cons imm
  have hi := length_encode_imm imm
  rw [he, List.length_cons] at hi
  exact of_bytes (by simp only [encode]; rw [he]) (by simp [Instr.size, Instr.record, recRImm, ← hi]; omega)
    (by have := imm.width.bytes_le; omega) (matchesKey_movRImm imm.width reg.bits b)

theorem movAccAddr (w : Width) (addr : Word) : Statement (.movAccAddr w addr) :=
  of_bytes rfl rfl (by simp) (matchesKey_movAccAddr w _)

theorem movAddrAcc (w : Width) (addr : Word) : Statement (.movAddrAcc w addr) :=
  of_bytes rfl rfl (by simp) (matchesKey_movAddrAcc w _)

theorem movRm16Sreg (rm : RM) (sr : SReg) : Statement (.movRm16Sreg rm sr) := by
  obtain ⟨b1, tl, he, hr, hl⟩ := encode_rm rm ((0 : BitVec 1) ++ sr.bits)
  exact of_bytes (by simp only [encode]; rw [he]) (by simp [Instr.size, Instr.record, recRmSreg, hl])
    (by have := rm.dispBytes_le; omega) (matchesKey_movRm16Sreg sr b1 hr)

theorem movSregRm16 (sr : SReg) (rm : RM) : Statement (.movSregRm16 sr rm) := by
  obtain ⟨b1, tl, he, hr, hl⟩ := encode_rm rm ((0 : BitVec 1) ++ sr.bits)
  exact of_bytes (by simp only [encode]; rw [he]) (by simp [Instr.size, Instr.record, recSregRm, hl])
    (by have := rm.dispBytes_le; omega) (matchesKey_movSregRm16 sr b1 hr)

theorem addRm8Imm8 (rm : RM) (imm : Byte) : Statement (.addRm8Imm8 rm imm) := by
  obtain ⟨b1, tl, he, hr, hl⟩ := encode_rm rm 0b000
  have hi : ([imm]).length = 1 := rfl
  exact of_bytes (tl := tl ++ [imm]) (by simp only [encode]; rw [he]; rfl)
    (by rw [List.length_append, hi, hl]; simp only [Instr.size, Instr.record, recRmImm, Imm.width, Width.bytes]; omega)
    (by have := rm.dispBytes_le; rw [List.length_append, hi, hl]; omega) (matchesKey_addRm8Imm8 b1 hr)

theorem addRm16Imm16 (rm : RM) (imm : Word) : Statement (.addRm16Imm16 rm imm) := by
  obtain ⟨b1, tl, he, hr, hl⟩ := encode_rm rm 0b000
  have hi : (wordBytes imm).length = 2 := rfl
  exact of_bytes (tl := tl ++ wordBytes imm) (by simp only [encode]; rw [he]; rfl)
    (by rw [List.length_append, hi, hl]; simp only [Instr.size, Instr.record, recRmImm, Imm.width, Width.bytes]; omega)
    (by have := rm.dispBytes_le; rw [List.length_append, hi, hl]; omega) (matchesKey_addRm16Imm16 b1 hr)

theorem addRm16Simm8 (rm : RM) (imm : Byte) : Statement (.addRm16Simm8 rm imm) := by
  obtain ⟨b1, tl, he, hr, hl⟩ := encode_rm rm 0b000
  have hi : ([imm]).length = 1 := rfl
  exact of_bytes (tl := tl ++ [imm]) (by simp only [encode]; rw [he]; rfl)
    (by rw [List.length_append, hi, hl]; simp only [Instr.size, Instr.record, recRmSimm8]; omega)
    (by have := rm.dispBytes_le; rw [List.length_append, hi, hl]; omega) (matchesKey_addRm16Simm8 b1 hr)

theorem addAccImm (imm : Imm) : Statement (.addAccImm imm) := by
  obtain ⟨b, tl, he⟩ := encode_imm_cons imm
  have hi := length_encode_imm imm
  rw [he, List.length_cons] at hi
  exact of_bytes (by simp only [encode]; rw [he]) (by simp [Instr.size, Instr.record, recAccImm, ← hi]; omega)
    (by have := imm.width.bytes_le; omega) (matchesKey_addAccImm imm.width b)

theorem subRm8Imm8 (rm : RM) (imm : Byte) : Statement (.subRm8Imm8 rm imm) := by
  obtain ⟨b1, tl, he, hr, hl⟩ := encode_rm rm 0b101
  have hi : ([imm]).length = 1 := rfl
  exact of_bytes (tl := tl ++ [imm]) (by simp only [encode]; rw [he]; rfl)
    (by rw [List.length_append, hi, hl]; simp only [Instr.size, Instr.record, recRmImm, Imm.width, Width.bytes]; omega)
    (by have := rm.dispBytes_le; rw [List.length_append, hi, hl]; omega) (matchesKey_subRm8Imm8 b1 hr)

theorem subRm16Imm16 (rm : RM) (imm : Word) : Statement (.subRm16Imm16 rm imm) := by
  obtain ⟨b1, tl, he, hr, hl⟩ := encode_rm rm 0b101
  have hi : (wordBytes imm).length = 2 := rfl
  exact of_bytes (tl := tl ++ wordBytes imm) (by simp only [encode]; rw [he]; rfl)
    (by rw [List.length_append, hi, hl]; simp only [Instr.size, Instr.record, recRmImm, Imm.width, Width.bytes]; omega)
    (by have := rm.dispBytes_le; rw [List.length_append, hi, hl]; omega) (matchesKey_subRm16Imm16 b1 hr)

theorem subRm16Simm8 (rm : RM) (imm : Byte) : Statement (.subRm16Simm8 rm imm) := by
  obtain ⟨b1, tl, he, hr, hl⟩ := encode_rm rm 0b101
  have hi : ([imm]).length = 1 := rfl
  exact of_bytes (tl := tl ++ [imm]) (by simp only [encode]; rw [he]; rfl)
    (by rw [List.length_append, hi, hl]; simp only [Instr.size, Instr.record, recRmSimm8]; omega)
    (by have := rm.dispBytes_le; rw [List.length_append, hi, hl]; omega) (matchesKey_subRm16Simm8 b1 hr)

theorem subAccImm (imm : Imm) : Statement (.subAccImm imm) := by
  obtain ⟨b, tl, he⟩ := encode_imm_cons imm
  have hi := length_encode_imm imm
  rw [he, List.length_cons] at hi
  exact of_bytes (by simp only [encode]; rw [he]) (by simp [Instr.size, Instr.record, recAccImm, ← hi]; omega)
    (by have := imm.width.bytes_le; omega) (matchesKey_subAccImm imm.width b)

theorem cmpRm8Imm8 (rm : RM) (imm : Byte) : Statement (.cmpRm8Imm8 rm imm) := by
  obtain ⟨b1, tl, he, hr, hl⟩ := encode_rm rm 0b111
  have hi : ([imm]).length = 1 := rfl
  exact of_bytes (tl := tl ++ [imm]) (by simp only [encode]; rw [he]; rfl)
    (by rw [List.length_append, hi, hl]; simp only [Instr.size, Instr.record, recRmImm, Imm.width, Width.bytes]; omega)
    (by have := rm.dispBytes_le; rw [List.length_append, hi, hl]; omega) (matchesKey_cmpRm8Imm8 b1 hr)

theorem cmpRm16Imm16 (rm : RM) (imm : Word) : Statement (.cmpRm16Imm16 rm imm) := by
  obtain ⟨b1, tl, he, hr, hl⟩ := encode_rm rm 0b111
  have hi : (wordBytes imm).length = 2 := rfl
  exact of_bytes (tl := tl ++ wordBytes imm) (by simp only [encode]; rw [he]; rfl)
    (by rw [List.length_append, hi, hl]; simp only [Instr.size, Instr.record, recRmImm, Imm.width, Width.bytes]; omega)
    (by have := rm.dispBytes_le; rw [List.length_append, hi, hl]; omega) (matchesKey_cmpRm16Imm16 b1 hr)

theorem cmpRm16Simm8 (rm : RM) (imm : Byte) : Statement (.cmpRm16Simm8 rm imm) := by
  obtain ⟨b1, tl, he, hr, hl⟩ := encode_rm rm 0b111
  have hi : ([imm]).length = 1 := rfl
  exact of_bytes (tl := tl ++ [imm]) (by simp only [encode]; rw [he]; rfl)
    (by rw [List.length_append, hi, hl]; simp only [Instr.size, Instr.record, recRmSimm8]; omega)
    (by have := rm.dispBytes_le; rw [List.length_append, hi, hl]; omega) (matchesKey_cmpRm16Simm8 b1 hr)

theorem cmpAccImm (imm : Imm) : Statement (.cmpAccImm imm) := by
  obtain ⟨b, tl, he⟩ := encode_imm_cons imm
  have hi := length_encode_imm imm
  rw [he, List.length_cons] at hi
  exact of_bytes (by simp only [encode]; rw [he]) (by simp [Instr.size, Instr.record, recAccImm, ← hi]; omega)
    (by have := imm.width.bytes_le; omega) (matchesKey_cmpAccImm imm.width b)

theorem jneRel8 (rel : Byte) : Statement (.jneRel8 rel) :=
  of_bytes rfl rfl (by simp) (matchesKey_jneRel8 rel)

theorem jeRel8 (rel : Byte) : Statement (.jeRel8 rel) :=
  of_bytes rfl rfl (by simp) (matchesKey_jeRel8 rel)

theorem jbRel8 (rel : Byte) : Statement (.jbRel8 rel) :=
  of_bytes rfl rfl (by simp) (matchesKey_jbRel8 rel)

theorem jpRel8 (rel : Byte) : Statement (.jpRel8 rel) :=
  of_bytes rfl rfl (by simp) (matchesKey_jpRel8 rel)

theorem loopRel8 (rel : Byte) : Statement (.loopRel8 rel) :=
  of_bytes rfl rfl (by simp) (matchesKey_loopRel8 rel)

theorem loopnzRel8 (rel : Byte) : Statement (.loopnzRel8 rel) :=
  of_bytes rfl rfl (by simp) (matchesKey_loopnzRel8 rel)

end Sys2Proof.Laws.Admitted
end

