-- ==== Sys2Proof/Laws/Step.lean ====
section
/-! SUPPORT. What a fetch finds and what a step can do (40_dispatch.md R111 to R115). -/

namespace Sys2Proof.Machine

@[simp] theorem length_window (s : State) : s.window.length = s.progLen - s.ip.toNat := by
  simp [State.window]

/-- What a fetch finds (R111, R112, R115). -/
theorem fetch_cases (s : State) :
    (s.run ≠ .running ∧ s.fetch = .halted) ∨
    (s.run = .running ∧ s.progLen ≤ s.ip.toNat ∧ s.fetch = .endOfProgram) ∨
    (s.run = .running ∧ s.ip.toNat < s.progLen ∧
      ((∃ i n, decode s.window = .instr i n ∧ s.fetch = .instr i) ∨
       (decode s.window = .noInstruction ∧ s.fetch = .noInstruction) ∨
       (decode s.window = .notAdmitted ∧
         (s.fetch = .noInstruction ∨
          ∃ t n, 1 ≤ n ∧ n ≤ s.progLen - s.ip.toNat ∧ Config.decodeClass s.window = .unimplemented t n ∧
            s.fetch = .unimplemented t n)))) := by
  cases hr : s.run with
  | haltedClean => exact .inl ⟨by simp, by simp [State.fetch, hr]⟩
  | haltedError r => exact .inl ⟨by simp, by simp [State.fetch, hr]⟩
  | running =>
    by_cases ha : s.progLen ≤ s.ip.toNat
    · exact .inr (.inl ⟨rfl, ha, by simp [State.fetch, hr, State.atEnd, ha]⟩)
    · refine .inr (.inr ⟨rfl, by omega, ?_⟩)
      cases hd : decode s.window with
      | instr i n => exact .inl ⟨i, n, rfl, by simp [State.fetch, hr, State.atEnd, ha, hd]⟩
      | noInstruction => exact .inr (.inl ⟨rfl, by simp [State.fetch, hr, State.atEnd, ha, hd]⟩)
      | notAdmitted =>
        refine .inr (.inr ⟨rfl, ?_⟩)
        cases hc : Config.decodeClass s.window with
        | decodeFailure => exact .inl (by simp [State.fetch, hr, State.atEnd, ha, hd, hc])
        | unimplemented t n =>
          by_cases hn : 1 ≤ n ∧ n ≤ s.progLen - s.ip.toNat
          · exact .inr ⟨t, n, hn.1, hn.2, rfl, by simp [State.fetch, hr, State.atEnd, ha, hd, hc, hn]⟩
          · exact .inl (by simp [State.fetch, hr, State.atEnd, ha, hd, hc, hn])

/-- A fetched instruction is run. -/
theorem step_of_instr {s : State} {i : Instr} (h : s.fetch = .instr i) : step s = exec i s := by
  simp [step, h]

/-- A step that answers a next state is a clean halt, an instruction, or one of the two halts of a failed fetch. -/
theorem step_next_cases {s t : State} (h : step s = .next t) :
    (s.fetch = .endOfProgram ∧ t = s.haltClean) ∨ (∃ i, s.fetch = .instr i ∧ exec i s = .next t) ∨
    (∃ name n, s.fetch = .unimplemented name n ∧ t = (s.advance n).raise (.unimplementedOpcode s.ip name)) ∨
    (s.fetch = .noInstruction ∧ t = s.raise (.decodeFailure s.ip)) := by
  unfold step at h
  split at h
  · cases h
  · rename_i hf; cases h; exact .inl ⟨hf, rfl⟩
  · rename_i i hf; exact .inr (.inl ⟨i, hf, h⟩)
  · rename_i name n hf; cases h; exact .inr (.inr (.inl ⟨name, n, hf, rfl⟩))
  · rename_i hf; cases h; exact .inr (.inr (.inr ⟨hf, rfl⟩))

/-- Placing bytes at `ip` changes the memory, the program length and the run only. -/
@[simp] theorem placeAtIp_regs (P : Config.Params) (s : State) (bs : List Byte) : (s.placeAtIp P bs).regs = s.regs := rfl

@[simp] theorem placeAtIp_flags (P : Config.Params) (s : State) (bs : List Byte) :
    (s.placeAtIp P bs).flags = s.flags := rfl

@[simp] theorem placeAtIp_run (P : Config.Params) (s : State) (bs : List Byte) : (s.placeAtIp P bs).run = .running := rfl

end Sys2Proof.Machine
end

