-- ==== Sys2Proof/Tests/Slice0.lean ====
section
/-! SUPPORT. The model's own tests: words written out from the encoding tables of 30_encoding.md, single steps whose
expected values are those of 95_test_vectors.md (or worked out by hand from the rule named), the WellFormed smoke tests,
and, for every statement with hypotheses, a witness that meets them. -/

namespace Sys2Proof.Tests

open Sys2Proof.Machine

/-! ### Helpers -/

/-- A state with these bytes at `ip` and nothing after them: the start state of a vector (95_test_vectors.md). -/
def prog (s : State) (bytes : List Byte) : State :=
  { s with mem := s.mem.writeBytes s.ip.toNat bytes, progLen := s.ip.toNat + bytes.length }

/-- The reset state with other registers. -/
def withRegs (r : Regs) : State := { State.reset with regs := r }

/-- The reset register file, to be varied. -/
abbrev r0 : Regs := Regs.reset

/-- The reset flags, to be varied. -/
abbrev f0 : Flags := Flags.reset

/-- The next state of an outcome. -/
def nextOf : Host.Outcome State Fault Refusal → Option State
  | .next t => some t
  | .fault _ => none
  | .refused _ => none

/-- The state after one step. -/
def after (s : State) : Option State := nextOf (step s)

/-- The flags in the order of the vectors: OF SF ZF AF PF CF. -/
def six (t : State) : List Nat :=
  [t.flags.OF, t.flags.SF, t.flags.ZF, t.flags.AF, t.flags.PF, t.flags.CF].map Bool.toNat

/-- What an arithmetic vector shows: a register, `ip` and the six flags. -/
def shows (g : GReg) (t : State) : Word × Word × List Nat := (t.regs.getGen g, t.ip, six t)

/-! ### WellFormed refuses `[bp]` with mod = 00, and nothing else (R86) -/

theorem test_wf_rm : RM.wellFormed (.ind .bp) = false ∧ RM.wellFormed (.disp8 .bp 0) = true ∧
    RM.wellFormed (.ind .bx) = true ∧ RM.wellFormed (.direct 0) = true := by decide

theorem test_wf_mov : Instr.wellFormed (.movRmR .byte (.ind .bp) .axAl) = false ∧
    Instr.wellFormed (.movRRm .word .axAl (.ind .bp)) = false ∧
    Instr.wellFormed (.movRmImm (.ind .bp) (.imm8 0)) = false ∧
    Instr.wellFormed (.movRm16Sreg (.ind .bp) .es) = false ∧
    Instr.wellFormed (.movSregRm16 .es (.ind .bp)) = false := by decide

theorem test_wf_add : Instr.wellFormed (.addRmR .byte (.ind .bp) .axAl) = false ∧
    Instr.wellFormed (.addRRm .word .axAl (.ind .bp)) = false ∧
    Instr.wellFormed (.addRm8Imm8 (.ind .bp) 0) = false ∧ Instr.wellFormed (.addRm16Imm16 (.ind .bp) 0) = false ∧
    Instr.wellFormed (.addRm16Simm8 (.ind .bp) 0) = false := by decide

theorem test_wf_sub : Instr.wellFormed (.subRmR .byte (.ind .bp) .axAl) = false ∧
    Instr.wellFormed (.subRRm .word .axAl (.ind .bp)) = false ∧
    Instr.wellFormed (.subRm8Imm8 (.ind .bp) 0) = false ∧ Instr.wellFormed (.subRm16Imm16 (.ind .bp) 0) = false ∧
    Instr.wellFormed (.subRm16Simm8 (.ind .bp) 0) = false := by decide

theorem test_wf_cmp : Instr.wellFormed (.cmpRmR .byte (.ind .bp) .axAl) = false ∧
    Instr.wellFormed (.cmpRRm .word .axAl (.ind .bp)) = false ∧
    Instr.wellFormed (.cmpRm8Imm8 (.ind .bp) 0) = false ∧ Instr.wellFormed (.cmpRm16Imm16 (.ind .bp) 0) = false ∧
    Instr.wellFormed (.cmpRm16Simm8 (.ind .bp) 0) = false := by decide

/-! ### Decoding: words written out from 30_encoding.md R90 to R96 -/

/-- Format RM, MOV (88 to 8B): `mov ax, bx` (V-D-1), `mov al, ah` (V-D-14), `mov ax, [bp - 2]` (V-D-2). -/
theorem test_decode_mov_rm : decode [0b10001001, 0b11011000] = .instr (.movRmR .word (.reg .axAl) .bxBl) 2 ∧
    decode [0b10001000, 0b11100000] = .instr (.movRmR .byte (.reg .axAl) .spAh) 2 ∧
    decode [0b10001011, 0b01000110, 0xFE] = .instr (.movRRm .word .axAl (.disp8 .bp 0xFE)) 3 := by decide

/-- The `r/m` table: a direct address (V-D-12), disp16 (V-D-13), and the eight memory forms in the order of R86. -/
theorem test_decode_rm_forms :
    decode [0x8B, 0b00000110, 0x00, 0x80] = .instr (.movRRm .word .axAl (.direct 0x8000)) 4 ∧
    decode [0x8B, 0b10000111, 0x00, 0x80] = .instr (.movRRm .word .axAl (.disp16 .bx 0x8000)) 4 ∧
    [0b00001000, 0b00001001, 0b00001010, 0b00001011, 0b00001100, 0b00001101, 0b00001111].map (fun b => decode [0x8A, b])
      = [.bxSi, .bxDi, .bpSi, .bpDi, .si, .di, .bx].map (fun b => .instr (.movRRm .byte .cxCl (.ind b)) 2) := by
  decide

/-- The register table of R84: codes 000 to 111 in the `reg` field of 8B /r, mod = 11, r/m = 000. -/
theorem test_decode_register_codes :
    [0xC0, 0xC8, 0xD0, 0xD8, 0xE0, 0xE8, 0xF0, 0xF8].map (fun b => decode [0x8B, b])
      = [.axAl, .cxCl, .dxDl, .bxBl, .spAh, .bpCh, .siDh, .diBh].map
          (fun c => .instr (.movRRm .word c (.reg .axAl)) 2) := by decide

/-- Format RMI, MOV: V-D-3 and V-D-19. -/
theorem test_decode_mov_rmi : decode [0b11000111, 0b10000110, 0x34, 0x12, 0x78, 0x56] =
      .instr (.movRmImm (.disp16 .bp 0x1234) (.imm16 0x5678)) 6 ∧
    decode [0b11000110, 0b00000110, 0x06, 0x00, 0x2A] = .instr (.movRmImm (.direct 0x0006) (.imm8 0x2A)) 5 := by
  decide

/-- Format RI: V-D-15, and V-D-20, whose last byte is not read. -/
theorem test_decode_mov_ri : decode [0b10110100, 0x12] = .instr (.movRImm .spAh (.imm8 0x12)) 2 ∧
    decode [0b10111000, 0x01, 0x00, 0xFF] = .instr (.movRImm .axAl (.imm16 0x0001)) 3 := by decide

/-- Formats AM and SR: V-D-6 to V-D-9. -/
theorem test_decode_mov_am_sr : decode [0b10100000, 0x00, 0x03] = .instr (.movAccAddr .byte 0x0300) 3 ∧
    decode [0b10100011, 0x00, 0x03] = .instr (.movAddrAcc .word 0x0300) 3 ∧
    decode [0b10001100, 0b11001011] = .instr (.movRm16Sreg (.reg .bxBl) .cs) 2 ∧
    decode [0b10001110, 0b11011000] = .instr (.movSregRm16 .ds (.reg .axAl)) 2 := by decide

/-- ADD: V-D-18 (01), 02, 80 /0, 81 /0, V-D-4 (83 /0), V-D-16 (04). -/
theorem test_decode_add : decode [0b00000001, 0b11001010] = .instr (.addRmR .word (.reg .dxDl) .cxCl) 2 ∧
    decode [0b00000010, 0b11100011] = .instr (.addRRm .byte .spAh (.reg .bxBl)) 2 ∧
    decode [0b10000000, 0b00000111, 0x7F] = .instr (.addRm8Imm8 (.ind .bx) 0x7F) 3 ∧
    decode [0b10000001, 0b00000111, 0x01, 0x02] = .instr (.addRm16Imm16 (.ind .bx) 0x0201) 4 ∧
    decode [0b10000011, 0b11000000, 0xFF] = .instr (.addRm16Simm8 (.reg .axAl) 0xFF) 3 ∧
    decode [0b00000100, 0xFF] = .instr (.addAccImm (.imm8 0xFF)) 2 := by decide

/-- SUB: 28, 2B, 80 /5, 81 /5, 83 /5, 2D. -/
theorem test_decode_sub : decode [0b00101000, 0b11101001] = .instr (.subRmR .byte (.reg .cxCl) .bpCh) 2 ∧
    decode [0b00101011, 0b11000011] = .instr (.subRRm .word .axAl (.reg .bxBl)) 2 ∧
    decode [0b10000000, 0b01101111, 0x02, 0x01] = .instr (.subRm8Imm8 (.disp8 .bx 0x02) 0x01) 4 ∧
    decode [0b10000001, 0b11101110, 0x10, 0x00] = .instr (.subRm16Imm16 (.reg .siDh) 0x0010) 4 ∧
    decode [0b10000011, 0b11101011, 0x01] = .instr (.subRm16Simm8 (.reg .bxBl) 0x01) 3 ∧
    decode [0b00101101, 0x0A, 0x00] = .instr (.subAccImm (.imm16 0x000A)) 3 := by decide

/-- CMP: 39, V-D-17 (3A), V-D-5 (80 /7), 81 /7, 83 /7, 3C. -/
theorem test_decode_cmp : decode [0b00111001, 0b11000000] = .instr (.cmpRmR .word (.reg .axAl) .axAl) 2 ∧
    decode [0b00111010, 0b00000111] = .instr (.cmpRRm .byte .axAl (.ind .bx)) 2 ∧
    decode [0b10000000, 0b00111100, 0x00] = .instr (.cmpRm8Imm8 (.ind .si) 0x00) 3 ∧
    decode [0b10000001, 0b00111111, 0x00, 0x80] = .instr (.cmpRm16Imm16 (.ind .bx) 0x8000) 4 ∧
    decode [0b10000011, 0b11111010, 0x0F] = .instr (.cmpRm16Simm8 (.reg .dxDl) 0x0F) 3 ∧
    decode [0b00111100, 0x01] = .instr (.cmpAccImm (.imm8 0x01)) 2 := by decide

/-- Format J8: the six opcodes of R96, V-D-10 and V-D-11 among them. -/
theorem test_decode_j8 : decode [0b01110101, 0xFA] = .instr (.jneRel8 0xFA) 2 ∧
    decode [0b01110100, 0x80] = .instr (.jeRel8 0x80) 2 ∧ decode [0b01110010, 0x02] = .instr (.jbRel8 0x02) 2 ∧
    decode [0b01111010, 0x80] = .instr (.jpRel8 0x80) 2 ∧ decode [0b11100010, 0xFB] = .instr (.loopRel8 0xFB) 2 ∧
    decode [0b11100000, 0xFE] = .instr (.loopnzRel8 0xFE) 2 := by decide

/-- V-D-21 to V-D-25: windows too short for their form. -/
theorem test_decode_truncated : [[0xB8, 0x01], [0xB8], [0x8B, 0x46], [0xC7, 0x06, 0x00, 0x02, 0x01], [0xA1, 0x00], []].all
    (fun w => decode w == .noInstruction) = true := by decide

/-- V-D-26 to V-D-33: windows that match no row. -/
theorem test_decode_not_admitted : [[0x80, 0xC8, 0x01], [0xF4, 0x00], [0x26, 0x8B, 0x07], [0x8E, 0xE0], [0x82, 0xC0, 0x01],
    [0xC6, 0xC8, 0x01], [0xE3, 0x00], [0x90, 0x90]].all (fun w => decode w == .notAdmitted) = true := by decide

/-- The records of V-D-2, V-D-4, V-D-8, V-D-10 and V-D-14. -/
theorem test_records :
    (Instr.movRRm .word .axAl (.disp8 .bp 0xFE)).record = ⟨.mov, 3, [.reg 1 2 0, .mem [6] (-2) 2]⟩ ∧
    (Instr.addRm16Simm8 (.reg .axAl) 0xFF).record = ⟨.add, 3, [.reg 1 2 0, .imm 0xFFFF]⟩ ∧
    (Instr.movRm16Sreg (.reg .bxBl) .cs).record = ⟨.mov, 2, [.reg 2 2 0, .reg 10 2 0]⟩ ∧
    (Instr.loopRel8 0xFB).record = ⟨.loop, 2, [.imm 0xFFFB]⟩ ∧
    (Instr.movRmR .byte (.reg .axAl) .spAh).record = ⟨.mov, 2, [.reg 1 1 0, .reg 1 1 1]⟩ := by decide

/-- The encoder writes the bytes of V-D-3, V-D-13, V-D-9 and V-D-18. -/
theorem test_encode : encode (.movRmImm (.disp16 .bp 0x1234) (.imm16 0x5678)) = [0xC7, 0x86, 0x34, 0x12, 0x78, 0x56] ∧
    encode (.movRRm .word .axAl (.disp16 .bx 0x8000)) = [0x8B, 0x87, 0x00, 0x80] ∧
    encode (.movSregRm16 .ds (.reg .axAl)) = [0x8E, 0xD8] ∧
    encode (.addRmR .word (.reg .dxDl) .cxCl) = [0x01, 0xCA] := by decide

/-- Words as opcode_table.json numbers them: the key's high byte is byte 0 (R80). -/
theorem test_table_words : decodeTableWord 16 0x8800 = some (.movRmR .byte (.ind .bxSi) .axAl) ∧
    decodeTableWord 16 0x83F8 = some (.cmpRm16Simm8 (.reg .axAl) 0) ∧
    decodeTableWord 16 0xB800 = some (.movRImm .axAl (.imm16 0)) ∧ decodeTableWord 16 0xE2FB = some (.loopRel8 0xFB) ∧
    decodeTableWord 16 0x9090 = none := by decide

/-- The next step runs the placed word: `mov ds, bx` (8E DB). -/
theorem test_with_fetch_word : (after ((withRegs { r0 with bx := 0x1234 }).withFetchWord 16 0x8EDB)).map
    (fun t => (t.regs.ds, t.ip)) = some (0x1234, 2) := by decide

/-! ### MOV (95_test_vectors.md 3.1 to 3.3) -/

/-- V-MOV-2, `mov [bx], ax`. -/
theorem test_movRmR_store : (after (prog (withRegs { r0 with bx := 0x0200, ax := 0xBEEF }) [0x89, 0x07])).map
    (fun t => (t.mem.read 0x200, t.mem.read 0x201, t.ip)) = some (0xEF, 0xBE, 2) := by decide

/-- V-REG-3, `mov bh, bl`. -/
theorem test_movRmR_halves : (after (prog (withRegs { r0 with bx := 0x00FF }) [0x88, 0xDF])).map
    (fun t => (t.regs.bx, t.ip)) = some (0xFFFF, 2) := by decide

/-- V-MOV-9, `mov bx, [bx]`: the source is read at the old BX. -/
theorem test_movRRm_old_base : (after (prog { withRegs { r0 with bx := 0x0200 } with mem := [(0x200, 0x34), (0x201, 0x12)] }
    [0x8B, 0x1F])).map (fun t => (t.regs.bx, t.ip)) = some (0x1234, 2) := by decide

/-- V-EA-2, `mov ax, [bp - 2]` halts. -/
theorem test_movRRm_halt : (after (prog State.reset [0x8B, 0x46, 0xFE])).map (fun t => (t.run, t.ip)) =
    some (.haltedError (.addressOutOfRange 0 (-2) .word), 3) := by decide

/-- V-MOV-4, `mov word [bx + 2], 0x1234`. -/
theorem test_movRmImm_store : (after (prog (withRegs { r0 with bx := 0x0200 }) [0xC7, 0x47, 0x02, 0x34, 0x12])).map
    (fun t => (t.mem.read 0x202, t.mem.read 0x203, t.ip)) = some (0x34, 0x12, 5) := by decide

/-- V-MOV-12, `mov al, 0x55` (C6). -/
theorem test_movRmImm_half : (after (prog (withRegs { r0 with ax := 0xFF00 }) [0xC6, 0xC0, 0x55])).map
    (fun t => (t.regs.ax, t.ip)) = some (0xFF55, 3) := by decide

/-- V-REG-2, `mov ah, 0xAB`. -/
theorem test_movRImm_high : (after (prog (withRegs { r0 with ax := 0x1234 }) [0xB4, 0xAB])).map
    (fun t => (t.regs.ax, t.ip)) = some (0xAB34, 2) := by decide

/-- V-MOV-14, `mov si, -1`. -/
theorem test_movRImm_word : (after (prog State.reset [0xBE, 0xFF, 0xFF])).map (fun t => (t.regs.si, t.ip)) =
    some (0xFFFF, 3) := by decide

/-- V-MOV-7, `mov al, [0x0300]`. -/
theorem test_movAccAddr_byte : (after (prog { withRegs { r0 with ax := 0x1100 } with mem := [(0x300, 0x99)] }
    [0xA0, 0x00, 0x03])).map (fun t => (t.regs.ax, t.ip)) = some (0x1199, 3) := by decide

/-- V-EA-4, `mov ax, [0x8000]`: the address is zero-extended. -/
theorem test_movAccAddr_zero_extended : (after (prog { State.reset with mem := [(0x8000, 0x01), (0x8001, 0x02)] }
    [0xA1, 0x00, 0x80])).map (fun t => (t.regs.ax, t.run)) = some (0x0201, .running) := by decide

/-- V-MOV-8, `mov [0x0300], ax`. -/
theorem test_movAddrAcc : (after (prog (withRegs { r0 with ax := 0xCAFE }) [0xA3, 0x00, 0x03])).map
    (fun t => (t.mem.read 0x300, t.mem.read 0x301, t.ip)) = some (0xFE, 0xCA, 3) := by decide

/-- V-MOV-6, `mov bx, cs`. -/
theorem test_movRm16Sreg : (after (prog (withRegs { r0 with cs := 0xF000 }) [0x8C, 0xCB])).map
    (fun t => (t.regs.bx, t.ip)) = some (0xF000, 2) := by decide

/-- V-MOV-11, `mov cs, ax`: CS is storage only. -/
theorem test_movSregRm16 : (after (prog (withRegs { r0 with ax := 0x1234 }) [0x8E, 0xC8])).map
    (fun t => (t.regs.cs, t.ip)) = some (0x1234, 2) := by decide

/-- V-EA-3 and V-EA-5: addresses above 16 bits do not wrap. -/
theorem test_ea_no_wrap :
    (after (prog { withRegs { r0 with bx := 0xFFFF, si := 1 } with mem := [(0x10000, 0x5A)] } [0x8A, 0x00])).map
      (fun t => t.regs.ax) = some 0x005A ∧
    (after (prog { withRegs { r0 with bp := 0xFFFF, di := 0xFFFF } with mem := [(0x27FFD, 0x11), (0x27FFE, 0x22)] }
      [0x8B, 0x83, 0xFF, 0x7F])).map (fun t => t.regs.ax) = some 0x2211 := by decide

/-! ### ADD (3.4) -/

/-- V-ADD-13, `add dx, cx`: old flags are replaced. -/
theorem test_addRmR : (after (prog { withRegs { r0 with cx := 3, dx := 4 } with flags := { f0 with CF := true, ZF := true } }
    [0x01, 0xCA])).map (shows .dx) = some (7, 2, [0, 0, 0, 0, 0, 0]) := by decide

/-- V-ADD-17, `add [bp - 2], ax` halts with no flag written. -/
theorem test_addRmR_halt : (after (prog { withRegs { r0 with ax := 1 } with flags := { f0 with ZF := true } }
    [0x01, 0x46, 0xFE])).map (fun t => (t.run, t.ip, six t)) =
    some (.haltedError (.addressOutOfRange 0 (-2) .word), 3, [0, 0, 1, 0, 0, 0]) := by decide

/-- V-ADD-15, `add ah, bl`. -/
theorem test_addRRm_high : (after (prog (withRegs { r0 with ax := 0x7001, bx := 0x0010 }) [0x02, 0xE3])).map (shows .ax) =
    some (0x8001, 2, [1, 1, 0, 0, 0, 0]) := by decide

/-- V-EA-8, `add bx, [bx]`. -/
theorem test_addRRm_mem : (after (prog { withRegs { r0 with bx := 0x0100 } with mem := [(0x100, 5)] } [0x03, 0x1F])).map
    (shows .bx) = some (0x0105, 2, [0, 0, 0, 0, 1, 0]) := by decide

/-- V-ADD-12, `add byte [bx], 0x7F`. -/
theorem test_addRm8Imm8 : (after (prog { withRegs { r0 with bx := 0x0200 } with mem := [(0x200, 1)] } [0x80, 0x07, 0x7F])).map
    (fun t => (t.mem.read 0x200, six t)) = some (0x80, [1, 1, 0, 1, 0, 0]) := by decide

/-- V-ADD-10, `add word [bx], 0x0101`. -/
theorem test_addRm16Imm16 : (after (prog { withRegs { r0 with bx := 0x0200 } with mem := [(0x200, 0xFF)] }
    [0x81, 0x07, 0x01, 0x01])).map (fun t => (t.mem.read 0x200, t.mem.read 0x201, six t)) =
    some (0x00, 0x02, [0, 0, 0, 1, 1, 0]) := by decide

/-- V-ADD-6, `add ax, -1` (83). -/
theorem test_addRm16Simm8 : (after (prog (withRegs { r0 with ax := 5 }) [0x83, 0xC0, 0xFF])).map (shows .ax) =
    some (4, 3, [0, 0, 0, 1, 0, 1]) := by decide

/-- V-ADD-3, `add ax, 1`. -/
theorem test_addAccImm_word : (after (prog (withRegs { r0 with ax := 0x7FFF }) [0x05, 0x01, 0x00])).map (shows .ax) =
    some (0x8000, 3, [1, 1, 0, 1, 1, 0]) := by decide

/-- V-ADD-4, `add al, 0x80`: AH is untouched. -/
theorem test_addAccImm_byte : (after (prog (withRegs { r0 with ax := 0x3380 }) [0x04, 0x80])).map (shows .ax) =
    some (0x3300, 2, [1, 0, 1, 0, 1, 1]) := by decide

/-- V-ADD-7, V-ADD-8, V-ADD-9: where the source's code formulas differ (90_conflicts.md C2, C3, C7). -/
theorem test_add_flag_conflicts : (addFlags (w := .byte) 0xFF 0xFF f0).CF = true ∧
    (addFlags (w := .byte) 0x0F 0x0F f0).AF = true ∧ (addFlags (w := .byte) 0x7F 0x80 f0).OF = false := by decide

/-! ### SUB (3.5) -/

/-- V-SUB-9, `sub [bx], ax`. -/
theorem test_subRmR_mem : (after (prog { withRegs { r0 with bx := 0x0200, ax := 1 } with mem := [(0x201, 1)] }
    [0x29, 0x07])).map (fun t => (t.mem.read 0x200, t.mem.read 0x201, six t)) =
    some (0xFF, 0x00, [0, 0, 0, 1, 1, 0]) := by decide

/-- V-SUB-11, `sub cl, ch`. -/
theorem test_subRmR_halves : (after (prog (withRegs { r0 with cx := 0x0510 }) [0x28, 0xE9])).map (shows .cx) =
    some (0x050B, 2, [0, 0, 0, 1, 0, 0]) := by decide

/-- `sub ax, bx` (2B C3): 3 - 5 = 0xFFFE, borrow, and 0xFE has seven set bits (R181, R157 to R159, R152). -/
theorem test_subRRm : (after (prog (withRegs { r0 with ax := 3, bx := 5 }) [0x2B, 0xC3])).map (shows .ax) =
    some (0xFFFE, 2, [0, 1, 0, 1, 0, 1]) := by decide

/-- V-SUB-8, `sub byte [bx + 2], 1`. -/
theorem test_subRm8Imm8 : (after (prog (withRegs { r0 with bx := 0x0100 }) [0x80, 0x6F, 0x02, 0x01])).map
    (fun t => (t.mem.read 0x102, six t)) = some (0xFF, [0, 1, 0, 1, 1, 1]) := by decide

/-- V-SUB-12, `sub si, 0x0010`. -/
theorem test_subRm16Imm16 : (after (prog (withRegs { r0 with si := 0x0020 }) [0x81, 0xEE, 0x10, 0x00])).map (shows .si) =
    some (0x0010, 4, [0, 0, 0, 0, 0, 0]) := by decide

/-- V-SUB-1, `sub bx, 1`. -/
theorem test_subRm16Simm8 : (after (prog (withRegs { r0 with bx := 3 }) [0x83, 0xEB, 0x01])).map (shows .bx) =
    some (2, 3, [0, 0, 0, 0, 0, 0]) := by decide

/-- V-SUB-4, `sub ax, 1`. -/
theorem test_subAccImm_word : (after (prog (withRegs { r0 with ax := 0x8000 }) [0x2D, 0x01, 0x00])).map (shows .ax) =
    some (0x7FFF, 3, [1, 0, 0, 1, 1, 0]) := by decide

/-- V-SUB-6, `sub al, 0x80`: where the source's code formula differs (90_conflicts.md C4). -/
theorem test_subAccImm_byte : (after (prog State.reset [0x2C, 0x80])).map (shows .ax) =
    some (0x0080, 2, [1, 1, 0, 0, 0, 1]) := by decide

/-! ### CMP (3.6) -/

/-- V-CMP-2, `cmp ax, ax`. -/
theorem test_cmpRmR : (after (prog (withRegs { r0 with ax := 0xABCD }) [0x39, 0xC0])).map (shows .ax) =
    some (0xABCD, 2, [0, 0, 1, 0, 1, 0]) := by decide

/-- V-CMP-9, `cmp [bx - 1], al` halts. -/
theorem test_cmpRmR_halt : (after (prog { withRegs { r0 with ax := 1 } with flags := { f0 with CF := true } }
    [0x38, 0x47, 0xFF])).map (fun t => (t.run, six t)) =
    some (.haltedError (.addressOutOfRange 0 (-1) .byte), [0, 0, 0, 0, 0, 1]) := by decide

/-- V-CMP-3, `cmp al, [bx]`. -/
theorem test_cmpRRm : (after (prog { withRegs { r0 with ax := 0x10, bx := 0x0200 } with mem := [(0x200, 0x20)] }
    [0x3A, 0x07])).map (shows .ax) = some (0x10, 2, [0, 1, 0, 0, 1, 1]) := by decide

/-- V-CMP-4, `cmp byte [bx], 0`. -/
theorem test_cmpRm8Imm8 : (after (prog (withRegs { r0 with bx := 0x0200 }) [0x80, 0x3F, 0x00])).map
    (fun t => (t.mem.read 0x200, six t)) = some (0, [0, 0, 1, 0, 1, 0]) := by decide

/-- V-CMP-5, `cmp word [bx], 0x8000`. -/
theorem test_cmpRm16Imm16 : (after (prog (withRegs { r0 with bx := 0x0200 }) [0x81, 0x3F, 0x00, 0x80])).map
    (fun t => (t.mem.read 0x201, six t)) = some (0, [1, 1, 0, 0, 1, 1]) := by decide

/-- V-CMP-7, `cmp ax, -1` (83). -/
theorem test_cmpRm16Simm8 : (after (prog (withRegs { r0 with ax := 0xFFFF }) [0x83, 0xF8, 0xFF])).map (shows .ax) =
    some (0xFFFF, 3, [0, 0, 1, 0, 1, 0]) := by decide

/-- V-CMP-1, `cmp ax, 10` (the source's Scenario C), with its flags code `SAC` (R236). -/
theorem test_cmpAccImm_word : (after (prog (withRegs { r0 with ax := 5 }) [0x3D, 0x0A, 0x00])).map
    (fun t => (shows .ax t, flagsCode t)) = some ((5, 3, [0, 1, 0, 1, 0, 1]), ['S', 'A', 'C']) := by decide

/-- V-CMP-8, `cmp al, 0x01`. -/
theorem test_cmpAccImm_byte : (after (prog (withRegs { r0 with ax := 0x80 }) [0x3C, 0x01])).map (shows .ax) =
    some (0x80, 2, [1, 0, 0, 1, 0, 0]) := by decide

/-! ### Jumps and loops (3.7, 3.8) -/

/-- V-J-1 and V-J-2, `jne $-4`, taken and not. -/
theorem test_jne : (after (prog (withRegs { r0 with ip := 0x10 }) [0x75, 0xFA])).map (fun t => t.ip) = some 0x0C ∧
    (after (prog { withRegs { r0 with ip := 0x10 } with flags := { f0 with ZF := true } } [0x75, 0xFA])).map
      (fun t => t.ip) = some 0x12 := by decide

/-- V-J-10, `jne $-14` from 0: the target is below 0. -/
theorem test_jne_halt : (after (prog State.reset [0x75, 0xF0])).map (fun t => (t.run, t.ip)) =
    some (.haltedError (.branchTargetOutOfRange 0 (-14)), 2) := by decide

/-- V-J-11 and V-J-14, `je` with the largest displacements. -/
theorem test_je : (after (prog { State.reset with flags := { f0 with ZF := true } } [0x74, 0x7F])).map (fun t => t.ip) =
      some 0x81 ∧
    (after (prog { withRegs { r0 with ip := 0x10 } with flags := { f0 with ZF := true } } [0x74, 0x80])).map
      (fun t => (t.run, t.ip)) = some (.haltedError (.branchTargetOutOfRange 0x10 (-110)), 0x12) := by decide

/-- V-J-5 and V-J-6, `jb $+4`, taken and not. -/
theorem test_jb : (after (prog { withRegs { r0 with ip := 3 } with flags := { f0 with CF := true } } [0x72, 0x02])).map
      (fun t => t.ip) = some 7 ∧
    (after (prog (withRegs { r0 with ip := 3 }) [0x72, 0x02])).map (fun t => t.ip) = some 5 := by decide

/-- V-J-7 and V-J-8, `jp $-126`, taken and not. -/
theorem test_jp : (after (prog { withRegs { r0 with ip := 0x100 } with flags := { f0 with PF := true } } [0x7A, 0x80])).map
      (fun t => t.ip) = some 0x82 ∧
    (after (prog (withRegs { r0 with ip := 0x100 }) [0x7A, 0x80])).map (fun t => t.ip) = some 0x102 := by decide

/-- V-L-2 and V-L-3, `loop $` with CX = 1 and with CX = 0, which wraps. -/
theorem test_loop : (after (prog (withRegs { r0 with cx := 1, ip := 0x20 }) [0xE2, 0xFE])).map
      (fun t => (t.regs.cx, t.ip)) = some (0, 0x22) ∧
    (after (prog (withRegs { r0 with cx := 0, ip := 0x20 }) [0xE2, 0xFE])).map
      (fun t => (t.regs.cx, t.ip)) = some (0xFFFF, 0x20) := by decide

/-- V-L-9, `loop $-14` halts and CX keeps 2. -/
theorem test_loop_halt : (after (prog (withRegs { r0 with cx := 2 }) [0xE2, 0xF0])).map
    (fun t => (t.regs.cx, t.ip, t.run)) = some (2, 2, .haltedError (.branchTargetOutOfRange 0 (-14))) := by decide

/-- V-L-5 and V-L-7, `loopnz $` with ZF = 0. -/
theorem test_loopnz : (after (prog (withRegs { r0 with cx := 2, ip := 0x20 }) [0xE0, 0xFE])).map
      (fun t => (t.regs.cx, t.ip)) = some (1, 0x20) ∧
    (after (prog (withRegs { r0 with cx := 1, ip := 0x20 }) [0xE0, 0xFE])).map
      (fun t => (t.regs.cx, t.ip)) = some (0, 0x22) := by decide

/-- V-L-11, `loopnz $-14` with ZF = 1: not taken, so no halt, and CX is decremented. -/
theorem test_loopnz_zf : (after (prog { withRegs { r0 with cx := 2 } with flags := { f0 with ZF := true } }
    [0xE0, 0xF0])).map (fun t => (t.regs.cx, t.ip, t.run)) = some (1, 2, .running) := by decide

/-! ### Level-1 records (95_test_vectors.md section 4) -/

/-- The test-double decoder of the vectors: one record, `consumed` its size. -/
def double (rec : Record) : Decoder := fun _ => some (rec, rec.size)

/-- The start state of the vectors: the reset state with `prog_len` 8. -/
def eight : State := { State.reset with progLen := 8 }

/-- The run state and `ip` after a step on one record. -/
def halts (rec : Record) : Option (RunState × Word) :=
  (nextOf (stepWith Config.reference (double rec) eight)).map fun t => (t.run, t.ip)

/-- V-H-1 and V-H-2. -/
theorem test_unimplemented : halts ⟨.other "t", 1, []⟩ = some (.haltedError (.unimplementedOpcode 0 "t"), 1) ∧
    halts ⟨.other "t", 2, [.reg 14 2 0]⟩ = some (.haltedError (.unimplementedOpcode 0 "t"), 2) := by decide

/-- V-H-4, V-H-5, V-H-6. -/
theorem test_register_index : halts ⟨.mov, 3, [.reg 7 1 0, .imm 7]⟩ = some (.haltedError (.registerIndexViolation 0 0), 3) ∧
    halts ⟨.mov, 2, [.reg 14 2 0, .reg 1 2 0]⟩ = some (.haltedError (.registerIndexViolation 0 0), 2) ∧
    halts ⟨.mov, 2, [.imm 1, .reg 7 1 0]⟩ = some (.haltedError (.registerIndexViolation 0 1), 2) := by decide

/-- V-H-3, V-H-9, V-H-11, V-H-12. -/
theorem test_operand_shape :
    halts ⟨.mov, 2, [.imm 5, .reg 1 2 0]⟩ = some (.haltedError (.operandTypeMismatch 0 (some 0)), 2) ∧
    halts ⟨.mov, 2, [.reg 1 2 0, .reg 2 1 0]⟩ = some (.haltedError (.operandTypeMismatch 0 (some 1)), 2) ∧
    halts ⟨.mov, 2, [.reg 1 2 0, .reg 13 2 0]⟩ = some (.haltedError (.operandTypeMismatch 0 (some 1)), 2) ∧
    halts ⟨.mov, 2, [.reg 1 2 0, .mem [1] 0 2]⟩ = some (.haltedError (.operandTypeMismatch 0 (some 1)), 2) := by decide

/-- V-H-8 and V-H-10: an OperandTypeMismatch at 0 whose position the spec does not state. -/
theorem test_operand_shape_free :
    halts ⟨.je, 2, []⟩ = some (.haltedError (.operandTypeMismatch 0 (Config.mismatchPosition [])), 2) ∧
    halts ⟨.mov, 2, [.reg 12 2 0, .reg 9 2 0]⟩ =
      some (.haltedError (.operandTypeMismatch 0 (Config.mismatchPosition [.reg 12 2 0, .reg 9 2 0])), 2) :=
  ⟨rfl, rfl⟩

/-- V-H-7 and V-H-13. -/
theorem test_address_halts :
    halts ⟨.mov, 2, [.mem [6] (-2) 2, .mem [2] (-4) 2]⟩ = some (.haltedError (.addressOutOfRange 0 (-2) .word), 2) ∧
    halts ⟨.mov, 4, [.reg 1 2 0, .mem [] 0xFFFFF 2]⟩ = some (.haltedError (.addressOutOfRange 0 0xFFFFF .word), 4) := by
  decide

/-- V-H-14: the last byte of the bank is inside it. -/
theorem test_last_byte : (nextOf (stepWith Config.reference (double ⟨.mov, 4, [.reg 1 1 0, .mem [] 0xFFFFF 1]⟩)
    { eight with mem := [(0xFFFFF, 0x5A)] })).map (fun t => (t.regs.ax, t.run)) = some (0x005A, .running) := by decide

/-- V-H-15: Mem to Mem ADD. -/
theorem test_mem_to_mem : (nextOf (stepWith Config.reference (double ⟨.add, 2, [.mem [2] 0 1, .mem [7] 0 1]⟩)
    { eight with regs := { r0 with bx := 0x0200, si := 0x0201 }, mem := [(0x200, 3), (0x201, 4)] })).map
    (fun t => (t.mem.read 0x200, six t)) = some (7, [0, 0, 0, 0, 0, 0]) := by decide

/-- V-H-16: a memory left operand with `MEM_DEST_ARITH = false`, for the bytes 01 07. -/
theorem test_mem_dest_arith_off : (nextOf (stepWith { Config.reference with memDestArith := false } referenceDecoder
    (prog { withRegs { r0 with bx := 0x0200, ax := 1 } with flags := { f0 with ZF := true } } [0x01, 0x07]))).map
    (fun t => (t.run, t.ip, six t)) = some (.haltedError (.operandTypeMismatch 0 (some 0)), 2, [0, 0, 1, 0, 0, 0]) := by
  decide

/-- V-H-17, V-H-18, V-H-19: a decoder that breaks its contract. -/
theorem test_broken_decoder : [(⟨.mov, 0, []⟩, 0), (⟨.mov, 9, []⟩, 9), (⟨.mov, 3, []⟩, 2)].map
    (fun d => (nextOf (stepWith Config.reference (fun _ => some d) eight)).map fun t => (t.run, t.ip)) =
    List.replicate 3 (some (.haltedError (.decodeFailure 0), 0)) := by decide

/-- V-H-20: an empty program halts cleanly at its first step, which is what the reset state does. -/
theorem test_reset_step : after State.reset = some { State.reset with run := .haltedClean } := by decide

/-- V-EA-9 and V-EA-10: the bank of 64 KiB. -/
theorem test_small_bank : (nextOf (stepWith ⟨0x10000, true⟩ referenceDecoder (prog (withRegs { r0 with bx := 0xFFFF })
      [0x8B, 0x00]))).map (fun t => t.run) = some (.haltedError (.addressOutOfRange 0 0xFFFF .word)) ∧
    (nextOf (stepWith ⟨0x10000, true⟩ referenceDecoder (prog { withRegs { r0 with bx := 0xFFFF } with
      mem := [(0xFFFF, 0x66)] } [0x8A, 0x00]))).map (fun t => t.regs.ax) = some 0x66 := by decide

/-- The first step of program P5: the store lands in the program and is fetched next. -/
theorem test_store_into_program :
    (after (prog State.reset [0xC6, 0x06, 0x06, 0x00, 0x2A, 0xB0, 0x00])).map (fun t => t.window) =
      some [0xB0, 0x2A] := by decide

/-- The truncated last instruction of program P9. -/
theorem test_truncated_step : (after (prog (withRegs { r0 with ip := 3 }) [0xBB, 0x02])).map (fun t => (t.run, t.ip)) =
    some (.haltedError (.decodeFailure 3), 3) := by decide

/-- The packed view of CF, ZF, SF and OF: bits 0, 6, 7 and 11 (R28). -/
theorem test_packed_flags : Flags.word { f0 with CF := true, ZF := true, SF := true, OF := true } = 0x08C1 := by decide

/-- Assembler text of three vectors (V-EA-6, V-MOV-3, V-J-1), and a second spelling (R100, R101). -/
theorem test_asm_text : Asm.text (.movRmR .byte (.disp16 .si 0x8000) .axAl) = "mov [si - 32768], al" ∧
    Asm.text (.movRmImm (.ind .bx) (.imm8 7)) = "mov byte [bx], 7" ∧ Asm.text (.jneRel8 0xFA) = "jne $-4" ∧
    Asm.rel8 0x0009 0x0006 = some 0xFB ∧ "jnz" ∈ Asm.spellings .jne := by decide

/-! ### Witnesses: for each statement with hypotheses, inputs that meet all of them -/

/-- A small state: `mov [bx + si], ax` at 0x10 with BX + SI = 0, a listed byte after it, CF and ZF set. -/
def sample : State :=
  prog { withRegs { r0 with ax := 0xBEEF, cx := 1, ds := 7, ip := 0x10 } with
    mem := [(0x20, 5)], flags := { f0 with CF := true, ZF := true } } [0x89, 0x00]

/-- A halted state. -/
def halted : State := { sample with run := .haltedError (.decodeFailure 3) }

/-- A state whose window matches no row (NOP). -/
def nop : State := prog State.reset [0x90, 0x90]

theorem witness_DecodeOfEncodeIsIdentity :
    Instr.wellFormed (.movRmImm (.disp16 .bp 0x8001) (.imm16 0x5678)) = true ∧
    Instr.wellFormed (.addRRm .byte .diBh (.disp8 .bp 0)) = true := by decide

theorem witness_EncodeOfDecodeIsIdentity :
    decode [0xC7, 0x06, 0x34, 0x12, 0x78, 0x56, 0x90] = .instr (.movRmImm (.direct 0x1234) (.imm16 0x5678)) 6 := by
  decide

theorem witness_OpcodeRowsAreDisjoint : Row.matchesKey .cmpRm16Simm8 0x83F8 = true := by decide

theorem witness_NotAdmittedExactlyWhenNoRowMatches : ([0x90] : List Byte).length < 2 ∧
    (∀ r ∈ Row.all, r.matchesKey (keyOf 0x90 0x90) = false) := by decide

theorem witness_TruncatedInstructionIsNoInstruction :
    Instr.wellFormed (.movRmImm (.direct 0) (.imm16 0)) = true ∧ 5 < (encode (.movRmImm (.direct 0) (.imm16 0))).length := by
  decide

theorem witness_EncodedRecordsPassTheChecks :
    nextOf (exec (.addRmR .byte (.ind .bx) .axAl) State.reset) ≠ none ∧
    checkBinary ⟨0, false⟩ (.arith .add) (Instr.record (.addRmR .byte (.ind .bx) .axAl)).operands = .error (some 0) :=
  ⟨by decide, rfl⟩

theorem witness_StepRunsTheDecodedInstruction : sample.run = .running ∧ sample.ip.toNat < sample.progLen ∧
    decode (sample.mem.readBytes sample.ip.toNat (sample.progLen - sample.ip.toNat)) =
      .instr (.movRmR .word (.ind .bxSi) .axAl) 2 := by decide

/-- Both clauses at the boundary: `ip = prog_len`, and `ip = prog_len - 1`. -/
theorem witness_CleanHaltExactlyAtEndOfProgram :
    (State.reset.run = .running ∧ State.reset.progLen ≤ State.reset.ip.toNat) ∧
    ((prog State.reset [0x75]).ip.toNat + 1 = (prog State.reset [0x75]).progLen ∧
      nextOf (stepWith Config.reference referenceDecoder (prog State.reset [0x75])) ≠ none) := by decide

theorem witness_HaltedStateHasNoStep : halted.run ≠ .running ∧ State.haltClean sample ≠ sample := by decide

theorem witness_HaltedStatesAreFinal : halted.run ≠ .running ∧ Reaches halted halted := ⟨by decide, .refl⟩

/-- A decoder that breaks its contract with `consumed` one byte above the window, and the truncated `B8 01`. -/
theorem witness_DecodeFailureChangesOnlyTheRun :
    (sample.run = .running ∧ sample.ip.toNat < sample.progLen ∧ sample.progLen - sample.ip.toNat < 3) ∧
    ((prog State.reset [0xB8, 0x01]).run = .running ∧
      (prog State.reset [0xB8, 0x01]).ip.toNat < (prog State.reset [0xB8, 0x01]).progLen ∧
      decode (prog State.reset [0xB8, 0x01]).window = .noInstruction) := by decide

theorem witness_NotAdmittedWindowHalts : nop.run = .running ∧ nop.ip.toNat < nop.progLen ∧
    decode nop.window = .notAdmitted := by decide

/-- A DecodeFailure (code 1) and an AddressOutOfRange (another code). -/
theorem witness_ErrorHaltsArePrecise :
    ((nextOf (stepWith Config.reference referenceDecoder (prog State.reset [0xB8, 0x01]))).map fun t => t.run) =
      some (.haltedError (.decodeFailure 0)) ∧
    ((nextOf (stepWith Config.reference referenceDecoder (prog State.reset [0x8B, 0x46, 0xFE]))).map fun t => t.run) =
      some (.haltedError (.addressOutOfRange 0 (-2) .word)) := by decide

/-- Images of exactly the bound, and of one byte more. -/
theorem witness_LoadGivesTheStartOfARun : ([0xE2, 0xFE] : List Byte).length ≤ min 2 0xFFFF ∧
    min 2 0xFFFF < ([0xE2, 0xFE, 0x00] : List Byte).length ∧
    (nextOf (loadWith ⟨2, true⟩ [0xE2, 0xFE])).map (fun s => (s.progLen, s.mem.read 1)) = some (2, 0xFE) := by decide

theorem witness_EveryStepKeepsTheInvariant : Inv Config.reference sample ∧ after sample ≠ none :=
  ⟨⟨by decide, by decide, by decide, by decide⟩, by decide⟩

/-- A step from a state whose DF is set, a halted state, and one step of a run. -/
theorem witness_InertFlagsAreNeitherWrittenNorRead :
    nextOf (stepWith Config.reference referenceDecoder { sample with flags := { f0 with DF := true } }) ≠ none ∧
    (∃ r, stepWith Config.reference referenceDecoder halted = .fault r) ∧ ∃ t, step sample = .next t ∧ Reaches sample t :=
  ⟨by decide, ⟨_, rfl⟩, _, rfl, .step .refl rfl⟩

/-- A store at `prog_len`: `mov [bx + si], ax` at 0 with BX + SI = 2. -/
theorem witness_NoStepWritesTheProgramLength :
    (after (prog (withRegs { r0 with bx := 2, ax := 0xBEEF }) [0x89, 0x00])).map (fun t => (t.mem.read 2, t.progLen)) =
      some (0xEF, 2) := by decide

theorem witness_WordAccessOfRegisters : Reg.gen .ax ≠ .ip ∧ Reg.seg .es ≠ .gen .ax ∧ Reg.gen .dx = .gen HalfReg.dx.gen := by
  decide

theorem witness_ByteHalvesAliasTheWord : Reg.ip ≠ .gen HalfReg.ax.gen ∧ Reg.gen .sp ≠ .gen HalfReg.bx.gen := by decide

theorem witness_MemoryIsLittleEndian : sample.mem.wf ∧ sample.mem ≠ [] := by decide

theorem witness_CanonicalMemoriesAreEqualWhenTheyReadTheSame :
    Memory.wf [(1, 2), (3, 4)] ∧ Memory.write (Memory.write [] 3 4) 1 2 = [(1, 2), (3, 4)] := by decide

theorem witness_FetchSeesEarlierStores : sample.mem.wf ∧ 1 < sample.progLen - sample.ip.toNat := by decide

/-- A sum and a difference that are the result. -/
theorem witness_ZeroSignAndParityOfAResult : (0xFF : BitVec Width.byte.bits) = 0x7F + 0x80 ∧
    (0xFF : BitVec Width.byte.bits) = 0x7F - 0x80 := by decide

theorem witness_ImmediateSources : (0x1234 : Word).extractLsb' 0 8 = (0xFF34 : Word).extractLsb' 0 8 ∧
    (0x1234 : Word) ≠ 0xFF34 := by decide

/-- The two ends of the range of R136. -/
theorem witness_EffectiveAddressesOfEncodedOperands :
    Place.ea? r0 (rmPlace (.disp16 .bx 0x8000) .word) = some (-32768) ∧
    Place.ea? { r0 with bp := 0xFFFF, di := 0xFFFF } (rmPlace (.disp16 .bpDi 0x7FFF) .word) = some 0x27FFD := by decide

/-- A memory place at each end of the bank, and a byte half. -/
theorem witness_PlaceReadsBackWhatWasWritten : sample.mem.wf ∧
    Place.inBank Config.reference sample.regs (.mem [] 0 : Place .byte) = true ∧
    Place.inBank Config.reference sample.regs (.mem [] 0xFFFFE : Place .word) = true ∧
    Place.inBank Config.reference sample.regs (.half .ax .high) = true := by decide

/-- Both operands in the bank: a memory destination at address 0, and a memory source at 0 with a register
destination. It serves the statements on MOV, ADD, SUB and CMP. -/
theorem witness_MovCopiesSourceToDestination :
    (Place.inBank Config.reference sample.regs (rmPlace (.ind .bxSi) .word) = true ∧
      Source.inBank Config.reference sample.regs (.place (regPlace .axAl .word)) = true) ∧
    (Place.inBank Config.reference sample.regs (regPlace .axAl .byte) = true ∧
      Source.inBank Config.reference sample.regs (.place (rmPlace (.direct 0) .byte)) = true) ∧
    (Place.inBank Config.reference sample.regs (.seg .ds) = true ∧
      Source.inBank Config.reference sample.regs (.place (rmPlace (.direct 0xFFFF) .word)) = true) := by decide

theorem witness_AddWritesSumAndFlags :
    Place.inBank Config.reference sample.regs (rmPlace (.disp8 .bp 0) .word) = true ∧
    Source.inBank Config.reference sample.regs (.imm 0xFFFF : Source .word) = true := by decide

theorem witness_SubWritesDifferenceAndFlags :
    Place.inBank Config.reference sample.regs (rmPlace (.direct 0xFFFF) .byte) = true ∧
    Source.inBank Config.reference sample.regs (.place (regPlace .spAh .byte)) = true := by decide

theorem witness_CmpSetsFlagsOnly :
    Place.inBank Config.reference sample.regs (accPlace .byte) = true ∧
    Source.inBank Config.reference sample.regs (.imm 0x00FF : Source .byte) = true := by decide

theorem witness_CmpAndSubAgreeOnFlags :
    subTwin (.cmpRmR .word (.disp8 .bp 0xFF) .axAl) = some (.subRmR .word (.disp8 .bp 0xFF) .axAl) := by decide

/-- A destination at -1, and a source at -1 with a destination in the bank. -/
theorem witness_AccessOutsideTheBankHalts :
    (dataOperands (.cmpRm8Imm8 (.disp8 .bx 0xFF) 0) = some ⟨.byte, .mem [.bx] (-1), .imm 0⟩ ∧
      Place.ea? sample.regs (.mem [.bx] (-1) : Place .byte) = some (-1) ∧
      ¬((0 : Int) ≤ -1 ∧ (-1 : Int) + Width.byte.bytes ≤ 0x100000)) ∧
    (dataOperands (.movRRm .word .axAl (.disp8 .bx 0xFF)) = some ⟨.word, .gen .ax, .place (.mem [.bx] (-1))⟩ ∧
      Place.inBank Config.reference sample.regs (.gen .ax) = true ∧
      Source.ea? sample.regs (.place (.mem [.bx] (-1)) : Source .word) = some (-1)) :=
  ⟨⟨rfl, by decide, by decide⟩, rfl, by decide, by decide⟩

theorem witness_MovFrame : isMov (.movRmR .word (.ind .bxSi) .axAl) = true ∧
    dataOperands (.movRmR .word (.ind .bxSi) .axAl) = some ⟨.word, .mem [.bx, .si] 0, .place (.gen .ax)⟩ ∧
    ∃ t, exec (.movRmR .word (.ind .bxSi) .axAl) sample = .next t := ⟨by decide, rfl, _, rfl⟩

theorem witness_AddSubFrame : isAddOrSub (.subRRm .byte .spAh (.ind .bx)) = true ∧
    dataOperands (.subRRm .byte .spAh (.ind .bx)) = some ⟨.byte, .half .ax .high, .place (.mem [.bx] 0)⟩ ∧
    ∃ t, exec (.subRRm .byte .spAh (.ind .bx)) sample = .next t := ⟨by decide, rfl, _, rfl⟩

theorem witness_CmpFrame : isCmp (.cmpRm16Simm8 (.ind .bx) 0xFF) = true ∧
    ∃ t, exec (.cmpRm16Simm8 (.ind .bx) 0xFF) sample = .next t := ⟨by decide, _, rfl⟩

/-- Each clause at the ends of 0 .. 0xFFFF: JB not taken with CF = 0; taken to 0 and to 0xFFFF; to -1 and to 0x10000. -/
theorem witness_ConditionalJumps : (∃ c, jumpOf (.jbRel8 0xFE) = some (c, 0xFE) ∧ c f0 = false ∧ c sample.flags = true) ∧
    (((withRegs { r0 with ip := 0x10 }).advance 2).ip.toNat + (0xEE : Byte).toInt = 0 ∧
      ((withRegs { r0 with ip := 0xFFF0 }).advance 2).ip.toNat + (0x0D : Byte).toInt = 0xFFFF) ∧
    ((State.reset.advance 2).ip.toNat + (0xFD : Byte).toInt = -1 ∧
      ((withRegs { r0 with ip := 0xFFF0 }).advance 2).ip.toNat + (0x0E : Byte).toInt = 0x10000) :=
  ⟨⟨_, rfl, rfl, rfl⟩, by decide⟩

/-- Each clause: the counter at its last value, at 0 (it wraps to 0xFFFF) and above, with targets at both ends. -/
theorem witness_Loops : (sample.regs.cx - 1 = 0 ∧ State.reset.regs.cx - 1 ≠ 0) ∧
    (State.reset.flags.ZF = false ∧ sample.flags.ZF = true) ∧
    ((State.reset.advance 2).ip.toNat + (0xFE : Byte).toInt = 0 ∧
      (State.reset.advance 2).ip.toNat + (0xFD : Byte).toInt = -1 ∧
      ((withRegs { r0 with ip := 0xFFF0 }).advance 2).ip.toNat + (0x0D : Byte).toInt = 0xFFFF ∧
      ((withRegs { r0 with ip := 0xFFF0 }).advance 2).ip.toNat + (0x0E : Byte).toInt = 0x10000) := by decide

theorem witness_JumpAndLoopFrame : (jumpOf (.jpRel8 0)).isSome = true ∧
    (∃ t, exec (.jpRel8 0) sample = .next t) ∧ ∃ t, exec (.loopnzRel8 0x10) sample = .next t :=
  ⟨rfl, ⟨_, rfl⟩, _, rfl⟩

/-- One round of LOOP with the empty body, and two of LOOPNZ with a body that clears ZF. -/
theorem witness_LoopCountLaw :
    (∀ u : State, (id u).cx = u.cx ∧ (id u).ip = u.ip) ∧ sample.cx.toNat = 1 ∧ sample.ip.toNat + 2 ≤ 0xFFFF ∧
    (∀ u : State, (u.setFlags f0).flags.ZF = false ∧ (u.setFlags f0).cx = u.cx ∧ (u.setFlags f0).ip = u.ip) ∧
    (withRegs { r0 with cx := 2, ip := 0xFFFD }).cx.toNat = 2 ∧
    (withRegs { r0 with cx := 2, ip := 0xFFFD }).ip.toNat + 2 ≤ 0xFFFF :=
  ⟨fun _ => ⟨rfl, rfl⟩, by decide, by decide, fun _ => ⟨rfl, rfl, rfl⟩, by decide, by decide⟩

/-- Two rounds of `top: add ax, 5; loop top` (rel8 = -5): the body adds and moves `ip` from 6 to 9 (program P1). -/
theorem witness_LoopRunsItsBodyNTimes :
    let body : State → State := fun u => (runRecord Config.reference (Instr.addAccImm (.imm16 5)).record u)
    let s := withRegs { r0 with cx := 2, ip := 6 }
    let round := fun k => (loopRound (.loopRel8 0xFB) body)^[k] s
    (∀ k, k < 2 → (body (round k)).cx = (round k).cx ∧ (body (round k)).ip = 9) ∧ (9 : Word).toNat + 2 ≤ 0xFFFF ∧
      ((9 : Word).toNat : Int) + 2 + (0xFB : Byte).toInt = (6 : Word).toNat ∧ s.ip = 6 ∧ s.cx.toNat = 2 ∧
      (round 2).regs.ax = 10 := by decide

theorem witness_AssembledJumpReachesItsTarget : (∃ c, jumpOf (.jeRel8 0x80) = some (c, 0x80) ∧ c sample.flags = true) ∧
    Asm.rel8 (withRegs { r0 with ip := 0x7E }).ip.toNat 0 = some 0x80 ∧
    (withRegs { r0 with ip := 0x7E }).ip.toNat + 2 ≤ 0xFFFF := ⟨⟨_, rfl, rfl⟩, by decide, by decide⟩

theorem witness_OnlyArithmeticWritesFlags : isAddOrSub (.addAccImm (.imm8 1)) = true ∧ sample.run = .running ∧
    ((nextOf (exec (.addAccImm (.imm8 1)) sample)).map fun t => t.run) = some .running ∧
    nextOf (exec (.addAccImm (.imm8 1)) (sample.setFlags f0)) ≠ none ∧
    isAddOrSub (.movAccAddr .byte 0) = false ∧ isCmp (.movAccAddr .byte 0) = false := by decide

theorem witness_OnlyMemoryDestinationsWriteMemory :
    ((nextOf (exec (.movRmR .word (.ind .bxSi) .axAl) sample)).map fun t => decide (t.mem ≠ sample.mem)) = some true := by
  decide

theorem witness_SegmentRegistersAreStorageOnly :
    ((nextOf (exec (.movSregRm16 .es (.reg .axAl)) sample)).map fun t => decide (t.regs.es ≠ sample.regs.es)) = some true ∧
    SameButSegments sample { sample with regs := { sample.regs with ds := 8 } } ∧
    (∀ i, sample.fetch = .instr i → readsSegment i = false) ∧ after sample ≠ none := by
  have hf : sample.fetch = .instr (.movRmR .word (.ind .bxSi) .axAl) := by decide
  refine ⟨by decide, ⟨rfl, rfl, rfl, rfl, rfl, fun g => by cases g <;> rfl⟩, fun i h => ?_, by decide⟩
  rw [hf] at h
  cases h
  rfl

/-- `MOV [BP - 2], [BX - 4]`, both addresses negative (V-H-7). -/
def twoBad : Record := ⟨.mov, 2, [.mem [6] (-2) 2, .mem [2] (-4) 2]⟩

/-- The two word accesses at the upper edge of the bank, and the byte access there (V-H-13, V-H-14). -/
def edge (width : Nat) (a : Int) : Record := ⟨.mov, 4, [.reg 1 width 0, .mem [] a width]⟩

theorem fits_twoBad : fitsTable Config.reference twoBad.op twoBad.operands :=
  ⟨_, _, rfl, .inr (.inl ⟨⟨.inr rfl, by decide, by decide⟩, .inl rfl⟩), .inr (.inl ⟨.inr rfl, by decide, by decide⟩),
    fun _ h => h, fun h => h.elim, fun h => h.elim⟩

theorem fits_edge (width : Nat) (a : Int) (h : width = 1 ∨ width = 2) :
    fitsTable Config.reference (edge width a).op (edge width a).operands :=
  ⟨_, _, rfl, .inl ⟨by decide, by decide, h⟩, .inr (.inl ⟨h, Nat.zero_le 2, fun _ ht => absurd ht List.not_mem_nil⟩),
    fun _ h => h, fun h => absurd h.1 (by decide), fun h => h.elim⟩

/-- Clause 2 with the second operand at fault, clause 3 with the first, clause 4 with the first of two bad addresses and with
the second where the first accesses no memory, and clause 5 with a target below 0. -/
theorem witness_RecordHaltsInOrder :
    ((Record.operands ⟨.mov, 2, [.imm 1, .reg 7 1 0]⟩)[1]? = some (.reg 7 1 0) ∧ registersOk (.reg 7 1 0) = false ∧
      registersOk (.imm 1) = true) ∧
    ((∀ o ∈ [OperandRec.imm 5, .reg 1 2 0], registersOk o = true) ∧
      checkBinary Config.reference .mov [.imm 5, .reg 1 2 0] = .error (some 0)) ∧
    ((∀ o ∈ twoBad.operands, registersOk o = true) ∧ fitsTable Config.reference twoBad.op twoBad.operands ∧
      accessOutside Config.reference r0 (.mem [6] (-2) 2) (-2) .word) ∧
    ((∀ o ∈ (edge 2 0xFFFFF).operands, registersOk o = true) ∧
      fitsTable Config.reference (edge 2 0xFFFFF).op (edge 2 0xFFFFF).operands ∧
      accessOutside Config.reference r0 (.mem [] 0xFFFFF 2) 0xFFFFF .word ∧
      ∀ a w, ¬ accessOutside Config.reference r0 (.reg 1 2 0) a w) ∧
    (eight.run = .running ∧ (runRecord Config.reference ⟨.jne, 2, [.imm 0xFFF0]⟩ eight).run =
      .haltedError (.branchTargetOutOfRange 0 (-14))) :=
  ⟨by decide, ⟨by decide, rfl⟩, ⟨by decide, fits_twoBad, rfl, by decide⟩,
    ⟨by decide, fits_edge 2 _ (.inr rfl), ⟨rfl, by decide⟩, fun _ _ h => nomatch h.1⟩, by decide⟩

/-- What each position clause asks: a segment register as the left operand of ADD, an immediate destination, three address
terms, a term that is AX, a segment register as the right operand of CMP, widths that differ, and a jump on a register. -/
theorem witness_OperandShapeTable :
    eight.run = .running ∧
    (∀ o ∈ [OperandRec.reg 12 2 0, .imm 5, .mem [2, 7, 8] 0 2, .mem [1] 0 2, .reg 2 1 0, .reg 1 2 0], registersOk o = true) ∧
    ¬ mayBeFirst Config.reference .add (.reg 12 2 0) ∧ ¬ mayBeFirst Config.reference .mov (.imm 5) ∧
    ¬ mayBeSecond .mov (.mem [2, 7, 8] 0 2) ∧ ¬ mayBeSecond .mov (.mem [1] 0 2) ∧ ¬ mayBeSecond .cmp (.reg 12 2 0) ∧
    (mayBeFirst Config.reference .mov (.reg 1 2 0) ∧ mayBeSecond .mov (.reg 2 1 0) ∧ ¬ isSegmentOperand (.reg 1 2 0) ∧
      ¬ isSegmentOperand (.reg 2 1 0) ∧ operandWidth (.reg 2 1 0) = some 1 ∧ operandWidth (.reg 1 2 0) ≠ some 1) ∧
    ¬ isImmediateOperand (.reg 1 2 0) := by
  simp [mayBeFirst, mayBeSecond, isGeneralOperand, isSegmentOperand, isMemoryOperand, isImmediateOperand, operandWidth,
    eight, registersOk, Reg.ofId, halfReg?, half?, State.reset]

/-- The upper edge of the bank: a word at 0xFFFFE and a byte at 0xFFFFF are inside, a word at 0xFFFFF is not, and in a bank
of 64 KiB neither is a word at 0xFFFF. -/
theorem witness_RecordAccessHaltsExactlyOutsideTheBank :
    (eight.run = .running ∧ (∀ o ∈ (edge 1 0xFFFFF).operands, registersOk o = true) ∧
      fitsTable Config.reference (edge 1 0xFFFFF).op (edge 1 0xFFFFF).operands ∧
      fitsTable Config.reference (edge 2 0xFFFFE).op (edge 2 0xFFFFE).operands) ∧
    (∀ a w, ¬ accessOutside Config.reference r0 (.mem [] 0xFFFFF 1) a w) ∧
    (∀ a w, ¬ accessOutside Config.reference r0 (.mem [] 0xFFFFE 2) a w) ∧
    accessOutside Config.reference r0 (.mem [] 0xFFFFF 2) 0xFFFFF .word ∧
    accessOutside ⟨0x10000, true⟩ { r0 with bx := 0xFFFF } (.mem [2, 7] 0 2) 0xFFFF .word := by
  refine ⟨⟨rfl, by decide, fits_edge 1 _ (.inl rfl), fits_edge 2 _ (.inr rfl)⟩, ?_, ?_, ⟨rfl, by decide⟩, rfl, by decide⟩
  · rintro a w ⟨h, ha⟩
    cases h
    exact absurd ha (by decide)
  · rintro a w ⟨h, ha⟩
    cases h
    exact absurd ha (by decide)

theorem witness_IpIsNeverADataOperand : OperandRec.reg 13 2 0 ∈ (Record.operands ⟨.mov, 2, [.reg 1 2 0, .reg 13 2 0]⟩) := by
  decide

theorem witness_CheckedRecordsRun : registerViolation [.mem [2] 0 1, .mem [7] 0 1] = none ∧
    ∃ check c, shapeCheck Config.reference .add = .ok check ∧ check [.mem [2] 0 1, .mem [7] 0 1] = .ok c :=
  ⟨by decide, _, _, rfl, rfl⟩

theorem witness_MemoryToMemoryRecordsRun : ([AddrReg.bx, .si]).length ≤ 2 ∧
    admitted Config.reference.memSize (effectiveAddress [.bx, .si] 0 sample.regs) .word = true ∧
    admitted Config.reference.memSize (effectiveAddress [] 0xFFFFE sample.regs) .word = true ∧
    Config.reference.memDestArith = true := by decide

end Sys2Proof.Tests
end

section
/-! SUPPORT. The word cells and their byte halves (10_state.md R21 to R24), and the register contract on raw indices (R20,
R23, 40_dispatch.md R117). -/

namespace Sys2Proof.Machine

/-! ### Word cells -/

@[simp] theorem getWord_setWord (r : Regs) (x : Reg) (v : Word) : (r.setWord x v).getWord x = v := by
  cases x with
  | gen g => exact getGen_setGen r g v
  | seg sr => exact getSeg_setSeg r sr v
  | ip => rfl

theorem getWord_setWord_ne (r : Regs) {x y : Reg} (v : Word) (h : y ≠ x) :
    (r.setWord x v).getWord y = r.getWord y := by
  cases x with
  | gen g =>
    cases y with
    | gen g' => exact getGen_setGen_ne r g g' v fun e => h (congrArg Reg.gen e)
    | seg sr => exact getSeg_setGen r g sr v
    | ip => exact ip_setGen r g v
  | seg sr =>
    cases y with
    | gen g => exact getGen_setSeg r sr g v
    | seg sr' => exact getSeg_setSeg_ne r sr sr' v fun e => h (congrArg Reg.seg e)
    | ip => exact ip_setSeg r sr v
  | ip =>
    cases y with
    | gen g => exact getGen_setIp r g v
    | seg sr => exact getSeg_setIp r sr v
    | ip => exact absurd rfl h

/-! ### Byte halves -/

/-- The low half is the low byte of the cell (R23). -/
theorem getByte_low (r : Regs) (x : HalfReg) : r.getByte x .low = loByte (r.getGen x.gen) := by
  apply BitVec.eq_of_getLsbD_eq
  intro i hi
  simp [Regs.getByte, Half.offset, loByte]

/-- The high half is the high byte of the cell (R23). -/
theorem getByte_high (r : Regs) (x : HalfReg) : r.getByte x .high = hiByte (r.getGen x.gen) := by
  apply BitVec.eq_of_getLsbD_eq
  intro i hi
  simp [Regs.getByte, Half.offset, hiByte]

/-- A byte widened to a word is 0 and the byte. -/
theorem setWidth_eq_append (v : Byte) : v.setWidth 16 = 0#8 ++ v := by
  apply BitVec.eq_of_getLsbD_eq
  intro i hi
  rw [BitVec.getLsbD_append, BitVec.getLsbD_setWidth]
  by_cases h : i < 8
  · simp [h, hi]
  · simp [h, BitVec.getLsbD_of_ge v i (by omega)]

/-- A byte widened to a word and shifted up is the byte and 0. -/
theorem setWidth_shiftLeft_eq_append (v : Byte) : v.setWidth 16 <<< 8 = v ++ 0#8 := by
  apply BitVec.eq_of_getLsbD_eq
  intro i hi
  rw [BitVec.getLsbD_append, BitVec.getLsbD_shiftLeft, BitVec.getLsbD_setWidth]
  by_cases h : i < 8
  · simp [h, hi]
  · simp [h, hi]; omega

/-- The mask and or of a low byte write, as two bytes joined (R23). -/
theorem maskHigh_or (x : Word) (v : Byte) : (x &&& 0xFF00) ||| v.setWidth 16 = hiByte x ++ v := by
  have hmask : (0xFF00 : Word) = BitVec.allOnes 8 ++ 0#8 := by decide
  conv_lhs => rw [← hiByte_append_loByte x]
  rw [hmask, setWidth_eq_append, BitVec.and_append, BitVec.or_append, BitVec.and_allOnes]
  simp

/-- The mask and or of a high byte write, as two bytes joined (R23). -/
theorem maskLow_or (x : Word) (v : Byte) : (x &&& (0x00FF : Word)) ||| (v.setWidth 16 <<< 8) = v ++ loByte x := by
  have hmask : (0x00FF : Word) = 0#8 ++ BitVec.allOnes 8 := by decide
  conv_lhs => rw [← hiByte_append_loByte x]
  rw [hmask, setWidth_shiftLeft_eq_append, BitVec.and_append, BitVec.or_append, BitVec.and_allOnes]
  simp

theorem setByte_low (r : Regs) (x : HalfReg) (v : Byte) :
    r.setByte x .low v = r.setGen x.gen (r.getByte x .high ++ v) := by
  rw [getByte_high]
  exact congrArg (r.setGen x.gen) (maskHigh_or (r.getGen x.gen) v)

theorem setByte_high (r : Regs) (x : HalfReg) (v : Byte) :
    r.setByte x .high v = r.setGen x.gen (v ++ r.getByte x .low) := by
  rw [getByte_low]
  exact congrArg (r.setGen x.gen) (maskLow_or (r.getGen x.gen) v)

/-- Settles O22: the read-after-write laws of the register file, and the halves as the bytes of the cell. -/
theorem wordAccessOfRegisters : Obligations.WordAccessOfRegisters := by
  intro r x v
  refine ⟨getWord_setWord r x v, fun y hy => getWord_setWord_ne r v hy, ?_⟩
  rintro h rfl
  constructor
  · rw [getByte_low, Regs.setWord, getGen_setGen]; rfl
  · rw [getByte_high, Regs.setWord, getGen_setGen]; rfl

/-- Settles O23: a byte write joins the new byte to the half it keeps. -/
theorem byteHalvesAliasTheWord : Obligations.ByteHalvesAliasTheWord := by
  intro r h v
  refine ⟨?_, ?_, fun k y hy => ?_⟩
  · simp [setByte_low, getByte_low, getByte_high, Regs.getWord]
  · simp [setByte_high, getByte_low, getByte_high, Regs.getWord]
  · obtain ⟨u, hu⟩ := setByte_eq_setGen r h k v
    rw [hu]
    exact getWord_setWord_ne r u hy

/-! ### The register contract -/

/-- The valid register indices are 1 to 13 (R20). -/
theorem ofId_isSome (n : Nat) : (Reg.ofId n).isSome = true ↔ 1 ≤ n ∧ n ≤ 13 := by
  by_cases h : n ≤ 13
  · interval_cases n <;> decide
  · obtain ⟨k, rfl⟩ : ∃ k, n = k + 14 := ⟨n - 14, by omega⟩
    simp [Reg.ofId]

/-- The registers with byte halves are those of index 1 to 4 (R23). -/
theorem halfReg?_isSome {n : Nat} {r : Reg} (h : Reg.ofId n = some r) : (halfReg? r).isSome = true ↔ n ≤ 4 := by
  obtain ⟨h1, h13⟩ := (ofId_isSome n).mp (by rw [h]; rfl)
  interval_cases n <;> cases h <;> decide

/-- The byte offsets are 0 and 1 (R21). -/
theorem half?_isSome (k : Nat) : (half? k).isSome = true ↔ k ≤ 1 := by
  match k with
  | 0 => decide
  | 1 => decide
  | k + 2 => simp [half?]

/-- Settles O52: the three lookups answer exactly on the indices and offsets of the contract. -/
theorem registerContract : Obligations.RegisterContract := by
  constructor
  · intro index width offset
    cases h : Reg.ofId index with
    | none =>
      have hn := mt (ofId_isSome index).mpr (by simp [h])
      simp only [registersOk, h]
      exact ⟨fun e => absurd e Bool.false_ne_true, fun ⟨h1, h13, _⟩ => absurd ⟨h1, h13⟩ hn⟩
    | some r =>
      obtain ⟨h1, h13⟩ := (ofId_isSome index).mp (by rw [h]; rfl)
      simp only [registersOk, h, Bool.or_eq_true, bne_iff_ne, Bool.and_eq_true, halfReg?_isSome h, half?_isSome,
        h1, h13, true_and, imp_iff_not_or]
  · intro terms disp width
    simp only [registersOk, List.all_eq_true, ofId_isSome]

end Sys2Proof.Machine
end

section
/-! SUPPORT. The memory bank in canonical form (10_state.md R30), at reset and after a load (R35,
70_reset_and_hazards.md R230, R231). -/

namespace Sys2Proof.Machine

/-! ### The canonical form -/

/-- In canonical form the first listed address reads as its non-zero byte, and those below it as unlisted. -/
theorem wf_cons {k : Nat} {v : Byte} {m : Memory} (h : Memory.wf ((k, v) :: m)) :
    (∀ c ∈ m, k < c.1) ∧ v ≠ Memory.unlisted ∧ m.wf := by
  obtain ⟨hp, hz⟩ := h
  obtain ⟨hk, hp⟩ := List.pairwise_cons.mp hp
  exact ⟨hk, hz _ List.mem_cons_self, hp, fun c hc => hz c (List.mem_cons_of_mem _ hc)⟩

@[simp] theorem read_cons_self (k : Nat) (v : Byte) (m : Memory) : Memory.read ((k, v) :: m) k = v := by
  simp [Memory.read]

theorem read_cons_ne {a k : Nat} (v : Byte) (m : Memory) (h : a ≠ k) :
    Memory.read ((k, v) :: m) a = m.read a := by
  simp [Memory.read, h]

/-- Below its first listed address a canonical memory reads as unlisted. -/
theorem read_cons_of_lt {a k : Nat} {v : Byte} {m : Memory} (h : Memory.wf ((k, v) :: m)) (ha : a < k) :
    Memory.read ((k, v) :: m) a = Memory.unlisted := by
  obtain ⟨hk, _, _⟩ := wf_cons h
  exact read_of_lt (List.forall_mem_cons.mpr ⟨ha, fun c hc => ha.trans (hk c hc)⟩)

/-- Of two canonical memories that read the same, neither lists an address below all those of the other. -/
theorem le_of_read_eq {k k' : Nat} {v v' : Byte} {m m' : Memory} (h : Memory.wf ((k, v) :: m))
    (h' : Memory.wf ((k', v') :: m'))
    (hread : ∀ a, Memory.read ((k, v) :: m) a = Memory.read ((k', v') :: m') a) : k' ≤ k := by
  by_contra hlt
  obtain ⟨_, hv, _⟩ := wf_cons h
  have hk := hread k
  rw [read_cons_self, read_cons_of_lt h' (Nat.lt_of_not_le hlt)] at hk
  exact hv hk

/-- The empty memory is the only canonical memory that reads as unlisted everywhere. -/
theorem eq_nil_of_read_unlisted {m : Memory} (h : m.wf) (hread : ∀ a, m.read a = Memory.unlisted) : m = [] := by
  cases m with
  | nil => rfl
  | cons c m =>
    obtain ⟨k, v⟩ := c
    obtain ⟨_, hv, _⟩ := wf_cons h
    exact absurd ((read_cons_self k v m).symm.trans (hread k)) hv

/-- Settles O25, by induction on the first memory: the two list the same first cell, and their tails read the same. -/
theorem canonicalMemoriesAreEqualWhenTheyReadTheSame : Obligations.CanonicalMemoriesAreEqualWhenTheyReadTheSame := by
  intro m
  induction m with
  | nil => exact fun m' _ h' hread => (eq_nil_of_read_unlisted h' fun a => (hread a).symm).symm
  | cons c m ih =>
    intro m' h h' hread
    cases m' with
    | nil => exact eq_nil_of_read_unlisted h hread
    | cons c' m' =>
      obtain ⟨k, v⟩ := c
      obtain ⟨k', v'⟩ := c'
      obtain rfl : k = k' := le_antisymm (le_of_read_eq h' h fun a => (hread a).symm) (le_of_read_eq h h' hread)
      obtain rfl : v = v' := by simpa using hread k
      obtain ⟨hk, _, hwf⟩ := wf_cons h
      obtain ⟨hk', _, hwf'⟩ := wf_cons h'
      have htail : ∀ a, Memory.read m a = Memory.read m' a := by
        intro a
        by_cases ha : a = k
        · subst ha
          rw [read_of_lt hk, read_of_lt hk']
        · rw [← read_cons_ne v m ha, ← read_cons_ne v m' ha]
          exact hread a
      rw [ih m' hwf hwf' htail]

/-! ### Reset and load -/

/-- The empty memory is in canonical form. -/
theorem nil_wf : Memory.wf [] := ⟨List.Pairwise.nil, fun _ hc => absurd hc List.not_mem_nil⟩

@[simp] theorem getWord_reset (x : Reg) : Regs.reset.getWord x = 0 := by
  cases x with
  | gen g => cases g <;> rfl
  | seg sr => cases sr <;> rfl
  | ip => rfl

/-- Settles O17: the values of the reset state, and the invariant of the empty memory. -/
theorem resetStateIsAllZeroAndInvariant : Obligations.ResetStateIsAllZeroAndInvariant :=
  ⟨getWord_reset, rfl, fun _ => rfl, rfl, rfl,
    { memWf := nil_wf
      memInBank := fun _ hc => absurd hc List.not_mem_nil
      progLenBound := Nat.zero_le _
      inert := ⟨rfl, rfl, rfl⟩ }⟩

/-- An image stored at 0 in an empty bank keeps the invariant when it fits (R231). -/
theorem inv_loaded {P : Config.Params} {image : List Byte} (h : image.length ≤ P.maxProgLen) :
    Inv P { State.reset with mem := Memory.writeBytes [] 0 image, progLen := image.length } where
  memWf := writeBytes_wf nil_wf 0 image
  memInBank c hc := by
    have hsize : P.maxProgLen ≤ P.memSize := Nat.min_le_left _ _
    rcases mem_writeBytes_fst hc with ⟨_, hlt⟩ | hc
    · omega
    · exact absurd hc List.not_mem_nil
  progLenBound := h
  inert := ⟨rfl, rfl, rfl⟩

/-- Settles O18: the load stores the image at 0 of the reset state, when it fits the bound. -/
theorem loadGivesTheStartOfARun : Obligations.LoadGivesTheStartOfARun := by
  intro P image
  constructor
  · intro hlen
    refine ⟨_, if_pos hlen, getWord_reset, rfl, fun i hi => ?_, fun a ha => ?_, rfl, rfl, inv_loaded hlen⟩
    · simpa using read_writeBytes nil_wf 0 image i hi
    · exact read_writeBytes_of_outside [] image (by omega)
  · exact fun hlong => if_neg (Nat.not_le_of_lt hlong)

end Sys2Proof.Machine
end

section
/-! SUPPORT. What a step of the engine can do to the flags, the memory and the program length, said once for any parameters
and any decoder (40_dispatch.md R111 to R117), and the run invariants that follow (10_state.md R27, R30, R32). -/

namespace Sys2Proof.Machine

/-! ### What a step is -/

/-- What a step that answers a next state does: it halts cleanly, halts where it stands, or runs one record. -/
inductive StepsTo (P : Config.Params) (s : State) : State → Prop where
  | haltClean : StepsTo P s s.haltClean
  | raise (r : HaltRecord) : StepsTo P s (s.raise r)
  | record (rec : Record) : StepsTo P s (runRecord P rec s)

theorem stepsTo_of_stepWith {P : Config.Params} {D : Decoder} {s t : State} (h : stepWith P D s = .next t) :
    StepsTo P s t := by
  unfold stepWith at h
  split at h
  · split at h
    · cases h; exact .haltClean
    · split at h
      · rename_i rec _; cases h; exact .record rec
      · cases h; exact .raise _
  · cases h
  · cases h

/-- Every arm of `exec` runs the instruction's record at the reference parameters. -/
theorem exec_eq_runRecord (i : Instr) (s : State) : exec i s = .next (runRecord Config.reference i.record s) := by
  cases i <;> rfl

theorem stepsTo_of_step {s t : State} (h : step s = .next t) : StepsTo Config.reference s t := by
  rcases step_next_cases h with ⟨_, rfl⟩ | ⟨i, _, hi⟩ | ⟨name, n, _, rfl⟩ | ⟨_, rfl⟩
  · exact .haltClean
  · rw [exec_eq_runRecord] at hi
    cases hi
    exact .record i.record
  · exact .record { op := .other name, size := n, operands := [] }
  · exact .raise _

/-! ### The frame of a step -/

/-- What any step leaves of a state, whatever it does to the registers, the status flags and the run: DF, IF, TF and the
program length are kept, and memory is kept but for at most one write inside the bank. -/
structure StepFrame (P : Config.Params) (s t : State) : Prop where
  inert : SameInert s t
  progLen : t.progLen = s.progLen
  mem : t.mem = s.mem ∨ ∃ (w : Width) (a : Int) (v : BitVec w.bits),
    admitted P.memSize a w = true ∧ t.mem = s.mem.writeW a.toNat w v

/-- A step that keeps the flags, the program length and the memory is inside the frame. -/
theorem StepFrame.of_eq {P : Config.Params} {s t : State} (hf : t.flags = s.flags) (hp : t.progLen = s.progLen)
    (hm : t.mem = s.mem) : StepFrame P s t :=
  ⟨by rw [SameInert, hf]; exact ⟨rfl, rfl, rfl⟩, hp, .inl hm⟩

/-- A place in the bank has an admitted effective address (R58). -/
theorem admitted_of_inBank {P : Config.Params} {r : Regs} {w : Width} {p : Place w} {a : Int}
    (h : Place.inBank P r p = true) (ha : Place.ea? r p = some a) : admitted P.memSize a w = true := by
  cases p with
  | mem terms disp => cases ha; exact h
  | half r k => cases ha
  | gen g => cases ha
  | seg sr => cases ha

/-- MOV, ADD, SUB and CMP stay inside the frame. -/
theorem stepFrame_data (P : Config.Params) (pos : Word) {w : Width} (dst : Place w) (src : Source w) (s : State)
    (c : Checked) (hc : c = .move w dst src ∨ ∃ op, c = .arith op w dst src) :
    StepFrame P s (runChecked P pos c s) := by
  rcases runChecked_data_cases P pos dst src s c hc with ⟨a, _, ht⟩ | ⟨hr, f, hf, ⟨v, ht⟩ | ht⟩ <;> rw [ht]
  · exact .of_eq rfl rfl rfl
  · refine ⟨hf, by simp, ?_⟩
    rcases placeWrite_mem s dst v with hm | ⟨a, ha, hm⟩
    · exact .inl hm
    · have hbank := ((rangeViolation_eq_none P dst src s.regs).mp hr).1
      exact .inr ⟨w, a, v, admitted_of_inBank hbank ha, hm⟩
  · exact ⟨hf, rfl, .inl rfl⟩

/-- Every rule stays inside the frame. -/
theorem stepFrame_runChecked (P : Config.Params) (pos : Word) (c : Checked) (s : State) :
    StepFrame P s (runChecked P pos c s) := by
  cases c with
  | move w dst src => exact stepFrame_data P pos dst src s _ (.inl rfl)
  | arith op w dst src => exact stepFrame_data P pos dst src s _ (.inr ⟨op, rfl⟩)
  | jump c disp =>
    rcases runJump_cases pos c disp s with ⟨_, h⟩ | ⟨_, _, h⟩ | ⟨_, _, h⟩ <;> rw [runChecked, h] <;>
      exact .of_eq rfl rfl rfl
  | loop nz disp =>
    rcases runLoop_cases pos nz disp s with ⟨_, h⟩ | ⟨_, _, h⟩ | ⟨_, _, h⟩ <;> rw [runChecked, h] <;>
      exact .of_eq rfl rfl rfl

theorem stepFrame_runRecord (P : Config.Params) (rec : Record) (s : State) : StepFrame P s (runRecord P rec s) := by
  rcases runRecord_cases P rec s with ⟨_, _, h⟩ | ⟨_, _, h⟩ | ⟨_, _, h⟩ | ⟨_, c, _, _, _, h⟩ <;> rw [h]
  · exact .of_eq rfl rfl rfl
  · exact .of_eq rfl rfl rfl
  · exact .of_eq rfl rfl rfl
  · obtain ⟨hi, hp, hm⟩ := stepFrame_runChecked P s.ip c (s.advance rec.size)
    exact ⟨hi, hp, hm⟩

/-- Every step stays inside the frame. -/
theorem StepsTo.frame {P : Config.Params} {s t : State} (h : StepsTo P s t) : StepFrame P s t := by
  cases h with
  | haltClean => exact .of_eq rfl rfl rfl
  | raise r => exact .of_eq rfl rfl rfl
  | record rec => exact stepFrame_runRecord P rec s

/-- Along a run DF, IF, TF and the program length are kept. -/
theorem reaches_keeps {s t : State} (h : Reaches s t) : SameInert s t ∧ t.progLen = s.progLen := by
  induction h with
  | refl => exact ⟨⟨rfl, rfl, rfl⟩, rfl⟩
  | step _ hstep ih =>
    obtain ⟨⟨hd, hi, ht⟩, hp⟩ := ih
    obtain ⟨⟨hd', hi', ht'⟩, hp', _⟩ := (stepsTo_of_step hstep).frame
    exact ⟨⟨hd'.trans hd, hi'.trans hi, ht'.trans ht⟩, hp'.trans hp⟩

/-! ### The invariant -/

/-- A write inside the bank lists no address outside it (R58). -/
theorem writeW_inBank {P : Config.Params} {m : Memory} {a : Int} {w : Width} (v : BitVec w.bits)
    (hm : ∀ c ∈ m, c.1 < P.memSize) (ha : admitted P.memSize a w = true) :
    ∀ c ∈ m.writeW a.toNat w v, c.1 < P.memSize := by
  intro c hc
  simp only [admitted, Bool.and_eq_true, decide_eq_true_eq] at ha
  rcases mem_writeW_fst hc with ⟨_, hlt⟩ | hc
  · omega
  · exact hm c hc

/-- The invariant is kept by whatever stays inside the frame. -/
theorem StepFrame.inv {P : Config.Params} {s t : State} (h : StepFrame P s t) (hs : Inv P s) : Inv P t := by
  obtain ⟨⟨hd, hi, ht⟩, hp, hm⟩ := h
  obtain ⟨hwf, hbank, hlen, hd0, hi0, ht0⟩ := hs
  refine ⟨?_, ?_, hp ▸ hlen, hd.trans hd0, hi.trans hi0, ht.trans ht0⟩
  · rcases hm with hm | ⟨w, a, v, _, hm⟩ <;> rw [hm]
    · exact hwf
    · exact writeW_wf hwf a.toNat w v
  · rcases hm with hm | ⟨w, a, v, ha, hm⟩ <;> rw [hm]
    · exact hbank
    · exact writeW_inBank v hbank ha

/-- Settles O19: the frame of a step keeps the invariant. -/
theorem everyStepKeepsTheInvariant : Obligations.EveryStepKeepsTheInvariant :=
  ⟨fun _ _ _ _ hs h => (stepsTo_of_stepWith h).frame.inv hs, fun _ _ hs h => (stepsTo_of_step h).frame.inv hs⟩

/-- Settles O21: the program length is in the frame of a step, and so of a run. -/
theorem noStepWritesTheProgramLength : Obligations.NoStepWritesTheProgramLength :=
  ⟨fun _ _ _ _ h => (stepsTo_of_stepWith h).frame.progLen, fun _ _ h => (reaches_keeps h).2⟩

end Sys2Proof.Machine
end

section
/-! SUPPORT. The flag register as an input: what the rules of the engine do from two states that differ in their flags
(10_state.md R26, R27, 42_flags.md R156, R160). -/

namespace Sys2Proof.Machine

/-! ### Operands do not see the flags -/

@[simp] theorem placeRead_setFlags {w : Width} (p : Place w) (s : State) (f : Flags) :
    Place.read (s.setFlags f) p = Place.read s p := by
  cases p <;> rfl

@[simp] theorem sourceRead_setFlags {w : Width} (src : Source w) (s : State) (f : Flags) :
    Source.read (s.setFlags f) src = Source.read s src := by
  cases src with
  | place p => exact placeRead_setFlags p s f
  | imm v => rfl

@[simp] theorem placeWrite_setFlags {w : Width} (p : Place w) (s : State) (f : Flags) (v : BitVec w.bits) :
    Place.write (s.setFlags f) p v = (Place.write s p v).setFlags f := by
  cases p <;> rfl

/-! ### The rules, from a state with other flags -/

/-- MOV carries the flags along. -/
theorem runMove_setFlags (P : Config.Params) (pos : Word) {w : Width} (dst : Place w) (src : Source w) (s : State)
    (f : Flags) : runMove P pos dst src (s.setFlags f) = (runMove P pos dst src s).setFlags f := by
  simp only [runMove, setFlags_regs]
  split
  · rfl
  · simp

/-- With both operands in the bank, ADD, SUB and CMP read no flag: only DF, IF and TF of the flags before are left after
(R156, R160). -/
theorem runArith_setFlags {P : Config.Params} {pos : Word} {op : ArithOp} {w : Width} {dst : Place w} {src : Source w}
    {s : State} (h : rangeViolation P dst src s.regs = none) (f : Flags) :
    runChecked P pos (.arith op w dst src) (s.setFlags f) =
      (runChecked P pos (.arith op w dst src) s).setFlags
        { (runChecked P pos (.arith op w dst src) s).flags with DF := f.DF, IF := f.IF, TF := f.TF } := by
  have h' : rangeViolation P dst src (s.setFlags f).regs = none := h
  cases op with
  | add =>
    simp only [runChecked, runAdd_eq h, runAdd_eq h', placeRead_setFlags, sourceRead_setFlags, placeWrite_setFlags]
    rfl
  | sub =>
    simp only [runChecked, runSub_eq h, runSub_eq h', placeRead_setFlags, sourceRead_setFlags, placeWrite_setFlags]
    rfl
  | cmp =>
    simp only [runChecked, runCmp_eq h, runCmp_eq h', placeRead_setFlags, sourceRead_setFlags]
    rfl

/-- A jump reads the flags through its condition alone (R192). -/
theorem runJump_setFlags (pos : Word) (c : Cond) (disp : Byte) (s : State) (f : Flags)
    (h : f.holds c = s.flags.holds c) : runJump pos c disp (s.setFlags f) = (runJump pos c disp s).setFlags f := by
  have ht : branchTarget disp (s.setFlags f) = branchTarget disp s := rfl
  simp only [runJump, setFlags_flags, h, ht]
  split
  · split <;> rfl
  · rfl

/-- A loop reads ZF alone (R198, R199). -/
theorem runLoop_setFlags (pos : Word) (nz : Bool) (disp : Byte) (s : State) (f : Flags) (h : f.ZF = s.flags.ZF) :
    runLoop pos nz disp (s.setFlags f) = (runLoop pos nz disp s).setFlags f := by
  have ht : branchTarget disp (s.setFlags f) = branchTarget disp s := rfl
  have hc : (s.setFlags f).cx = s.cx := rfl
  have hz : ∀ c, loopTaken nz c f = loopTaken nz c s.flags := fun c => by simp only [loopTaken, h]
  simp only [runLoop, setFlags_flags, hz, ht, hc]
  split
  · split <;> rfl
  · rfl

/-! ### The rules that write no flag -/

theorem runMove_flags (P : Config.Params) (pos : Word) {w : Width} (dst : Place w) (src : Source w) (s : State) :
    (runMove P pos dst src s).flags = s.flags := by
  unfold runMove
  split
  · rfl
  · exact placeWrite_flags s dst _

theorem runJump_flags (pos : Word) (c : Cond) (disp : Byte) (s : State) : (runJump pos c disp s).flags = s.flags := by
  rcases runJump_cases pos c disp s with ⟨_, h⟩ | ⟨_, _, h⟩ | ⟨_, _, h⟩ <;> rw [h] <;> rfl

theorem runLoop_flags (pos : Word) (nz : Bool) (disp : Byte) (s : State) : (runLoop pos nz disp s).flags = s.flags := by
  rcases runLoop_cases pos nz disp s with ⟨_, h⟩ | ⟨_, _, h⟩ | ⟨_, _, h⟩ <;> rw [h] <;> rfl

/-! ### The inert flags -/

/-- The state with other values of DF, IF and TF. -/
def State.withInert (df ifl tf : Bool) (s : State) : State :=
  s.setFlags { s.flags with DF := df, IF := ifl, TF := tf }

/-- No rule reads DF, IF or TF (R27). -/
theorem runChecked_withInert (P : Config.Params) (pos : Word) (c : Checked) (df ifl tf : Bool) (s : State) :
    runChecked P pos c (s.withInert df ifl tf) = (runChecked P pos c s).withInert df ifl tf := by
  cases c with
  | move w dst src =>
    simp only [runChecked, State.withInert, runMove_flags]
    exact runMove_setFlags P pos dst src s _
  | arith op w dst src =>
    cases hr : rangeViolation P dst src s.regs with
    | none => exact runArith_setFlags hr _
    | some a =>
      have hr' : rangeViolation P dst src (s.withInert df ifl tf).regs = some a := hr
      rw [runChecked_arith_halt hr, runChecked_arith_halt hr']
      rfl
  | jump c disp =>
    simp only [runChecked, State.withInert, runJump_flags]
    exact runJump_setFlags pos c disp s _ (by cases c <;> rfl)
  | loop nz disp =>
    simp only [runChecked, State.withInert, runLoop_flags]
    exact runLoop_setFlags pos nz disp s _ rfl

/-- No record, checked or not, reads DF, IF or TF. -/
theorem runRecord_withInert (P : Config.Params) (rec : Record) (df ifl tf : Bool) (s : State) :
    runRecord P rec (s.withInert df ifl tf) = (runRecord P rec s).withInert df ifl tf := by
  have hip : (s.withInert df ifl tf).ip = s.ip := rfl
  have hadv : (s.withInert df ifl tf).advance rec.size = (s.advance rec.size).withInert df ifl tf := rfl
  unfold runRecord dispatch
  rw [hip, hadv]
  split
  · rfl
  · split
    · rfl
    · split
      · exact runChecked_withInert P s.ip _ df ifl tf _
      · rfl

/-- The outcome of a step with its next state, if it has one, replaced by another. -/
def mapNext (g : State → State) : Host.Outcome State Fault Refusal → Host.Outcome State Fault Refusal
  | .next t => .next (g t)
  | .fault r => .fault r
  | .refused r => .refused r

/-- A step commutes with the choice of DF, IF and TF (R27). -/
theorem stepWith_withInert (P : Config.Params) (D : Decoder) (df ifl tf : Bool) (s : State) :
    stepWith P D (s.withInert df ifl tf) = mapNext (State.withInert df ifl tf) (stepWith P D s) := by
  have hrun : (s.withInert df ifl tf).run = s.run := rfl
  have hend : (s.withInert df ifl tf).atEnd = s.atEnd := rfl
  have hwindow : (s.withInert df ifl tf).window = s.window := rfl
  unfold stepWith
  rw [hrun, hend, hwindow]
  split
  · split
    · rfl
    · split
      · rw [runRecord_withInert]; rfl
      · rfl
  · rfl
  · rfl

/-- Settles O20: the frame of a step keeps DF, IF and TF, and a step commutes with their choice. -/
theorem inertFlagsAreNeitherWrittenNorRead : Obligations.InertFlagsAreNeitherWrittenNorRead := by
  refine ⟨fun P D s t h => (stepsTo_of_stepWith h).frame.inert, fun P D s df ifl tf => ⟨?_, ?_⟩,
    fun s t h => (reaches_keeps h).1, rfl, rfl, rfl⟩
  · exact fun t h => (stepWith_withInert P D df ifl tf s).trans (congrArg (mapNext _) h)
  · exact fun r h => (stepWith_withInert P D df ifl tf s).trans (congrArg (mapNext _) h)

end Sys2Proof.Machine
end

section
/-! SUPPORT. The checked form of each byte-encoded instruction, in terms of its operands as places (40_dispatch.md R113,
R117), and the flags and segment registers it reads and writes (10_state.md R26, R29). -/

namespace Sys2Proof.Machine

/-- The checked form an instruction runs as: the rule of its operation on its operands as places, or a jump or loop. -/
inductive RunsAs (i : Instr) : Checked → Prop where
  | move {w : Width} {dst : Place w} {src : Source w} (ho : dataOperands i = some ⟨w, dst, src⟩)
      (hop : i.record.op = .mov) : RunsAs i (.move w dst src)
  | arith {op : ArithOp} {w : Width} {dst : Place w} {src : Source w} (ho : dataOperands i = some ⟨w, dst, src⟩)
      (hop : i.record.op = .add ∨ i.record.op = .sub ∨ i.record.op = .cmp) : RunsAs i (.arith op w dst src)
  | jump {c : Cond} {disp : Byte} (hop : isDataOp i.record.op = false) : RunsAs i (.jump c disp)
  | loop {nz : Bool} {disp : Byte} (hop : isDataOp i.record.op = false) : RunsAs i (.loop nz disp)

/-- Every instruction has one checked form, which it runs in every state after its advance. -/
theorem exec_runsAs (i : Instr) : ∃ c n, RunsAs i c ∧
    ∀ s, exec i s = .next (runChecked Config.reference s.ip c (s.advance n)) := by
  cases i with
  | movRmR w rm reg => exact ⟨_, _, .move rfl rfl, exec_movRmR w rm reg⟩
  | movRRm w reg rm => exact ⟨_, _, .move rfl rfl, exec_movRRm w reg rm⟩
  | movRmImm rm imm => exact ⟨_, _, .move rfl rfl, exec_movRmImm rm imm⟩
  | movRImm reg imm => exact ⟨_, _, .move rfl rfl, exec_movRImm reg imm⟩
  | movAccAddr w addr => exact ⟨_, _, .move rfl rfl, exec_movAccAddr w addr⟩
  | movAddrAcc w addr => exact ⟨_, _, .move rfl rfl, exec_movAddrAcc w addr⟩
  | movRm16Sreg rm sr => exact ⟨_, _, .move rfl rfl, exec_movRm16Sreg rm sr⟩
  | movSregRm16 sr rm => exact ⟨_, _, .move rfl rfl, exec_movSregRm16 sr rm⟩
  | addRmR w rm reg => exact ⟨_, _, .arith rfl (.inl rfl), exec_addRmR w rm reg⟩
  | addRRm w reg rm => exact ⟨_, _, .arith rfl (.inl rfl), exec_addRRm w reg rm⟩
  | addRm8Imm8 rm imm => exact ⟨_, _, .arith rfl (.inl rfl), exec_addRm8Imm8 rm imm⟩
  | addRm16Imm16 rm imm => exact ⟨_, _, .arith rfl (.inl rfl), exec_addRm16Imm16 rm imm⟩
  | addRm16Simm8 rm imm => exact ⟨_, _, .arith rfl (.inl rfl), exec_addRm16Simm8 rm imm⟩
  | addAccImm imm => exact ⟨_, _, .arith rfl (.inl rfl), exec_addAccImm imm⟩
  | subRmR w rm reg => exact ⟨_, _, .arith rfl (.inr (.inl rfl)), exec_subRmR w rm reg⟩
  | subRRm w reg rm => exact ⟨_, _, .arith rfl (.inr (.inl rfl)), exec_subRRm w reg rm⟩
  | subRm8Imm8 rm imm => exact ⟨_, _, .arith rfl (.inr (.inl rfl)), exec_subRm8Imm8 rm imm⟩
  | subRm16Imm16 rm imm => exact ⟨_, _, .arith rfl (.inr (.inl rfl)), exec_subRm16Imm16 rm imm⟩
  | subRm16Simm8 rm imm => exact ⟨_, _, .arith rfl (.inr (.inl rfl)), exec_subRm16Simm8 rm imm⟩
  | subAccImm imm => exact ⟨_, _, .arith rfl (.inr (.inl rfl)), exec_subAccImm imm⟩
  | cmpRmR w rm reg => exact ⟨_, _, .arith rfl (.inr (.inr rfl)), exec_cmpRmR w rm reg⟩
  | cmpRRm w reg rm => exact ⟨_, _, .arith rfl (.inr (.inr rfl)), exec_cmpRRm w reg rm⟩
  | cmpRm8Imm8 rm imm => exact ⟨_, _, .arith rfl (.inr (.inr rfl)), exec_cmpRm8Imm8 rm imm⟩
  | cmpRm16Imm16 rm imm => exact ⟨_, _, .arith rfl (.inr (.inr rfl)), exec_cmpRm16Imm16 rm imm⟩
  | cmpRm16Simm8 rm imm => exact ⟨_, _, .arith rfl (.inr (.inr rfl)), exec_cmpRm16Simm8 rm imm⟩
  | cmpAccImm imm => exact ⟨_, _, .arith rfl (.inr (.inr rfl)), exec_cmpAccImm imm⟩
  | jneRel8 rel => exact ⟨_, _, .jump rfl, exec_jneRel8 rel⟩
  | jeRel8 rel => exact ⟨_, _, .jump rfl, exec_jeRel8 rel⟩
  | jbRel8 rel => exact ⟨_, _, .jump rfl, exec_jbRel8 rel⟩
  | jpRel8 rel => exact ⟨_, _, .jump rfl, exec_jpRel8 rel⟩
  | loopRel8 rel => exact ⟨_, _, .loop rfl, exec_loopRel8 rel⟩
  | loopnzRel8 rel => exact ⟨_, _, .loop rfl, exec_loopnzRel8 rel⟩

/-! ### Flags -/

theorem isDataOp_of_isArith {i : Instr} (h : isAddOrSub i = true ∨ isCmp i = true) : isDataOp i.record.op = true := by
  simp only [isAddOrSub, isCmp, Bool.or_eq_true, beq_iff_eq] at h
  rcases h with (h | h) | h <;> rw [h] <;> rfl

/-- An ADD, SUB or CMP runs as an arithmetic form. -/
theorem RunsAs.arith_of_isArith {i : Instr} {c : Checked} (h : RunsAs i c)
    (hi : isAddOrSub i = true ∨ isCmp i = true) :
    ∃ (op : ArithOp) (w : Width) (dst : Place w) (src : Source w), c = .arith op w dst src := by
  cases h with
  | move _ hop => simp [isAddOrSub, isCmp, hop] at hi
  | arith _ _ => exact ⟨_, _, _, _, rfl⟩
  | jump hop => rw [isDataOp_of_isArith hi] at hop; cases hop
  | loop hop => rw [isDataOp_of_isArith hi] at hop; cases hop

/-- An instruction that is no ADD, SUB or CMP runs as a form that keeps every flag. -/
theorem RunsAs.keeps_flags {i : Instr} {c : Checked} (h : RunsAs i c) (has : isAddOrSub i = false)
    (hcmp : isCmp i = false) (P : Config.Params) (pos : Word) (s : State) : (runChecked P pos c s).flags = s.flags := by
  cases h with
  | move _ _ => exact runMove_flags P pos _ _ s
  | arith _ hop => rcases hop with h | h | h <;> simp [isAddOrSub, isCmp, h] at has hcmp
  | jump _ => exact runJump_flags pos _ _ s
  | loop _ => exact runLoop_flags pos _ _ s

/-- Settles O48: MOV, jumps and loops carry the flags along, and an arithmetic form reads none. -/
theorem onlyArithmeticWritesFlags : Obligations.OnlyArithmeticWritesFlags := by
  constructor
  · intro i s t hexec has hcmp
    obtain ⟨c, n, hc, hrun⟩ := exec_runsAs i
    rw [hrun] at hexec
    cases hexec
    exact hc.keeps_flags has hcmp Config.reference s.ip _
  · intro i s t u f hi _ hs hrunning hu
    obtain ⟨c, n, hc, hrun⟩ := exec_runsAs i
    obtain ⟨op, w, dst, src, rfl⟩ := hc.arith_of_isArith hi
    rw [hrun] at hs hu
    cases hs
    cases hu
    have hr : rangeViolation Config.reference dst src (s.advance n).regs = none := by
      cases hr : rangeViolation Config.reference dst src (s.advance n).regs with
      | none => rfl
      | some a => rw [runChecked_arith_halt hr] at hrunning; cases hrunning
    have hip : (s.setFlags f).ip = s.ip := rfl
    have hadv : (s.setFlags f).advance n = (s.advance n).setFlags f := rfl
    rw [hip, hadv, runArith_setFlags hr]
    exact ⟨rfl, rfl, rfl, rfl⟩

end Sys2Proof.Machine
end

section
/-! SUPPORT. The segment registers as plain storage (10_state.md R29, 20_memory.md R65, 43_move.md R171): which rules write
one, and what the rules do from two states that differ in them alone. -/

namespace Sys2Proof.Machine

/-! ### The rows that name a segment register -/

@[simp] theorem isSegment_accPlace (w : Width) : isSegment (accPlace w) = false := isSegment_regPlace .axAl w

@[simp] theorem isSegment_mem {w : Width} (terms : List AddrReg) (disp : Int) :
    isSegment (.mem terms disp : Place w) = false := rfl

/-- The one row with a segment register destination is `MOV sreg, r/m16` (R95, R171). -/
theorem isSegment_destination {i : Instr} {w : Width} {dst : Place w} {src : Source w}
    (h : dataOperands i = some ⟨w, dst, src⟩) : isSegment dst = false ∨ ∃ sr rm, i = .movSregRm16 sr rm := by
  cases i with
  | movSregRm16 sr rm => exact .inr ⟨sr, rm, rfl⟩
  | _ => left; cases h <;> simp

/-- The one row with a segment register source is `MOV r/m16, sreg` (R95, R171). -/
theorem isSegment_source {i : Instr} {w : Width} {dst p : Place w} (h : dataOperands i = some ⟨w, dst, .place p⟩)
    (hi : readsSegment i = false) : isSegment p = false := by
  cases i with
  | movRm16Sreg rm sr => cases hi
  | _ => cases h <;> simp

/-- A row whose destination is in a segment register's cell is the `MOV sreg, r/m16` of that register. -/
theorem eq_movSregRm16_of_destination {i : Instr} {w : Width} {dst : Place w} {src : Source w} {sr : SReg}
    (h : dataOperands i = some ⟨w, dst, src⟩) (hd : placeReg dst = some (.seg sr)) : ∃ rm, i = .movSregRm16 sr rm := by
  rcases isSegment_destination h with hseg | ⟨sr', rm, rfl⟩
  · cases dst with
    | seg _ => cases hseg
    | half r k => cases hd
    | gen g => cases hd
    | mem terms disp => cases hd
  · cases h
    cases hd
    exact ⟨rm, rfl⟩

/-! ### Writing a segment register -/

/-- A write to a place changes no segment register but the one the place is. -/
theorem getSeg_placeWrite {w : Width} {p : Place w} {sr : SReg} (s : State) (v : BitVec w.bits)
    (h : placeReg p ≠ some (.seg sr)) : (Place.write s p v).regs.getSeg sr = s.regs.getSeg sr := by
  cases p with
  | half r k =>
    obtain ⟨x, hx⟩ := setByte_eq_setGen s.regs r k v
    exact (congrArg (Regs.getSeg · sr) hx).trans (getSeg_setGen s.regs r.gen sr x)
  | gen g => exact getSeg_setGen s.regs g sr v
  | seg sr' => exact getSeg_setSeg_ne s.regs sr' sr v fun e => h (by rw [e]; rfl)
  | mem terms disp => rfl

/-- MOV, ADD, SUB and CMP change no segment register but the destination. -/
theorem getSeg_data (P : Config.Params) (pos : Word) {w : Width} {dst : Place w} {src : Source w} {sr : SReg}
    (s : State) {c : Checked} (hc : c = .move w dst src ∨ ∃ op, c = .arith op w dst src)
    (h : placeReg dst ≠ some (.seg sr)) : (runChecked P pos c s).regs.getSeg sr = s.regs.getSeg sr := by
  rcases runChecked_data_cases P pos dst src s c hc with ⟨a, _, ht⟩ | ⟨_, f, _, ⟨v, ht⟩ | ht⟩ <;> rw [ht]
  · rfl
  · exact getSeg_placeWrite s v h
  · rfl

/-- The rule an instruction runs as changes no segment register but the instruction's destination. -/
theorem RunsAs.getSeg_eq {i : Instr} {c : Checked} (hc : RunsAs i c) {sr : SReg}
    (h : ¬ ∃ rm, i = .movSregRm16 sr rm) (P : Config.Params) (pos : Word) (s : State) :
    (runChecked P pos c s).regs.getSeg sr = s.regs.getSeg sr := by
  cases hc with
  | move ho _ => exact getSeg_data P pos s (.inl rfl) fun hd => h (eq_movSregRm16_of_destination ho hd)
  | arith ho _ => exact getSeg_data P pos s (.inr ⟨_, rfl⟩) fun hd => h (eq_movSregRm16_of_destination ho hd)
  | @jump c disp _ =>
    rcases runJump_cases pos c disp s with ⟨_, h⟩ | ⟨_, _, h⟩ | ⟨_, _, h⟩ <;> rw [runChecked, h]
    · exact getSeg_setIp s.regs sr _
    · rfl
  | @loop nz disp _ =>
    rcases runLoop_cases pos nz disp s with ⟨_, h⟩ | ⟨_, _, h⟩ | ⟨_, _, h⟩ <;> rw [runChecked, h]
    · exact getSeg_setGen s.regs .cx sr _
    · exact (getSeg_setIp _ sr _).trans (getSeg_setGen s.regs .cx sr _)
    · rfl

/-! ### Two states that differ in the segment registers alone -/

section Twins

variable {s u : State} (h : SameButSegments s u)
include h

theorem sameButSegments_setRun (r : RunState) : SameButSegments (s.setRun r) (u.setRun r) := by
  obtain ⟨hf, hm, hp, _, hi, hg⟩ := h
  exact ⟨hf, hm, hp, rfl, hi, hg⟩

theorem sameButSegments_setFlags (f : Flags) : SameButSegments (s.setFlags f) (u.setFlags f) := by
  obtain ⟨_, hm, hp, hr, hi, hg⟩ := h
  exact ⟨rfl, hm, hp, hr, hi, hg⟩

theorem sameButSegments_setMem (m : Memory) : SameButSegments (s.setMem m) (u.setMem m) := by
  obtain ⟨hf, _, hp, hr, hi, hg⟩ := h
  exact ⟨hf, rfl, hp, hr, hi, hg⟩

theorem sameButSegments_setIp (v : Word) : SameButSegments (s.setIp v) (u.setIp v) := by
  obtain ⟨hf, hm, hp, hr, _, hg⟩ := h
  exact ⟨hf, hm, hp, hr, rfl, fun g => by simp [hg]⟩

theorem sameButSegments_advance (n : Nat) : SameButSegments (s.advance n) (u.advance n) := by
  have ⟨_, _, _, _, hi, _⟩ := h
  rw [State.advance, State.advance, hi]
  exact sameButSegments_setIp h _

theorem sameButSegments_setGen (g : GReg) (v : Word) :
    SameButSegments (s.setRegs (s.regs.setGen g v)) (u.setRegs (u.regs.setGen g v)) := by
  obtain ⟨hf, hm, hp, hr, hi, hg⟩ := h
  refine ⟨hf, hm, hp, hr, (ip_setGen u.regs g v).trans (hi.trans (ip_setGen s.regs g v).symm), fun g' => ?_⟩
  by_cases hne : g' = g
  · subst hne
    simp
  · exact (getGen_setGen_ne u.regs g g' v hne).trans ((hg g').trans (getGen_setGen_ne s.regs g g' v hne).symm)

theorem sameButSegments_setSeg (sr : SReg) (v : Word) :
    SameButSegments (s.setRegs (s.regs.setSeg sr v)) (u.setRegs (u.regs.setSeg sr v)) := by
  obtain ⟨hf, hm, hp, hr, hi, hg⟩ := h
  refine ⟨hf, hm, hp, hr, (ip_setSeg u.regs sr v).trans (hi.trans (ip_setSeg s.regs sr v).symm), fun g => ?_⟩
  simp [hg]

/-- No address is formed from a segment register (R65, R135). -/
theorem effectiveAddress_sameButSegments (terms : List AddrReg) (disp : Int) :
    effectiveAddress terms disp u.regs = effectiveAddress terms disp s.regs := by
  obtain ⟨_, _, _, _, _, hg⟩ := h
  simp only [effectiveAddress, hg]

theorem rangeViolation_sameButSegments (P : Config.Params) {w : Width} (dst : Place w) (src : Source w) :
    rangeViolation P dst src u.regs = rangeViolation P dst src s.regs := by
  have hplace : ∀ p : Place w, Place.ea? u.regs p = Place.ea? s.regs p := fun p => by
    cases p with
    | mem terms disp => exact congrArg some (effectiveAddress_sameButSegments h terms disp)
    | half r k => rfl
    | gen g => rfl
    | seg sr => rfl
  have hsource : Source.ea? u.regs src = Source.ea? s.regs src := by
    cases src with
    | place p => exact hplace p
    | imm v => rfl
  rw [rangeViolation, rangeViolation, hplace dst, hsource]

theorem placeRead_sameButSegments {w : Width} {p : Place w} (hseg : isSegment p = false) :
    Place.read u p = Place.read s p := by
  have ⟨_, hm, _, _, _, hg⟩ := h
  cases p with
  | half r k => simp only [Place.read, Regs.getByte, hg]
  | gen g => exact hg g
  | seg sr => cases hseg
  | mem terms disp => simp only [Place.read, hm, effectiveAddress_sameButSegments h]

theorem sourceRead_sameButSegments {w : Width} {src : Source w} (hseg : ∀ p, src = .place p → isSegment p = false) :
    Source.read u src = Source.read s src := by
  cases src with
  | place p => exact placeRead_sameButSegments h (hseg p rfl)
  | imm v => rfl

theorem sameButSegments_placeWrite {w : Width} (p : Place w) (v : BitVec w.bits) :
    SameButSegments (Place.write s p v) (Place.write u p v) := by
  have ⟨_, hm, _, _, _, hg⟩ := h
  cases p with
  | half r k =>
    cases k <;> simp only [Place.write, Regs.setByte, hg] <;> exact sameButSegments_setGen h r.gen _
  | gen g => exact sameButSegments_setGen h g v
  | seg sr => exact sameButSegments_setSeg h sr v
  | mem terms disp =>
    simp only [Place.write, hm, effectiveAddress_sameButSegments h]
    exact sameButSegments_setMem h _

/-- MOV from no segment register. -/
theorem sameButSegments_move (P : Config.Params) (pos : Word) {w : Width} (dst : Place w) {src : Source w}
    (hsrc : ∀ p, src = .place p → isSegment p = false) :
    SameButSegments (runMove P pos dst src s) (runMove P pos dst src u) := by
  simp only [runMove, rangeViolation_sameButSegments h, sourceRead_sameButSegments h hsrc]
  split
  · exact sameButSegments_setRun h _
  · exact sameButSegments_placeWrite h dst _

/-- ADD, SUB and CMP of operands that are no segment registers. -/
theorem sameButSegments_arith (P : Config.Params) (pos : Word) (op : ArithOp) {w : Width} {dst : Place w}
    {src : Source w} (hdst : isSegment dst = false) (hsrc : ∀ p, src = .place p → isSegment p = false) :
    SameButSegments (runChecked P pos (.arith op w dst src) s) (runChecked P pos (.arith op w dst src) u) := by
  have ⟨hf, _, _, _, _, _⟩ := h
  have hr := rangeViolation_sameButSegments h P dst src
  have hd := placeRead_sameButSegments h hdst
  have hs := sourceRead_sameButSegments h hsrc
  cases op with
  | add =>
    simp only [runChecked, runAdd, hr, hd, hs, hf]
    split
    · exact sameButSegments_setRun h _
    · exact sameButSegments_setFlags (sameButSegments_placeWrite h dst _) _
  | sub =>
    simp only [runChecked, runSub, hr, hd, hs, hf]
    split
    · exact sameButSegments_setRun h _
    · exact sameButSegments_setFlags (sameButSegments_placeWrite h dst _) _
  | cmp =>
    simp only [runChecked, runCmp, hr, hd, hs, hf]
    split
    · exact sameButSegments_setRun h _
    · exact sameButSegments_setFlags h _

theorem branchTarget_sameButSegments (disp : Byte) : branchTarget disp u = branchTarget disp s := by
  obtain ⟨_, _, _, _, hi, _⟩ := h
  rw [branchTarget, branchTarget, hi]

theorem sameButSegments_jump (pos : Word) (c : Cond) (disp : Byte) :
    SameButSegments (runJump pos c disp s) (runJump pos c disp u) := by
  have ⟨hf, _, _, _, _, _⟩ := h
  simp only [runJump, hf, branchTarget_sameButSegments h]
  split
  · split
    · exact sameButSegments_setIp h _
    · exact sameButSegments_setRun h _
  · exact h

theorem sameButSegments_loop (pos : Word) (nz : Bool) (disp : Byte) :
    SameButSegments (runLoop pos nz disp s) (runLoop pos nz disp u) := by
  have ⟨hf, _, _, _, _, hg⟩ := h
  have hcx : u.cx = s.cx := hg .cx
  simp only [runLoop, hf, hcx, branchTarget_sameButSegments h]
  split
  · split
    · exact sameButSegments_setIp (sameButSegments_setGen h .cx _) _
    · exact sameButSegments_setRun h _
  · exact sameButSegments_setGen h .cx _

/-- The rule of an instruction that reads no segment register. -/
theorem sameButSegments_runsAs {i : Instr} {c : Checked} (hc : RunsAs i c) (hi : readsSegment i = false)
    (P : Config.Params) (pos : Word) : SameButSegments (runChecked P pos c s) (runChecked P pos c u) := by
  cases hc with
  | move ho _ => exact sameButSegments_move h P pos _ fun p hp => isSegment_source (hp ▸ ho) hi
  | arith ho hop =>
    refine sameButSegments_arith h P pos _ ?_ fun p hp => isSegment_source (hp ▸ ho) hi
    rcases isSegment_destination ho with hseg | ⟨sr, rm, rfl⟩
    · exact hseg
    · rcases hop with hop | hop | hop <;> cases hop
  | jump _ => exact sameButSegments_jump h pos _ _
  | loop _ => exact sameButSegments_loop h pos _ _

/-- The fetch reads no segment register (R65, R111). -/
theorem fetch_sameButSegments : u.fetch = s.fetch := by
  obtain ⟨_, hm, hp, hr, hi, _⟩ := h
  have hend : u.atEnd = s.atEnd := by rw [State.atEnd, State.atEnd, hp, hi]
  have hwindow : u.window = s.window := by rw [State.window, State.window, hm, hp, hi]
  rw [State.fetch, State.fetch, hr, hend, hwindow]

/-- A step that reads no segment register keeps the two states alike. -/
theorem step_sameButSegments {t : State} (hread : ∀ i, s.fetch = .instr i → readsSegment i = false)
    (hs : step s = .next t) : ∃ v, step u = .next v ∧ SameButSegments t v := by
  have ⟨_, _, _, _, hip, _⟩ := h
  have hfetch := fetch_sameButSegments h
  rcases step_next_cases hs with ⟨hf, rfl⟩ | ⟨i, hf, hexec⟩ | ⟨name, n, hf, rfl⟩ | ⟨hf, rfl⟩
  · exact ⟨u.haltClean, by simp only [step, hfetch, hf], sameButSegments_setRun h _⟩
  · obtain ⟨c, n, hc, hrun⟩ := exec_runsAs i
    rw [hrun] at hexec
    cases hexec
    refine ⟨_, (step_of_instr (hfetch.trans hf)).trans (hrun u), ?_⟩
    rw [hip]
    exact sameButSegments_runsAs (sameButSegments_advance h n) hc (hread i hf) _ _
  · exact ⟨(u.advance n).raise (.unimplementedOpcode s.ip name), by simp only [step, hfetch, hf, hip],
      sameButSegments_setRun (sameButSegments_advance h n) _⟩
  · exact ⟨u.raise (.decodeFailure s.ip), by simp only [step, hfetch, hf, hip], sameButSegments_setRun h _⟩

end Twins

/-- Settles O50: only `MOV sreg, r/m16` has a segment register destination, and no other value is formed from one. -/
theorem segmentRegistersAreStorageOnly : Obligations.SegmentRegistersAreStorageOnly := by
  constructor
  · intro i s t sr hexec hne
    obtain ⟨c, n, hc, hrun⟩ := exec_runsAs i
    rw [hrun] at hexec
    cases hexec
    by_contra hi
    exact hne ((hc.getSeg_eq hi _ _ _).trans (getSeg_setIp s.regs sr _))
  · exact fun s u h => ⟨(fetch_sameButSegments h).symm, fun hread t hs => step_sameButSegments h hread hs⟩

end Sys2Proof.Machine
end

section
/-! SUPPORT. The memory bank as bytes in little-endian order (20_memory.md R52 to R54), and the fetch window as the bytes of
memory at the step (R63). -/

namespace Sys2Proof.Machine

/-! ### Bytes of a word in memory -/

/-- A stored word has its low byte at the lower address (R53). -/
theorem read_writeW_word_low {m : Memory} (hm : m.wf) (a : Nat) (v : Word) :
    (m.writeW a .word v).read a = loByte v := by
  rw [Memory.writeW, read_write_ne _ _ (by omega)]
  exact read_write_self hm a _

/-- A stored word has its high byte at the higher address (R53). -/
theorem read_writeW_word_high {m : Memory} (hm : m.wf) (a : Nat) (v : Word) :
    (m.writeW a .word v).read (a + 1) = hiByte v :=
  read_write_self (write_wf hm a _) (a + 1) _

/-- A byte or a word reads back as it was stored (R52, R53). -/
theorem readW_writeW {m : Memory} (hm : m.wf) (a : Nat) (w : Width) (v : BitVec w.bits) :
    (m.writeW a w v).readW a w = v := by
  cases w with
  | byte => exact read_write_self hm a v
  | word =>
    rw [Memory.readW, read_writeW_word_low hm, read_writeW_word_high hm]
    exact hiByte_append_loByte v

/-- The low byte of a word read is the byte at its address (R52). -/
theorem loByte_readW_word (m : Memory) (a : Nat) : loByte (m.readW a .word) = m.read a :=
  loByte_append _ _

/-- Settles O24: the two bytes of a stored word, and the frame of a store. -/
theorem memoryIsLittleEndian : Obligations.MemoryIsLittleEndian := by
  intro m a b v hm
  refine ⟨⟨readW_writeW hm a .byte b, fun a' ha => read_write_ne m b ha⟩, readW_writeW hm a .word v,
    read_writeW_word_low hm a v, read_writeW_word_high hm a v, ?_, fun a' h0 h1 => ?_⟩
  · rw [loByte_readW_word]
    exact read_writeW_word_high hm a v
  · exact read_writeW_of_outside m .word v (by simp only [Width.bytes]; omega)

/-! ### The fetch window -/

/-- Entry `k` of a block of bytes is the byte at `a + k`. -/
theorem getElem?_readBytes (m : Memory) (a : Nat) {n k : Nat} (hk : k < n) :
    (m.readBytes a n)[k]? = some (m.read (a + k)) := by
  induction n generalizing a k with
  | zero => omega
  | succ n ih =>
    cases k with
    | zero => rfl
    | succ k =>
      rw [Memory.readBytes, List.getElem?_cons_succ, ih (a + 1) (by omega), Nat.add_right_comm, Nat.add_assoc]

/-- A byte stored inside a block changes that entry of the block and no other. -/
theorem readBytes_write {m : Memory} (hm : m.wf) (a : Nat) {n k : Nat} (b : Byte) (hk : k < n) :
    (m.write (a + k) b).readBytes a n = (m.readBytes a n).set k b := by
  refine List.ext_getElem? fun i => ?_
  by_cases hi : i < n
  · rw [getElem?_readBytes _ a hi, List.getElem?_set]
    by_cases hki : k = i
    · subst hki
      simp [hk, read_write_self hm]
    · rw [read_write_ne m b (by omega), if_neg hki, getElem?_readBytes m a hi]
  · rw [List.getElem?_eq_none (by simp; omega), List.getElem?_eq_none (by simp; omega)]

/-- Settles O26: the window is a block of bytes of the memory the step finds. -/
theorem fetchSeesEarlierStores : Obligations.FetchSeesEarlierStores := fun s =>
  ⟨length_window s, fun _ hk => getElem?_readBytes s.mem s.ip.toNat hk,
    fun _ b hm hk => readBytes_write hm s.ip.toNat b hk⟩

end Sys2Proof.Machine
end

section
/-! SUPPORT. The checks of a data record in terms of the operands as the decoder hands them over (40_dispatch.md R117), and
where its accesses halt (20_memory.md R58, 60_exceptions.md R216). -/

namespace Sys2Proof.Machine

/-! ### The opcode of a checked record -/

/-- The opcode tag of each operation with two operands (R71). -/
def BinOp.tag : BinOp → Op
  | .mov => .mov
  | .arith .add => .add
  | .arith .sub => .sub
  | .arith .cmp => .cmp

@[simp] theorem shapeCheck_tag (P : Config.Params) (b : BinOp) : shapeCheck P b.tag = .ok (checkBinary P b) := by
  rcases b with _ | (_ | _ | _) <;> rfl

/-- MOV, ADD, SUB and CMP are the operations with two operands (R117). -/
theorem exists_tag_of_isDataOp {op : Op} (h : isDataOp op = true) : ∃ b : BinOp, b.tag = op := by
  cases op with
  | mov => exact ⟨.mov, rfl⟩
  | add => exact ⟨.arith .add, rfl⟩
  | sub => exact ⟨.arith .sub, rfl⟩
  | cmp => exact ⟨.arith .cmp, rfl⟩
  | _ => cases h

theorem checked_move_or_arith (b : BinOp) (w : Width) (dst : Place w) (src : Source w) :
    b.checked w dst src = .move w dst src ∨ ∃ op, b.checked w dst src = .arith op w dst src := by
  cases b with
  | mov => exact .inl rfl
  | arith op => exact .inr ⟨op, rfl⟩

/-- The row of the table of R117 for the operations with two operands. -/
theorem fitsTable_tag (P : Config.Params) (b : BinOp) (operands : List OperandRec) :
    fitsTable P b.tag operands ↔ ∃ o0 o1, operands = [o0, o1] ∧ mayBeFirst P b.tag o0 ∧ mayBeSecond b.tag o1 ∧
      (∀ w, operandWidth o1 = some w → operandWidth o0 = some w) ∧
      (isSegmentOperand o0 → pairsWithSegment o1) ∧ (isSegmentOperand o1 → pairsWithSegment o0) := by
  rcases b with _ | (_ | _ | _) <;> rfl

/-! ### Address terms by register id -/

/-- The word an address term of a record adds, by its id (R20, R135). -/
def termWord (r : Regs) (t : Nat) : Nat :=
  if t = 2 then r.bx.toNat else if t = 6 then r.bp.toNat else if t = 7 then r.si.toNat
  else if t = 8 then r.di.toNat else 0

theorem accessOf_mem (r : Regs) (terms : List Nat) (disp : Int) (width : Nat) :
    accessOf r (.mem terms disp width) =
      some ((terms.map (termWord r)).sum + disp, if width = 1 then .byte else .word) := rfl

/-- The ids of BX, BP, SI and DI are those that name an address term (R20, R135). -/
theorem exists_addrReg? {t : Nat} (h : t = 2 ∨ t = 6 ∨ t = 7 ∨ t = 8) : ∃ x, addrReg? t = some x := by
  rcases h with rfl | rfl | rfl | rfl <;> exact ⟨_, rfl⟩

/-- An address term adds the word of the register it names. -/
theorem termWord_of_addrReg? {t : Nat} {x : AddrReg} (r : Regs) (h : addrReg? t = some x) :
    termWord r t = (r.getGen x.gen).toNat := by
  have ht : t ≤ 13 := by
    by_contra hlt
    have hn : Reg.ofId t = none := Option.not_isSome_iff_eq_none.mp fun hs => hlt ((ofId_isSome t).mp hs).2
    simp [addrReg?, hn] at h
  interval_cases t <;> cases h <;> rfl

theorem exists_mapM_addrReg? {terms : List Nat} (h : ∀ t ∈ terms, t = 2 ∨ t = 6 ∨ t = 7 ∨ t = 8) :
    ∃ ts, terms.mapM addrReg? = some ts ∧ ts.length = terms.length := by
  induction terms with
  | nil => exact ⟨[], rfl, rfl⟩
  | cons t terms ih =>
    obtain ⟨ht, hterms⟩ := List.forall_mem_cons.mp h
    obtain ⟨x, hx⟩ := exists_addrReg? ht
    obtain ⟨ts, hts, hlen⟩ := ih hterms
    exact ⟨x :: ts, by simp [hx, hts], by simp [hlen]⟩

theorem sum_termWord {terms : List Nat} {ts : List AddrReg} (r : Regs) (h : terms.mapM addrReg? = some ts) :
    (((terms.map (termWord r)).sum : Nat) : Int) = (ts.map fun t => ((r.getGen t.gen).toNat : Int)).sum := by
  induction terms generalizing ts with
  | nil => cases h; rfl
  | cons t terms ih =>
    simp only [List.mapM_cons, Option.pure_def, Option.bind_eq_bind, Option.bind_eq_some_iff, Option.some.injEq] at h
    obtain ⟨x, hx, ts', hts, rfl⟩ := h
    simp [termWord_of_addrReg? r hx, ih hts]

/-! ### The place an operand of a record stands for -/

theorem width_bytes_injective {w w' : Width} (h : w.bytes = w'.bytes) : w = w' := by
  cases w <;> cases w' <;> cases h <;> rfl

/-- A general register that keeps the register contract is a place of its width, which any operation may read or write. -/
theorem shapeOf_general {o : OperandRec} (h : isGeneralOperand o) (hok : registersOk o = true) :
    ∃ (w : Width) (p : Place w), shapeOf o = some (.place w p) ∧ operandWidth o = some w.bytes ∧ isSegment p = false ∧
      ∀ P b, destinationOk P b p = true ∧ sourceOk b p = true := by
  cases o with
  | imm v => cases h
  | mem terms disp width => cases h
  | reg index width offset =>
    obtain ⟨h1, h8, rfl | rfl⟩ := h
    · obtain ⟨_, _, hbyte⟩ := (registerContract.1 index 1 offset).mp hok
      obtain ⟨h4, hoff⟩ := hbyte rfl
      refine ⟨.byte, ?_⟩
      interval_cases index <;> interval_cases offset <;>
        exact ⟨.half _ _, rfl, rfl, rfl, fun _ b => by cases b <;> exact ⟨rfl, rfl⟩⟩
    · refine ⟨.word, ?_⟩
      interval_cases index <;> exact ⟨.gen _, rfl, rfl, rfl, fun _ b => by cases b <;> exact ⟨rfl, rfl⟩⟩

/-- A memory operand of a valid form is a memory place of its width. -/
theorem shapeOf_memory {o : OperandRec} (h : isMemoryOperand o) :
    ∃ (w : Width) (ts : List AddrReg) (disp : Int), shapeOf o = some (.place w (.mem ts disp)) ∧
      operandWidth o = some w.bytes := by
  cases o with
  | imm v => cases h
  | reg index width offset => cases h
  | mem terms disp width =>
    obtain ⟨hw, hlen, hterms⟩ := h
    obtain ⟨ts, hts, hlen'⟩ := exists_mapM_addrReg? hterms
    rcases hw with rfl | rfl
    · exact ⟨.byte, ts, disp, by simp [shapeOf, width?, hts, hlen', hlen], rfl⟩
    · exact ⟨.word, ts, disp, by simp [shapeOf, width?, hts, hlen', hlen], rfl⟩

/-- A segment register operand is a segment register place. -/
theorem shapeOf_segment {o : OperandRec} (h : isSegmentOperand o) :
    ∃ sr, shapeOf o = some (.place .word (.seg sr)) ∧ operandWidth o = some 2 := by
  cases o with
  | imm v => cases h
  | mem terms disp width => cases h
  | reg index width offset =>
    obtain ⟨h9, h12, rfl⟩ := h
    interval_cases index <;> exact ⟨_, rfl, rfl⟩

/-- An `operands[0]` within its column is a place that the operation may write. -/
theorem shapeOf_first {P : Config.Params} {b : BinOp} {o : OperandRec} (h : mayBeFirst P b.tag o)
    (hok : registersOk o = true) :
    ∃ (w : Width) (p : Place w), shapeOf o = some (.place w p) ∧ operandWidth o = some w.bytes ∧
      destinationOk P b p = true ∧ (isSegment p = true → isSegmentOperand o) := by
  rcases h with h | ⟨h, hd⟩ | ⟨h, hop⟩
  · obtain ⟨w, p, hs, hw, hseg, hp⟩ := shapeOf_general h hok
    exact ⟨w, p, hs, hw, (hp P b).1, fun e => by simp [hseg] at e⟩
  · obtain ⟨w, ts, disp, hs, hw⟩ := shapeOf_memory h
    refine ⟨w, _, hs, hw, ?_, fun e => by cases e⟩
    cases b with
    | mov => rfl
    | arith a => cases a <;> simpa [BinOp.tag, destinationOk] using hd
  · obtain ⟨sr, hs, hw⟩ := shapeOf_segment h
    refine ⟨.word, _, hs, hw, ?_, fun _ => h⟩
    cases b with
    | mov => rfl
    | arith a => cases a <;> cases hop

/-- An `operands[1]` within its column is an immediate, or a place that the operation may read. -/
theorem shapeOf_second {b : BinOp} {o : OperandRec} (h : mayBeSecond b.tag o) (hok : registersOk o = true) :
    (∃ v, o = .imm v) ∨
    ∃ (w : Width) (p : Place w), shapeOf o = some (.place w p) ∧ operandWidth o = some w.bytes ∧
      sourceOk b p = true ∧ (isSegment p = true → isSegmentOperand o) := by
  rcases h with h | h | h | ⟨h, hop⟩
  · obtain ⟨w, p, hs, hw, hseg, hp⟩ := shapeOf_general h hok
    exact .inr ⟨w, p, hs, hw, (hp Config.reference b).2, fun e => by simp [hseg] at e⟩
  · obtain ⟨w, ts, disp, hs, hw⟩ := shapeOf_memory h
    exact .inr ⟨w, _, hs, hw, by cases b <;> rfl, fun e => by cases e⟩
  · cases o with
    | imm v => exact .inl ⟨v, rfl⟩
    | reg index width offset => cases h
    | mem terms disp width => cases h
  · obtain ⟨sr, hs, hw⟩ := shapeOf_segment h
    refine .inr ⟨.word, _, hs, hw, ?_, fun _ => h⟩
    cases b with
    | mov => rfl
    | arith a => cases a <;> cases hop

/-- A segment register is paired with no immediate and with no segment register (R117). -/
theorem not_pairsWithSegment_imm (v : Word) : ¬ pairsWithSegment (.imm v) := by
  rintro ⟨h | h, _⟩ <;> cases h

theorem not_pairsWithSegment_of_segment {o : OperandRec} (h : isSegmentOperand o) : ¬ pairsWithSegment o := by
  cases o with
  | imm v => cases h
  | mem terms disp width => cases h
  | reg index width offset =>
    obtain ⟨h9, _, _⟩ := h
    rintro ⟨⟨_, h8, _⟩ | hm, _⟩
    · omega
    · cases hm

/-- A record that keeps the register contract and fits its row of the table passes the shape check (R117). -/
theorem checkBinary_of_fitsTable {P : Config.Params} {b : BinOp} {operands : List OperandRec}
    (hok : ∀ o ∈ operands, registersOk o = true) (h : fitsTable P b.tag operands) :
    ∃ c, checkBinary P b operands = .ok c := by
  obtain ⟨o0, o1, rfl, hfirst, hsecond, hwidth, hseg, _⟩ := (fitsTable_tag P b operands).mp h
  obtain ⟨w, dst, h0, hw, hd, hdseg⟩ := shapeOf_first hfirst (hok o0 (by simp))
  rcases shapeOf_second hsecond (hok o1 (by simp)) with ⟨v, rfl⟩ | ⟨w', src, h1, hw', hs, hsseg⟩
  · refine ⟨_, checkBinary_imm h0 hd ?_⟩
    exact Bool.eq_false_iff.mpr fun e => not_pairsWithSegment_imm v (hseg (hdseg e))
  · have heq := hwidth _ hw'
    rw [hw, Option.some.injEq] at heq
    obtain rfl := width_bytes_injective heq
    refine ⟨_, checkBinary_places h0 h1 hd hs ?_⟩
    rw [pairOk, Bool.not_eq_true', Bool.and_eq_false_imp]
    exact fun e => Bool.eq_false_iff.mpr fun e' => not_pairsWithSegment_of_segment (hsseg e') (hseg (hdseg e))

/-! ### The range check of a record -/

/-- The access of an operand is that of the place it stands for (R75, R136). -/
theorem accessOf_place {o : OperandRec} {w : Width} {p : Place w} (r : Regs) (h : shapeOf o = some (.place w p)) :
    accessOf r o = (Place.ea? r p).map fun a => (a, w) := by
  cases o with
  | imm v => cases h
  | mem terms disp width =>
    simp only [shapeOf] at h
    split at h
    · rename_i w' ts hw hts
      split at h
      · cases h
        rw [accessOf_mem, sum_termWord r hts]
        match width, hw with
        | 1, rfl => rfl
        | 2, rfl => rfl
      · cases h
    · cases h
  | reg index width offset =>
    simp only [shapeOf] at h
    split at h
    · split at h <;> cases h
      rfl
    · cases h; rfl
    · cases h; rfl
    · cases h

/-- An operand of immediate shape is an immediate. -/
theorem eq_imm_of_shapeOf {o : OperandRec} {v : Word} (h : shapeOf o = some (.imm v)) : o = .imm v := by
  cases o with
  | imm u => cases h; rfl
  | mem terms disp width =>
    simp only [shapeOf] at h
    split at h
    · split at h <;> cases h
    · cases h
  | reg index width offset =>
    simp only [shapeOf] at h
    split at h
    · split at h <;> cases h
    · cases h
    · cases h
    · cases h

/-- The shape of the operand a source comes from. -/
def Source.shape {w : Width} : Source w → Shape
  | .place p => .place w p
  | .imm v => .imm v

/-- A two-operand record that passes the shape check runs on the places its operands stand for. -/
theorem checkBinary_ok_shapes {P : Config.Params} {b : BinOp} {operands : List OperandRec} {c : Checked}
    (h : checkBinary P b operands = .ok c) :
    ∃ (o0 o1 : OperandRec) (w : Width) (dst : Place w) (src : Source w), operands = [o0, o1] ∧
      c = b.checked w dst src ∧ shapeOf o0 = some (.place w dst) ∧ shapeOf o1 = some (Source.shape src) := by
  obtain ⟨o0, o1, rfl⟩ := checkBinary_ok_length h
  obtain ⟨w, dst, src, hc, h0, _, ⟨v, rfl, h1, _⟩ | ⟨p, rfl, h1, _, _⟩⟩ := checkBinary_eq_ok h
  · exact ⟨o0, o1, w, dst, .imm v, rfl, hc, h0, h1⟩
  · exact ⟨o0, o1, w, dst, .place p, rfl, hc, h0, h1⟩

/-- Where the access of a destination is outside the bank (R58). -/
theorem accessOutside_place {P : Config.Params} {r : Regs} {o : OperandRec} {w w' : Width} {p : Place w} {a : Int}
    (h : shapeOf o = some (.place w p)) :
    accessOutside P r o a w' ↔ Place.ea? r p = some a ∧ w = w' ∧ admitted P.memSize a w = false := by
  rw [accessOutside, accessOf_place r h, admitted_eq_false]
  cases Place.ea? r p with
  | none => simp
  | some b =>
    simp only [Option.map_some, Option.some.injEq, Prod.mk.injEq, and_assoc]
    exact and_congr_right fun _ => and_congr_right fun hw => by rw [hw]

/-- Where the access of a source is outside the bank (R58). -/
theorem accessOutside_source {P : Config.Params} {r : Regs} {o : OperandRec} {w w' : Width} {src : Source w} {a : Int}
    (h : shapeOf o = some (Source.shape src)) :
    accessOutside P r o a w' ↔ Source.ea? r src = some a ∧ w = w' ∧ admitted P.memSize a w = false := by
  cases src with
  | place p => exact accessOutside_place h
  | imm v =>
    obtain rfl := eq_imm_of_shapeOf h
    simp [accessOutside, accessOf, Source.ea?]

/-- Everything a MOV, ADD, SUB or CMP record that fits its row can do to the run: it halts at an operand whose access is
outside the bank, or every access is inside it and the run goes on (R58, R116). -/
theorem runRecord_access_cases {P : Config.Params} {rec : Record} (hop : isDataOp rec.op = true)
    (hok : ∀ o ∈ rec.operands, registersOk o = true) (hfits : fitsTable P rec.op rec.operands) (s : State) :
    (∃ o ∈ rec.operands, ∃ a w, accessOutside P s.regs o a w ∧
      runRecord P rec s = (s.advance rec.size).raise (.addressOutOfRange s.ip a w)) ∨
    ((∀ o ∈ rec.operands, ∀ a w, ¬ accessOutside P s.regs o a w) ∧ (runRecord P rec s).run = s.run) := by
  obtain ⟨b, hb⟩ := exists_tag_of_isDataOp hop
  rw [← hb] at hfits
  obtain ⟨c, hc⟩ := checkBinary_of_fitsTable hok hfits
  have hviol : registerViolation rec.operands = none := by simpa [registerViolation] using hok
  have hrun := runRecord_of_checked (hb ▸ shapeCheck_tag P b) hviol hc s
  obtain ⟨o0, o1, w, dst, src, hops, rfl, h0, h1⟩ := checkBinary_ok_shapes hc
  rw [hrun, hops]
  rcases runChecked_data_cases P s.ip dst src (s.advance rec.size) _ (checked_move_or_arith b w dst src) with
    ⟨a, hr, ht⟩ | ⟨hr, f, _, ht⟩
  · left
    rw [advance_regs, rangeViolation_setIp] at hr
    rcases rangeViolation_eq_some hr with ⟨ha, hbad⟩ | ⟨_, ha, hbad⟩
    · exact ⟨o0, by simp, a, w, (accessOutside_place h0).mpr ⟨ha, rfl, hbad⟩, ht⟩
    · exact ⟨o1, by simp, a, w, (accessOutside_source h1).mpr ⟨ha, rfl, hbad⟩, ht⟩
  · right
    rw [advance_regs, rangeViolation_setIp] at hr
    obtain ⟨hdst, _⟩ := (rangeViolation_eq_none P dst src s.regs).mp hr
    refine ⟨fun o ho a w' hout => ?_, by rcases ht with ⟨v, ht⟩ | ht <;> simp [ht]⟩
    rcases List.mem_pair.mp ho with rfl | rfl
    · obtain ⟨ha, _, hbad⟩ := (accessOutside_place h0).mp hout
      cases hr.symm.trans (rangeViolation_of_destination src ha hbad)
    · obtain ⟨ha, _, hbad⟩ := (accessOutside_source h1).mp hout
      cases hr.symm.trans (rangeViolation_of_source hdst ha hbad)

/-- Settles O59: a fitting record halts at an access outside the bank, or has none and runs on. -/
theorem recordAccessHaltsExactlyOutsideTheBank : Obligations.RecordAccessHaltsExactlyOutsideTheBank := by
  intro P rec s hrunning hop hok hfits
  rcases runRecord_access_cases hop hok hfits s with ⟨o, ho, a, w, hout, hrun⟩ | ⟨hin, hrun⟩
  · exact ⟨⟨fun _ => ⟨o, ho, a, w, hout⟩, fun _ => ⟨a, w, hrun⟩⟩, fun hin => absurd hout (hin o ho a w)⟩
  · refine ⟨⟨fun ⟨a, w, h⟩ => ?_, fun ⟨o, ho, a, w, hout⟩ => absurd hout (hin o ho a w)⟩, fun _ => hrun.trans hrunning⟩
    rw [h, hrunning] at hrun
    cases hrun

end Sys2Proof.Machine
end

section
/-! SUPPORT. The data accesses of the byte-encoded instructions: where they halt (20_memory.md R58, 60_exceptions.md R216),
and which instructions write memory (R51, 10_state.md R30). -/

namespace Sys2Proof.Machine

/-! ### The length of an encoding -/

/-- Every instruction meets the family `Admitted`. -/
theorem admitted_statement : ∀ i : Instr, Laws.Admitted.Statement i
  | .movRmR .. => Laws.Admitted.movRmR ..
  | .movRRm .. => Laws.Admitted.movRRm ..
  | .movRmImm .. => Laws.Admitted.movRmImm ..
  | .movRImm .. => Laws.Admitted.movRImm ..
  | .movAccAddr .. => Laws.Admitted.movAccAddr ..
  | .movAddrAcc .. => Laws.Admitted.movAddrAcc ..
  | .movRm16Sreg .. => Laws.Admitted.movRm16Sreg ..
  | .movSregRm16 .. => Laws.Admitted.movSregRm16 ..
  | .addRmR .. => Laws.Admitted.addRmR ..
  | .addRRm .. => Laws.Admitted.addRRm ..
  | .addRm8Imm8 .. => Laws.Admitted.addRm8Imm8 ..
  | .addRm16Imm16 .. => Laws.Admitted.addRm16Imm16 ..
  | .addRm16Simm8 .. => Laws.Admitted.addRm16Simm8 ..
  | .addAccImm .. => Laws.Admitted.addAccImm ..
  | .subRmR .. => Laws.Admitted.subRmR ..
  | .subRRm .. => Laws.Admitted.subRRm ..
  | .subRm8Imm8 .. => Laws.Admitted.subRm8Imm8 ..
  | .subRm16Imm16 .. => Laws.Admitted.subRm16Imm16 ..
  | .subRm16Simm8 .. => Laws.Admitted.subRm16Simm8 ..
  | .subAccImm .. => Laws.Admitted.subAccImm ..
  | .cmpRmR .. => Laws.Admitted.cmpRmR ..
  | .cmpRRm .. => Laws.Admitted.cmpRRm ..
  | .cmpRm8Imm8 .. => Laws.Admitted.cmpRm8Imm8 ..
  | .cmpRm16Imm16 .. => Laws.Admitted.cmpRm16Imm16 ..
  | .cmpRm16Simm8 .. => Laws.Admitted.cmpRm16Simm8 ..
  | .cmpAccImm .. => Laws.Admitted.cmpAccImm ..
  | .jneRel8 .. => Laws.Admitted.jneRel8 ..
  | .jeRel8 .. => Laws.Admitted.jeRel8 ..
  | .jbRel8 .. => Laws.Admitted.jbRel8 ..
  | .jpRel8 .. => Laws.Admitted.jpRel8 ..
  | .loopRel8 .. => Laws.Admitted.loopRel8 ..
  | .loopnzRel8 .. => Laws.Admitted.loopnzRel8 ..

/-- An encoding is as long as its record says (R71). -/
theorem length_encode (i : Instr) : (encode i).length = i.record.size := (admitted_statement i).1

/-! ### The rule of a row with data operands -/

/-- The rows with data operands are MOV, ADD, SUB and CMP rows. -/
theorem isDataOp_of_dataOperands {i : Instr} {x : (w : Width) × Place w × Source w} (h : dataOperands i = some x) :
    isDataOp i.record.op = true := by
  cases i with
  | jneRel8 _ | jeRel8 _ | jbRel8 _ | jpRel8 _ | loopRel8 _ | loopnzRel8 _ => cases h
  | _ => rfl

/-- A row with data operands runs as a MOV or arithmetic form on them. -/
theorem RunsAs.move_or_arith {i : Instr} {c : Checked} {w : Width} {dst : Place w} {src : Source w} (hc : RunsAs i c)
    (h : dataOperands i = some ⟨w, dst, src⟩) : c = .move w dst src ∨ ∃ op, c = .arith op w dst src := by
  cases hc with
  | move ho _ => cases ho.symm.trans h; exact .inl rfl
  | arith ho _ => cases ho.symm.trans h; exact .inr ⟨_, rfl⟩
  | jump hop => rw [isDataOp_of_dataOperands h] at hop; cases hop
  | loop hop => rw [isDataOp_of_dataOperands h] at hop; cases hop

/-- MOV, ADD, SUB and CMP leave `ip` where the advance put it (R112). -/
theorem ip_runChecked_data (P : Config.Params) (pos : Word) {w : Width} {dst : Place w} {src : Source w} {c : Checked}
    (s : State) (hc : c = .move w dst src ∨ ∃ op, c = .arith op w dst src) : (runChecked P pos c s).ip = s.ip := by
  rcases runChecked_data_cases P pos dst src s c hc with ⟨a, _, ht⟩ | ⟨_, f, _, ⟨v, ht⟩ | ht⟩ <;> rw [ht]
  · rfl
  · exact placeWrite_ip s dst v
  · rfl

/-- A MOV, ADD, SUB or CMP record leaves `ip` past itself, whether it halts or not (R112). -/
theorem ip_runRecord_data (P : Config.Params) {rec : Record} (s : State) (h : isDataOp rec.op = true) :
    (runRecord P rec s).ip = (s.advance rec.size).ip := by
  rcases runRecord_cases P rec s with ⟨_, _, ht⟩ | ⟨_, _, ht⟩ | ⟨_, _, ht⟩ | ⟨check, c, hcheck, _, hc, ht⟩ <;> rw [ht]
  · rfl
  · rfl
  · rfl
  · obtain ⟨b, hb⟩ := exists_tag_of_isDataOp h
    rw [← hb, shapeCheck_tag] at hcheck
    cases hcheck
    obtain ⟨_, _, w, dst, src, _, rfl, _, _⟩ := checkBinary_ok_shapes hc
    exact ip_runChecked_data P s.ip _ (checked_move_or_arith b w dst src)

/-- Two advances to one `ip` are one advance. -/
theorem advance_eq_of_ip_eq {s : State} {n k : Nat} (h : (s.advance n).ip = (s.advance k).ip) :
    s.advance n = s.advance k := congrArg s.setIp h

/-- A row with data operands runs its rule after an advance by the length of its encoding (R112, R113). -/
theorem exec_data {i : Instr} {w : Width} {dst : Place w} {src : Source w} (h : dataOperands i = some ⟨w, dst, src⟩) :
    ∃ c, (c = .move w dst src ∨ ∃ op, c = .arith op w dst src) ∧
      ∀ s, exec i s = .next (runChecked Config.reference s.ip c (s.advance (encode i).length)) := by
  obtain ⟨c, n, hc, hrun⟩ := exec_runsAs i
  have hdata := hc.move_or_arith h
  refine ⟨c, hdata, fun s => ?_⟩
  have hsame : runChecked Config.reference s.ip c (s.advance n) = runRecord Config.reference i.record s :=
    Host.Outcome.next.inj ((hrun s).symm.trans (exec_eq_runRecord i s))
  have hip : (s.advance n).ip = (s.advance (encode i).length).ip := by
    rw [length_encode, ← ip_runRecord_data Config.reference s (isDataOp_of_dataOperands h), ← hsame,
      ip_runChecked_data _ _ _ hdata]
  rw [hrun, advance_eq_of_ip_eq hip]

/-! ### Where an access halts -/

/-- A row whose data access fails the range check halts at it (R58, R116). -/
theorem exec_of_rangeViolation {i : Instr} {w : Width} {dst : Place w} {src : Source w} {s : State} {a : Int}
    (h : dataOperands i = some ⟨w, dst, src⟩) (hr : rangeViolation Config.reference dst src s.regs = some a) :
    exec i s = .next ((s.advance (encode i).length).raise (.addressOutOfRange s.ip a w)) := by
  obtain ⟨c, hc, hrun⟩ := exec_data h
  rw [← rangeViolation_setIp _ dst src s.regs _, ← advance_regs] at hr
  rcases hc with rfl | ⟨op, rfl⟩
  · rw [hrun, runChecked_move_halt hr]
  · rw [hrun, runChecked_arith_halt hr]

/-- The range check of the reference bank, 1 MiB (R7, R58). -/
theorem admitted_reference_eq_false {a : Int} {w : Width} (h : ¬(0 ≤ a ∧ a + w.bytes ≤ 0x100000)) :
    admitted Config.reference.memSize a w = false := by
  have hsize : (Config.reference.memSize : Int) = 0x100000 := rfl
  rw [admitted_eq_false, hsize]
  omega

/-- Settles O39: the range check reports the destination, or else the source, and the row halts at it. -/
theorem accessOutsideTheBankHalts : Obligations.AccessOutsideTheBankHalts := by
  intro i w dst src s h
  constructor
  · intro a ha hbad
    exact exec_of_rangeViolation h (rangeViolation_of_destination src ha (admitted_reference_eq_false hbad))
  · intro hdst a ha hbad
    exact exec_of_rangeViolation h (rangeViolation_of_source hdst ha (admitted_reference_eq_false hbad))

/-! ### Which instructions write memory -/

/-- A rule that changes memory writes a memory destination inside the bank (R51, R58). -/
theorem destination_of_mem_ne {P : Config.Params} {pos : Word} {w : Width} {dst : Place w} {src : Source w} {s : State}
    {c : Checked} (hc : c = .move w dst src ∨ ∃ op, c = .arith op w dst src)
    (h : (runChecked P pos c s).mem ≠ s.mem) : ∃ a, Place.ea? s.regs dst = some a ∧ admitted P.memSize a w = true := by
  rcases runChecked_data_cases P pos dst src s c hc with ⟨a, _, ht⟩ | ⟨hr, f, _, ⟨v, ht⟩ | ht⟩ <;> rw [ht] at h
  · exact absurd rfl h
  · rcases placeWrite_mem s dst v with hm | ⟨a, ha, _⟩
    · exact absurd hm h
    · obtain ⟨hdst, _⟩ := (rangeViolation_eq_none P dst src s.regs).mp hr
      exact ⟨a, ha, admitted_of_inBank hdst ha⟩
  · exact absurd rfl h

/-- CMP writes no memory (R182). -/
theorem mem_runCmp (P : Config.Params) (pos : Word) {w : Width} (dst : Place w) (src : Source w) (s : State) :
    (runCmp P pos dst src s).mem = s.mem := by
  unfold runCmp
  split <;> rfl

/-- A CMP record writes no memory, whatever its operands. -/
theorem mem_runRecord_cmp (P : Config.Params) {rec : Record} (s : State) (h : rec.op = .cmp) :
    (runRecord P rec s).mem = s.mem := by
  rcases runRecord_cases P rec s with ⟨_, _, ht⟩ | ⟨_, _, ht⟩ | ⟨_, _, ht⟩ | ⟨check, c, hcheck, _, hc, ht⟩ <;> rw [ht]
  · rfl
  · rfl
  · rfl
  · rw [h] at hcheck
    cases hcheck
    obtain ⟨_, _, w, dst, src, _, rfl, _, _⟩ := checkBinary_ok_shapes hc
    exact mem_runCmp P s.ip dst src _

/-- An instruction that changes memory is a MOV, ADD, SUB or CMP row (R51). -/
theorem RunsAs.dataOperands_of_mem_ne {i : Instr} {c : Checked} (hc : RunsAs i c) {P : Config.Params} {pos : Word} {s : State}
    (h : (runChecked P pos c s).mem ≠ s.mem) :
    ∃ (w : Width) (dst : Place w) (src : Source w), dataOperands i = some ⟨w, dst, src⟩ := by
  cases hc with
  | move ho _ => exact ⟨_, _, _, ho⟩
  | arith ho _ => exact ⟨_, _, _, ho⟩
  | @jump c disp _ =>
    rcases runJump_cases pos c disp s with ⟨_, ht⟩ | ⟨_, _, ht⟩ | ⟨_, _, ht⟩ <;> rw [runChecked, ht] at h <;>
      exact absurd rfl h
  | @loop nz disp _ =>
    rcases runLoop_cases pos nz disp s with ⟨_, ht⟩ | ⟨_, _, ht⟩ | ⟨_, _, ht⟩ <;> rw [runChecked, ht] at h <;>
      exact absurd rfl h

/-- Of the rows with data operands those that are no CMP are MOV, ADD or SUB rows. -/
theorem isMov_or_isAddOrSub {i : Instr} (h : isDataOp i.record.op = true) (hcmp : i.record.op ≠ .cmp) :
    isMov i = true ∨ isAddOrSub i = true := by
  obtain ⟨b, hb⟩ := exists_tag_of_isDataOp h
  rw [isMov, isAddOrSub, ← hb]
  rw [← hb] at hcmp
  rcases b with _ | (_ | _ | _)
  · exact .inl rfl
  · exact .inr rfl
  · exact .inr rfl
  · exact absurd rfl hcmp

/-- Settles O49: only the rules with data operands write memory, at their destination, and CMP does not. -/
theorem onlyMemoryDestinationsWriteMemory : Obligations.OnlyMemoryDestinationsWriteMemory := by
  intro i s t hexec hmem
  obtain ⟨c, n, hc, hrun⟩ := exec_runsAs i
  have hcmp : i.record.op ≠ .cmp := fun hop => by
    rw [exec_eq_runRecord] at hexec
    cases hexec
    exact hmem (mem_runRecord_cmp _ s hop)
  rw [hrun] at hexec
  cases hexec
  obtain ⟨w, dst, src, ho⟩ := hc.dataOperands_of_mem_ne hmem
  obtain ⟨a, ha, hin⟩ := destination_of_mem_ne (hc.move_or_arith ho) hmem
  rw [advance_regs, placeEa_setIp] at ha
  simp only [admitted, Bool.and_eq_true, decide_eq_true_eq] at hin
  exact ⟨isMov_or_isAddOrSub (isDataOp_of_dataOperands ho) hcmp, w, dst, src, a, ho, ha, hin⟩

end Sys2Proof.Machine
end

section
/-! SUPPORT. The rows of the opcode table as the decoder searches them (30_encoding.md R80): they are disjoint, and what a key
that matches a row says of its two bytes. -/

namespace Sys2Proof

/-! ### The rows are disjoint -/

theorem Row.mem_all (r : Row) : r ∈ Row.all := by cases r <;> decide

theorem Row.matchesKey_iff {r : Row} {K : BitVec 16} : r.matchesKey K = true ↔ K &&& r.mask = r.matchKey := beq_iff_eq

/-- Two different rows fix some common bit of the key to different values. -/
theorem Row.eq_of_match_agrees :
    ∀ r ∈ Row.all, ∀ r' ∈ Row.all, r.matchKey &&& r'.mask = r'.matchKey &&& r.mask → r = r' := by decide

/-- A key matches at most one row: two rows it matches agree on the bits both fix. -/
theorem Row.eq_of_matchesKey {K : BitVec 16} {r r' : Row} (h : r.matchesKey K = true) (h' : r'.matchesKey K = true) :
    r = r' := by
  rw [Row.matchesKey_iff] at h h'
  apply Row.eq_of_match_agrees r r.mem_all r' r'.mem_all
  rw [← h, ← h', BitVec.and_assoc, BitVec.and_assoc, BitVec.and_comm r.mask]

/-- Settles O3: two rows that match one key agree wherever both fix a bit, and no two rows of the table do. -/
theorem opcodeRowsAreDisjoint : Obligations.OpcodeRowsAreDisjoint :=
  ⟨fun _ _ _ => Row.eq_of_matchesKey, Row.mem_all⟩

/-- The row the decoder finds is the row the key matches. -/
theorem rowOf_eq_some_iff {K : BitVec 16} {r : Row} : rowOf K = some r ↔ r.matchesKey K = true := by
  constructor
  · exact fun h => List.find?_some (p := fun r => Row.matchesKey r K) h
  · intro h
    cases hr : rowOf K with
    | none => exact absurd h (List.find?_eq_none.mp hr r r.mem_all)
    | some r' => rw [Row.eq_of_matchesKey (List.find?_some (p := fun r => Row.matchesKey r K) hr) h]

theorem rowOf_eq_none_iff {K : BitVec 16} : rowOf K = none ↔ ∀ r : Row, r.matchesKey K = false := by
  simp [rowOf, List.find?_eq_none, Row.mem_all]

/-! ### The bytes of a key that matches a row -/

/-- A key matches a row byte by byte. -/
theorem Row.bytes_of_matchesKey {r : Row} {b0 b1 : Byte} (h : r.matchesKey (keyOf b0 b1) = true) :
    b0 &&& hiByte r.mask = hiByte r.matchKey ∧ b1 &&& loByte r.mask = loByte r.matchKey := by
  rw [Row.matchesKey_iff, keyOf, ← hiByte_append_loByte r.mask, BitVec.and_append] at h
  rw [← h]
  simp

/-- Byte 0 of a row that fixes all of it. -/
theorem Row.byte0_eq {r : Row} {b0 b1 : Byte} (h : r.matchesKey (keyOf b0 b1) = true) (hm : hiByte r.mask = 0xFF) :
    b0 = hiByte r.matchKey := by
  obtain ⟨h0, _⟩ := Row.bytes_of_matchesKey h
  rw [← h0, hm]
  exact BitVec.and_allOnes.symm

/-- Byte 0 of a row that fixes all of it but the `w` bit (R83). -/
theorem Row.byte0_eq_append_wBit {r : Row} {b0 b1 : Byte} (h : r.matchesKey (keyOf b0 b1) = true)
    (hm : hiByte r.mask = 0xFE) : b0 = (hiByte r.matchKey).extractLsb' 1 7 ++ (wField b0).wBit := by
  have hbits : ∀ b : Byte, b = (b &&& 0xFE).extractLsb' 1 7 ++ (wField b).wBit := by decide
  obtain ⟨h0, _⟩ := Row.bytes_of_matchesKey h
  rw [← h0, hm]
  exact hbits b0

/-- The `reg` field of a row that fixes it as its extension (R91). -/
theorem Row.regField_eq {r : Row} {b0 b1 : Byte} (h : r.matchesKey (keyOf b0 b1) = true) (hm : loByte r.mask = 0x38) :
    regField b1 = regField (loByte r.matchKey) := by
  have hbits : ∀ b : Byte, regField b = regField (b &&& 0x38) := by decide
  obtain ⟨_, h1⟩ := Row.bytes_of_matchesKey h
  rw [← h1, hm]
  exact hbits b1

/-- The `reg` field of a row that fixes its top bit to 0 is that bit and the `sr` field (R85, R95). -/
theorem Row.regField_eq_srField {r : Row} {b0 b1 : Byte} (h : r.matchesKey (keyOf b0 b1) = true)
    (hm : loByte r.mask = 0x20) (h0 : loByte r.matchKey = 0) : regField b1 = (0 : BitVec 1) ++ srField b1 := by
  have hbits : ∀ b : Byte, b &&& 0x20 = 0 → regField b = (0 : BitVec 1) ++ srField b := by decide
  obtain ⟨_, h1⟩ := Row.bytes_of_matchesKey h
  rw [hm, h0] at h1
  exact hbits b1 h1

/-- Byte 0 of the RI row: its four fixed bits, the `w` bit and the register field (R92). -/
theorem byte0_of_movRImm {b0 b1 : Byte} (h : Row.matchesKey .movRImm (keyOf b0 b1) = true) :
    b0 = (0b1011 : BitVec 4) ++ (Width.ofBit (b0.getLsbD 3)).wBit ++ b0.extractLsb' 0 3 := by
  have hbits : ∀ b : Byte, b &&& 0xF0 = 0xB0 →
      b = (0b1011 : BitVec 4) ++ (Width.ofBit (b.getLsbD 3)).wBit ++ b.extractLsb' 0 3 := by decide
  obtain ⟨h0, _⟩ := Row.bytes_of_matchesKey h
  exact hbits b0 h0

end Sys2Proof
end

section
/-! SUPPORT. The parser of the reference decoder and the encoder are inverse to each other, field by field, then row by row
(30_encoding.md R81 to R97). -/

namespace Sys2Proof

/-! ### What the parser of a field read is the field's encoding -/

theorem encode_of_takeByte {bs after : List Byte} {v : Byte} (h : takeByte bs = some (v, after)) : v :: after = bs := by
  cases bs with
  | nil => cases h
  | cons b bs => cases h; rfl

theorem encode_of_takeWord {bs after : List Byte} {v : Word} (h : takeWord bs = some (v, after)) :
    wordBytes v ++ after = bs := by
  match bs, h with
  | lo :: hi :: rest, h => cases h; simp [wordBytes]

theorem encode_of_takeImm {w : Width} {bs after : List Byte} {v : Imm} (h : takeImm w bs = some (v, after)) :
    v.width = w ∧ v.encode ++ after = bs := by
  cases w with
  | byte =>
    obtain ⟨⟨v, r⟩, hv, he⟩ := Option.map_eq_some_iff.mp h
    cases he
    exact ⟨rfl, encode_of_takeByte hv⟩
  | word =>
    obtain ⟨⟨v, r⟩, hv, he⟩ := Option.map_eq_some_iff.mp h
    cases he
    exact ⟨rfl, encode_of_takeWord hv⟩

/-- A ModRM byte in terms of its `reg` field and the values of its other two fields. -/
theorem modRM_eq_of_fields {b1 : Byte} {m : BitVec 2} {c : BitVec 3} (hm : modField b1 = m) (hc : rmField b1 = c) :
    modRM m (regField b1) c = b1 := by
  rw [← hm, ← hc, modRM_fields]

theorem encode_of_takeRM {b1 : Byte} {rest after : List Byte} {rm : RM} (h : takeRM b1 rest = some (rm, after)) :
    rm.wellFormed = true ∧ rm.encode (regField b1) ++ after = b1 :: rest := by
  have hmod : ∀ m : BitVec 2, m.toNat ≠ 0 → m.toNat ≠ 1 → m.toNat ≠ 2 → m = 0b11 := by decide
  have hb : ∀ b, Base.ofBits (rmField b1) = b → rmField b1 = b.bits := fun b h => by rw [← h, Base.bits_ofBits]
  unfold takeRM at h
  split at h
  · rename_i hm
    have hm : modField b1 = 0b00 := BitVec.eq_of_toNat_eq hm
    split at h
    · rename_i hbp
      obtain ⟨⟨a, r⟩, ha, he⟩ := Option.map_eq_some_iff.mp h
      cases he
      exact ⟨rfl, congrArg₂ List.cons (modRM_eq_of_fields hm (hb _ hbp)) (encode_of_takeWord ha)⟩
    · rename_i hbp
      cases h
      exact ⟨by simpa [RM.wellFormed] using hbp,
        congrArg (· :: rest) (modRM_eq_of_fields hm (hb _ rfl))⟩
  · rename_i hm
    have hm : modField b1 = 0b01 := BitVec.eq_of_toNat_eq hm
    obtain ⟨⟨d, r⟩, hd, he⟩ := Option.map_eq_some_iff.mp h
    cases he
    exact ⟨rfl, congrArg₂ List.cons (modRM_eq_of_fields hm (hb _ rfl)) (encode_of_takeByte hd)⟩
  · rename_i hm
    have hm : modField b1 = 0b10 := BitVec.eq_of_toNat_eq hm
    obtain ⟨⟨d, r⟩, hd, he⟩ := Option.map_eq_some_iff.mp h
    cases he
    exact ⟨rfl, congrArg₂ List.cons (modRM_eq_of_fields hm (hb _ rfl)) (encode_of_takeWord hd)⟩
  · rename_i h0 h1 h2
    have hm : modField b1 = 0b11 := hmod _ h0 h1 h2
    cases h
    exact ⟨rfl, congrArg (· :: rest) (modRM_eq_of_fields hm (RegCode.bits_ofBits _).symm)⟩

theorem encode_of_takeRMByte {b1 v : Byte} {rest after : List Byte} {rm : RM}
    (h : takeRMByte b1 rest = some ((rm, v), after)) :
    rm.wellFormed = true ∧ rm.encode (regField b1) ++ [v] ++ after = b1 :: rest := by
  obtain ⟨⟨rm, r⟩, hrm, h⟩ := Option.bind_eq_some_iff.mp h
  obtain ⟨⟨v, r'⟩, hv, he⟩ := Option.map_eq_some_iff.mp h
  cases he
  obtain ⟨hwf, hbytes⟩ := encode_of_takeRM hrm
  rw [← encode_of_takeByte hv] at hbytes
  exact ⟨hwf, by simpa using hbytes⟩

theorem encode_of_takeRMWord {b1 : Byte} {v : Word} {rest after : List Byte} {rm : RM}
    (h : takeRMWord b1 rest = some ((rm, v), after)) :
    rm.wellFormed = true ∧ rm.encode (regField b1) ++ wordBytes v ++ after = b1 :: rest := by
  obtain ⟨⟨rm, r⟩, hrm, h⟩ := Option.bind_eq_some_iff.mp h
  obtain ⟨⟨v, r'⟩, hv, he⟩ := Option.map_eq_some_iff.mp h
  cases he
  obtain ⟨hwf, hbytes⟩ := encode_of_takeRM hrm
  rw [← encode_of_takeWord hv] at hbytes
  exact ⟨hwf, by simpa using hbytes⟩

/-! ### What the parser of a row read is the instruction's encoding -/

/-- An instruction parsed from a window whose key matches the row is well formed, and its encoding and the bytes left over
are the window. -/
theorem encode_of_parseRow {row : Row} {b0 b1 : Byte} {rest after : List Byte} {i : Instr}
    (hk : row.matchesKey (keyOf b0 b1) = true) (h : parseRow row b0 b1 rest = some (i, after)) :
    i.wellFormed = true ∧ encode i ++ after = b0 :: b1 :: rest := by
  cases row with
  | movRmR | movRRm | addRmR | addRRm | subRmR | subRRm | cmpRmR | cmpRRm =>
    obtain ⟨⟨rm, r⟩, hrm, he⟩ := Option.map_eq_some_iff.mp h
    cases he
    obtain ⟨hwf, hbytes⟩ := encode_of_takeRM hrm
    refine ⟨hwf, congrArg₂ List.cons (Row.byte0_eq_append_wBit hk rfl).symm ?_⟩
    rw [RegCode.bits_ofBits]
    exact hbytes
  | movRmImm =>
    obtain ⟨⟨rm, r⟩, hrm, h⟩ := Option.bind_eq_some_iff.mp h
    obtain ⟨⟨v, r'⟩, hv, he⟩ := Option.map_eq_some_iff.mp h
    cases he
    obtain ⟨hwf, hbytes⟩ := encode_of_takeRM hrm
    obtain ⟨hw, hvbytes⟩ := encode_of_takeImm hv
    rw [← hvbytes, Row.regField_eq hk rfl, ← List.append_assoc] at hbytes
    refine ⟨hwf, congrArg₂ List.cons ?_ hbytes⟩
    rw [hw]
    exact (Row.byte0_eq_append_wBit hk rfl).symm
  | movRImm =>
    obtain ⟨⟨v, r⟩, hv, he⟩ := Option.map_eq_some_iff.mp h
    cases he
    obtain ⟨hw, hbytes⟩ := encode_of_takeImm hv
    refine ⟨rfl, congrArg₂ List.cons ?_ hbytes⟩
    rw [hw, RegCode.bits_ofBits]
    exact (byte0_of_movRImm hk).symm
  | movAccAddr | movAddrAcc =>
    obtain ⟨⟨a, r⟩, ha, he⟩ := Option.map_eq_some_iff.mp h
    cases he
    exact ⟨rfl, congrArg₂ List.cons (Row.byte0_eq_append_wBit hk rfl).symm (encode_of_takeWord ha)⟩
  | movRm16Sreg | movSregRm16 =>
    obtain ⟨⟨rm, r⟩, hrm, he⟩ := Option.map_eq_some_iff.mp h
    cases he
    obtain ⟨hwf, hbytes⟩ := encode_of_takeRM hrm
    refine ⟨hwf, congrArg₂ List.cons (Row.byte0_eq hk rfl).symm ?_⟩
    rw [SReg.bits_ofBits, ← Row.regField_eq_srField hk rfl rfl]
    exact hbytes
  | addRm8Imm8 | addRm16Simm8 | subRm8Imm8 | subRm16Simm8 | cmpRm8Imm8 | cmpRm16Simm8 =>
    obtain ⟨⟨⟨rm, v⟩, r⟩, hrm, he⟩ := Option.map_eq_some_iff.mp h
    cases he
    obtain ⟨hwf, hbytes⟩ := encode_of_takeRMByte hrm
    rw [Row.regField_eq hk rfl] at hbytes
    exact ⟨hwf, congrArg₂ List.cons (Row.byte0_eq hk rfl).symm hbytes⟩
  | addRm16Imm16 | subRm16Imm16 | cmpRm16Imm16 =>
    obtain ⟨⟨⟨rm, v⟩, r⟩, hrm, he⟩ := Option.map_eq_some_iff.mp h
    cases he
    obtain ⟨hwf, hbytes⟩ := encode_of_takeRMWord hrm
    rw [Row.regField_eq hk rfl] at hbytes
    exact ⟨hwf, congrArg₂ List.cons (Row.byte0_eq hk rfl).symm hbytes⟩
  | addAccImm | subAccImm | cmpAccImm =>
    obtain ⟨⟨v, r⟩, hv, he⟩ := Option.map_eq_some_iff.mp h
    cases he
    obtain ⟨hw, hbytes⟩ := encode_of_takeImm hv
    refine ⟨rfl, congrArg₂ List.cons ?_ hbytes⟩
    rw [hw]
    exact (Row.byte0_eq_append_wBit hk rfl).symm
  | jneRel8 | jeRel8 | jbRel8 | jpRel8 | loopRel8 | loopnzRel8 =>
    cases h
    exact ⟨rfl, congrArg (· :: b1 :: rest) (Row.byte0_eq hk rfl).symm⟩

/-! ### The parser of a row reads the instruction's encoding -/

theorem takeRMByte_encode (rm : RM) (reg : BitVec 3) (h : rm.wellFormed = true) (v : Byte) (rest : List Byte) :
    ∃ b1 tl, rm.encode reg ++ [v] = b1 :: tl ∧ takeRMByte b1 (tl ++ rest) = some ((rm, v), rest) := by
  obtain ⟨b1, tl, he, ht, _, _⟩ := takeRM_encode rm reg h (v :: rest)
  exact ⟨b1, tl ++ [v], by rw [he]; rfl, by simp [takeRMByte, ht, takeByte]⟩

theorem takeRMWord_encode (rm : RM) (reg : BitVec 3) (h : rm.wellFormed = true) (v : Word) (rest : List Byte) :
    ∃ b1 tl, rm.encode reg ++ wordBytes v = b1 :: tl ∧ takeRMWord b1 (tl ++ rest) = some ((rm, v), rest) := by
  obtain ⟨b1, tl, he, ht, _, _⟩ := takeRM_encode rm reg h (wordBytes v ++ rest)
  exact ⟨b1, tl ++ wordBytes v, by rw [he]; rfl, by simp [takeRMWord, ht, takeWord_wordBytes]⟩

/-- An encoding's own row reads it back, and leaves the bytes after it. -/
theorem parseRow_encode (i : Instr) (h : i.wellFormed = true) (rest : List Byte) :
    ∃ b0 b1 tl, encode i = b0 :: b1 :: tl ∧ parseRow i.row b0 b1 (tl ++ rest) = some (i, rest) := by
  cases i with
  | movRmR w rm reg | addRmR w rm reg | subRmR w rm reg | cmpRmR w rm reg
  | movRRm w reg rm | addRRm w reg rm | subRRm w reg rm | cmpRRm w reg rm =>
    obtain ⟨b1, tl, he, ht, hr, _⟩ := takeRM_encode rm reg.bits h rest
    exact ⟨_, b1, tl, congrArg (_ :: ·) he, by simp [parseRow, Instr.row, ht, hr]⟩
  | movRmImm rm imm =>
    obtain ⟨b1, tl, he, ht, _, _⟩ := takeRM_encode rm 0b000 h (imm.encode ++ rest)
    exact ⟨_, b1, tl ++ imm.encode, by simp only [encode]; rw [he]; rfl,
      by simp [parseRow, Instr.row, ht, takeImm_encode]⟩
  | movRImm reg imm =>
    obtain ⟨b1, tl, he⟩ := encode_imm_cons imm
    have ht := takeImm_encode imm rest
    rw [he, List.cons_append] at ht
    refine ⟨_, b1, tl, congrArg (_ :: ·) he, ?_⟩
    rw [Instr.row, parseRow, riWidth, riReg, ht, RegCode.ofBits_bits]
    rfl
  | addAccImm imm | subAccImm imm | cmpAccImm imm =>
    obtain ⟨b1, tl, he⟩ := encode_imm_cons imm
    have ht := takeImm_encode imm rest
    rw [he, List.cons_append] at ht
    exact ⟨_, b1, tl, congrArg (_ :: ·) he, by simp [parseRow, Instr.row, ht]⟩
  | movAccAddr w addr | movAddrAcc w addr =>
    exact ⟨_, _, _, rfl, by simp [parseRow, Instr.row, takeWord, hiByte_append_loByte]⟩
  | movRm16Sreg rm sr | movSregRm16 sr rm =>
    obtain ⟨b1, tl, he, ht, _, hs⟩ := takeRM_encode rm ((0 : BitVec 1) ++ sr.bits) h rest
    rw [SReg.extract_bits] at hs
    exact ⟨_, b1, tl, congrArg (_ :: ·) he, by simp [parseRow, Instr.row, ht, hs]⟩
  | addRm8Imm8 rm imm | addRm16Simm8 rm imm | subRm8Imm8 rm imm | subRm16Simm8 rm imm | cmpRm8Imm8 rm imm
  | cmpRm16Simm8 rm imm =>
    obtain ⟨b1, tl, he, ht⟩ := takeRMByte_encode rm _ h imm rest
    exact ⟨_, b1, tl, congrArg (_ :: ·) he, by simp [parseRow, Instr.row, ht]⟩
  | addRm16Imm16 rm imm | subRm16Imm16 rm imm | cmpRm16Imm16 rm imm =>
    obtain ⟨b1, tl, he, ht⟩ := takeRMWord_encode rm _ h imm rest
    exact ⟨_, b1, tl, congrArg (_ :: ·) he, by simp [parseRow, Instr.row, ht]⟩
  | jneRel8 rel | jeRel8 rel | jbRel8 rel | jpRel8 rel | loopRel8 rel | loopnzRel8 rel => exact ⟨_, rel, [], rfl, rfl⟩

end Sys2Proof
end

section
/-! SUPPORT. What the reference decoder answers on a window (30_encoding.md R80, R97, R99), and that it and the encoder are
inverse to each other. -/

namespace Sys2Proof

/-! ### The three answers of the decoder -/

theorem decode_of_length_lt {window : List Byte} (h : window.length < 2) : decode window = .noInstruction := by
  match window, h with
  | [], _ => rfl
  | [_], _ => rfl

theorem decode_eq_notAdmitted_iff {b0 b1 : Byte} {rest : List Byte} :
    decode (b0 :: b1 :: rest) = .notAdmitted ↔ ∀ r : Row, r.matchesKey (keyOf b0 b1) = false := by
  rw [← rowOf_eq_none_iff]
  cases hr : rowOf (keyOf b0 b1) with
  | none => simp [decode, hr]
  | some row => cases hp : parseRow row b0 b1 rest <;> simp [decode, hr, hp]

/-- A window whose key matches a row decodes as the row's parser reads it. -/
theorem decode_of_parseRow {row : Row} {b0 b1 : Byte} {rest after : List Byte} {i : Instr}
    (hk : row.matchesKey (keyOf b0 b1) = true) (hp : parseRow row b0 b1 rest = some (i, after)) :
    decode (b0 :: b1 :: rest) = .instr i ((b0 :: b1 :: rest).length - after.length) := by
  simp [decode, rowOf_eq_some_iff.mpr hk, hp]

/-- A decoded instruction was read by the parser of the row its key matches. -/
theorem parseRow_of_decode {window : List Byte} {i : Instr} {n : Nat} (h : decode window = .instr i n) :
    ∃ row b0 b1 rest after, window = b0 :: b1 :: rest ∧ row.matchesKey (keyOf b0 b1) = true ∧
      parseRow row b0 b1 rest = some (i, after) ∧ n = window.length - after.length := by
  match window, h with
  | b0 :: b1 :: rest, h =>
    cases hr : rowOf (keyOf b0 b1) with
    | none => simp [decode, hr] at h
    | some row =>
      cases hp : parseRow row b0 b1 rest with
      | none => simp [decode, hr, hp] at h
      | some x =>
        simp only [decode, hr, hp, Decoded.instr.injEq] at h
        obtain ⟨rfl, hn⟩ := h
        exact ⟨row, b0, b1, rest, x.2, rfl, rowOf_eq_some_iff.mp hr, hp, hn.symm⟩

/-- Settles O5: the decoder answers "not admitted" exactly where its search of the rows finds none. -/
theorem notAdmittedExactlyWhenNoRowMatches : Obligations.NotAdmittedExactlyWhenNoRowMatches := by
  refine ⟨fun window => ⟨fun h => ?_, ?_⟩, fun _ => decode_of_length_lt⟩
  · match window, h with
    | b0 :: b1 :: rest, h => exact ⟨b0, b1, rest, rfl, decode_eq_notAdmitted_iff.mp h⟩
  · rintro ⟨b0, b1, rest, rfl, h⟩
    exact decode_eq_notAdmitted_iff.mpr h

/-! ### Decoder and encoder -/

/-- Settles O1: the encoding's key matches its own row alone, and that row's parser reads the encoding back. -/
theorem decodeOfEncodeIsIdentity : Obligations.DecodeOfEncodeIsIdentity := by
  intro i rest h
  obtain ⟨b0, b1, tl, he, hp⟩ := parseRow_encode i h rest
  obtain ⟨_, _, _, _, _, _, he', hk⟩ := Machine.admitted_statement i
  cases he.symm.trans he'
  have hlen : (b0 :: b1 :: (tl ++ rest)).length - rest.length = (encode i).length := by
    simp [he]
    omega
  rw [← hlen, he]
  exact decode_of_parseRow hk hp

/-- What the decoder read is well formed, and its encoding is the bytes it took. -/
theorem encode_of_decode {window : List Byte} {i : Instr} {n : Nat} (h : decode window = .instr i n) :
    i.wellFormed = true ∧ n = (encode i).length ∧ ∃ after, encode i ++ after = window := by
  obtain ⟨row, b0, b1, rest, after, rfl, hk, hp, hn⟩ := parseRow_of_decode h
  obtain ⟨hwf, hbytes⟩ := encode_of_parseRow hk hp
  refine ⟨hwf, ?_, after, hbytes⟩
  rw [hn, ← hbytes, List.length_append, Nat.add_sub_cancel]

/-- Settles O2: what the parser read is the encoding, whose length is the size of the record. -/
theorem encodeOfDecodeIsIdentity : Obligations.EncodeOfDecodeIsIdentity := by
  intro window i n h
  obtain ⟨hwf, rfl, after, rfl⟩ := encode_of_decode h
  obtain ⟨hsize, hmin, hmax, _⟩ := Machine.admitted_statement i
  exact ⟨hwf, List.take_left, hsize, hsize ▸ hmin, hsize ▸ hmax, by simp⟩

/-- No encoding begins with another one: a decoder that reads the shorter reads it in the longer too. -/
theorem length_encode_of_append_eq {i j : Instr} {rest : List Byte} (hi : i.wellFormed = true) (hj : j.wellFormed = true)
    (h : encode j ++ rest = encode i) : (encode j).length = (encode i).length := by
  have hdj := decodeOfEncodeIsIdentity j rest hj
  have hdi := decodeOfEncodeIsIdentity i [] hi
  rw [List.append_nil, ← h, hdj] at hdi
  rw [← h]
  exact (Decoded.instr.inj hdi).2

/-- Settles O6: a cut of one byte or none is too short to have a key; a longer one keeps the key, so it is admitted, and no
instruction decoded from it can be as short as the cut, since no encoding begins with another. -/
theorem truncatedInstructionIsNoInstruction : Obligations.TruncatedInstructionIsNoInstruction := by
  intro i n hwf hn
  cases hd : decode ((encode i).take n) with
  | noInstruction => rfl
  | notAdmitted =>
    obtain ⟨_, _, _, b0, b1, tl, he, hk⟩ := Machine.admitted_statement i
    match n, he ▸ hd with
    | 0, hd => cases hd
    | 1, hd => cases hd
    | n + 2, hd => exact absurd hk (by simp [decode_eq_notAdmitted_iff.mp hd])
  | instr j k =>
    obtain ⟨hj, _, after, hbytes⟩ := encode_of_decode hd
    have hpre : encode j ++ (after ++ (encode i).drop n) = encode i := by
      rw [← List.append_assoc, hbytes, List.take_append_drop]
    have hlen := length_encode_of_append_eq hwf hj hpre
    have hle := congrArg List.length hbytes
    simp only [List.length_append, List.length_take] at hle
    omega

end Sys2Proof
end

section
/-! SUPPORT. A window that matches no row, in the step (30_encoding.md R99, 60_exceptions.md R212, R213). -/

namespace Sys2Proof.Machine

theorem step_of_noInstruction {s : State} (h : s.fetch = .noInstruction) :
    step s = .next (s.raise (.decodeFailure s.ip)) := by
  simp [step, h]

theorem step_of_unimplemented {s : State} {t : String} {n : Nat} (h : s.fetch = .unimplemented t n) :
    step s = .next ((s.advance n).raise (.unimplementedOpcode s.ip t)) := by
  simp [step, h]

/-- Settles O14: of what a fetch can find only the two halts leave the window not admitted. -/
theorem notAdmittedWindowHalts : Obligations.NotAdmittedWindowHalts := by
  intro s hrun hip hd
  rcases fetch_cases s with ⟨hn, _⟩ | ⟨_, hend, _⟩ | ⟨_, _, ⟨i, n, hi, _⟩ | ⟨hi, _⟩ | ⟨_, hf | ⟨t, n, h1, hn, _, hf⟩⟩⟩
  · exact absurd hrun hn
  · omega
  · cases hd.symm.trans hi
  · cases hd.symm.trans hi
  · exact .inl (step_of_noInstruction hf)
  · exact .inr ⟨t, n, h1, hn, step_of_unimplemented hf⟩

end Sys2Proof.Machine
end

section
/-! SUPPORT. The effective addresses of the forms the `r/m` field names (30_encoding.md R86, R87, 41_operands_ea.md R136), and
the reference bank (20_memory.md R58). -/

namespace Sys2Proof.Machine

/-- A displacement is added to the sum of the registers (R136). -/
theorem effectiveAddress_add_disp (terms : List AddrReg) (disp : Int) (r : Regs) :
    effectiveAddress terms disp r = effectiveAddress terms 0 r + disp := by
  simp [effectiveAddress]

/-- A base is one 16-bit register or the sum of two (R86). -/
theorem effectiveAddress_base_bounds (r : Regs) (b : Base) :
    0 ≤ effectiveAddress b.terms 0 r ∧ effectiveAddress b.terms 0 r ≤ 0x1FFFE := by
  cases b <;> simp [effectiveAddress, Base.terms] <;> omega

/-- The address of a memory form is a word alone, or a base and a signed displacement of at most 16 bits (R87). -/
theorem ea_rmPlace_cases {r : Regs} {rm : RM} {w : Width} {a : Int} (h : Place.ea? r (rmPlace rm w) = some a) :
    (∃ addr : Word, a = addr.toNat) ∨
    ∃ (b : Base) (d : Int), a = effectiveAddress b.terms 0 r + d ∧ -32768 ≤ d ∧ d < 32768 := by
  cases rm with
  | reg c => cases w <;> cases h
  | ind b => cases h; exact .inr ⟨b, 0, (Int.add_zero _).symm, by decide, by decide⟩
  | direct addr => cases h; exact .inl ⟨addr, by simp [effectiveAddress]⟩
  | disp8 b d =>
    cases h
    have hmin := d.le_toInt
    have hmax := d.toInt_lt
    exact .inr ⟨b, d.toInt, effectiveAddress_add_disp b.terms _ r, by omega, by omega⟩
  | disp16 b d => cases h; exact .inr ⟨b, d.toInt, effectiveAddress_add_disp b.terms _ r, d.le_toInt, d.toInt_lt⟩

theorem ea_rmPlace_bounds {r : Regs} {rm : RM} {w : Width} {a : Int} (h : Place.ea? r (rmPlace rm w) = some a) :
    -32768 ≤ a ∧ a ≤ 0x27FFD := by
  rcases ea_rmPlace_cases h with ⟨addr, rfl⟩ | ⟨b, d, rfl, hmin, hmax⟩
  · omega
  · obtain ⟨hlow, hhigh⟩ := effectiveAddress_base_bounds r b
    omega

/-- The range check of a memory place is that of its address (R58). -/
theorem inBank_eq_admitted {P : Config.Params} {r : Regs} {w : Width} {p : Place w} {a : Int}
    (h : Place.ea? r p = some a) : Place.inBank P r p = admitted P.memSize a w := by
  cases p with
  | mem terms disp => cases h; rfl
  | half r k => cases h
  | gen g => cases h
  | seg sr => cases h

/-- An address no encoded form exceeds is out of the 1 MiB bank exactly when it is negative (R58). -/
theorem admitted_reference_eq_false_iff {a : Int} {w : Width} (h : a ≤ 0x27FFD) :
    admitted Config.reference.memSize a w = false ↔ a < 0 := by
  have hsize : (Config.reference.memSize : Int) = 0x100000 := rfl
  have hw := w.bytes_le
  rw [admitted_eq_false, hsize]
  omega

/-- Settles O32: the register cells by evaluation, each memory form as its base and displacement, and the range from the
bounds of the two. -/
theorem effectiveAddressesOfEncodedOperands : Obligations.EffectiveAddressesOfEncodedOperands := by
  refine ⟨⟨rfl, rfl, fun _ _ => rfl, fun _ => rfl⟩, fun r w b d8 d16 addr => ?_⟩
  intro base
  have hbase : base = effectiveAddress b.terms 0 r := by
    cases b <;> simp [base, effectiveAddress, Base.terms, AddrReg.gen, Regs.getGen]
  rw [hbase]
  refine ⟨rfl, congrArg some (effectiveAddress_add_disp b.terms _ r), congrArg some (effectiveAddress_add_disp b.terms _ r),
    by simp [rmPlace, Place.ea?, effectiveAddress], fun rm a ha => ?_⟩
  obtain ⟨hmin, hmax⟩ := ea_rmPlace_bounds ha
  exact ⟨hmin, hmax, by rw [inBank_eq_admitted ha, admitted_reference_eq_false_iff hmax]⟩

end Sys2Proof.Machine
end

section
/-! SUPPORT. The conditional jumps as their rule, and the displacement an assembler writes (30_encoding.md R100,
45_branch.md R190 to R196). -/

namespace Sys2Proof.Machine

/-- A conditional jump runs the jump rule on its condition after an advance of two bytes (R193 to R196). -/
theorem exec_of_jumpOf {i : Instr} {cond : Flags → Bool} {d : Byte} (h : jumpOf i = some (cond, d)) :
    ∃ c : Cond, (∀ f, cond f = f.holds c) ∧ ∀ s, exec i s = .next (runJump s.ip c d (s.advance 2)) := by
  cases i with
  | jneRel8 _ => cases h; exact ⟨.ne, fun f => by simp [Flags.holds], exec_jneRel8 d⟩
  | jeRel8 _ => cases h; exact ⟨.e, fun f => by simp [Flags.holds], exec_jeRel8 d⟩
  | jbRel8 _ => cases h; exact ⟨.b, fun f => by simp [Flags.holds], exec_jbRel8 d⟩
  | jpRel8 _ => cases h; exact ⟨.p, fun f => by simp [Flags.holds], exec_jpRel8 d⟩
  | _ => cases h

/-- A taken jump to a target inside the 64 KiB moves `ip` there, and the run goes on (R190). -/
theorem runJump_taken {pos : Word} {c : Cond} {disp : Byte} {s : State} (hc : s.flags.holds c = true) (target : Nat)
    (ht : branchTarget disp s = target) (hmax : target ≤ 0xFFFF) :
    (runJump pos c disp s).ip.toNat = target ∧ (runJump pos c disp s).run = s.run := by
  have hok : targetOk (target : Int) = true := by simp [targetOk]; omega
  rcases runJump_cases pos c disp s with ⟨hn, _⟩ | ⟨_, _, h⟩ | ⟨_, hbad, _⟩
  · rw [hc] at hn; cases hn
  · rw [h, ht]
    exact ⟨by simp; omega, rfl⟩
  · rw [ht, hok] at hbad; cases hbad

/-- The rel8 of R100, as a signed byte, is the distance from the end of the jump to its target. -/
theorem toInt_of_rel8 {pos target : Nat} {d : Byte} (h : Asm.rel8 pos target = some d) :
    d.toInt = (target : Int) - (pos + 2 : Nat) := by
  simp only [Asm.rel8, Option.ite_none_right_eq_some, Option.some.injEq] at h
  obtain ⟨⟨hmin, hmax⟩, rfl⟩ := h
  exact BitVec.toInt_ofInt_eq_self (by decide) hmin (by omega)

/-- Settles O47: the distance the assembler wrote, added to the address after the jump, is the target. -/
theorem assembledJumpReachesItsTarget : Obligations.AssembledJumpReachesItsTarget := by
  intro i cond d s target hi hd hmax hip hcond
  obtain ⟨c, hc, hexec⟩ := exec_of_jumpOf hi
  have ht : branchTarget d (s.advance 2) = target := by
    have hnext : (s.ip + BitVec.ofNat 16 2).toNat = s.ip.toNat + 2 := by
      rw [BitVec.toNat_add_of_lt (by simp; omega)]
      rfl
    rw [branchTarget, advance_ip, hnext, toInt_of_rel8 hd]
    omega
  obtain ⟨hto, hrun⟩ := runJump_taken (pos := s.ip) (s := s.advance 2) ((hc s.flags).symm.trans hcond) target ht hmax
  exact ⟨_, hexec s, hto, hrun⟩

end Sys2Proof.Machine
end

section
/-! SUPPORT. Words written out from the format tables (30_encoding.md R84 to R98, 95_test_vectors.md section 2). -/

namespace Sys2Proof

/-- Settles O4: each word is decoded by evaluation. -/
theorem specWordsDecode : Obligations.SpecWordsDecode := by
  unfold Obligations.SpecWordsDecode
  decide

end Sys2Proof
end

section
/-! SUPPORT. The step from a running and from a halted state (40_dispatch.md R110 to R115), and how a record can end the run
(R119). -/

namespace Sys2Proof.Machine

/-! ### A halted state -/

theorem stepWith_of_halted (P : Config.Params) (D : Decoder) {s : State} (h : s.run ≠ .running) :
    stepWith P D s = .fault .halted := by
  cases hr : s.run with
  | running => exact absurd hr h
  | haltedClean => simp [stepWith, hr]
  | haltedError r => simp [stepWith, hr]

theorem step_of_halted {s : State} (h : s.run ≠ .running) : step s = .fault .halted := by
  have hf : s.fetch = .halted := by
    rcases fetch_cases s with ⟨_, hf⟩ | ⟨hr, _⟩ | ⟨hr, _⟩
    · exact hf
    · exact absurd hr h
    · exact absurd hr h
  simp [step, hf]

/-- Settles O11: neither step goes past its test of the run. -/
theorem haltedStateHasNoStep : Obligations.HaltedStateHasNoStep :=
  fun P D _ h => ⟨stepWith_of_halted P D h, step_of_halted h⟩

/-- Settles O12, by induction on the run: its last step would be one of the halted state. -/
theorem haltedStatesAreFinal : Obligations.HaltedStatesAreFinal := by
  intro s t hs h
  induction h with
  | refl => rfl
  | step _ hstep ih =>
    rw [ih, step_of_halted hs] at hstep
    cases hstep

/-! ### A running state -/

theorem step_of_endOfProgram {s : State} (h : s.fetch = .endOfProgram) : step s = .next s.haltClean := by
  simp [step, h]

section Running

variable {P : Config.Params} {D : Decoder} {s : State} (hrun : s.run = .running)
include hrun

theorem stepWith_of_end (h : s.progLen ≤ s.ip.toNat) : stepWith P D s = .next s.haltClean := by
  simp [stepWith, hrun, State.atEnd, h]

theorem stepWith_of_record {rec : Record} (h : s.ip.toNat < s.progLen) (hd : decodeOk D s.window = some rec) :
    stepWith P D s = .next (runRecord P rec s) := by
  simp [stepWith, hrun, State.atEnd, h, hd]

theorem stepWith_of_no_record (h : s.ip.toNat < s.progLen) (hd : decodeOk D s.window = none) :
    stepWith P D s = .next (s.raise (.decodeFailure s.ip)) := by
  simp [stepWith, hrun, State.atEnd, h, hd]

theorem fetch_of_decode_instr {i : Instr} {n : Nat} (h : s.ip.toNat < s.progLen) (hd : decode s.window = .instr i n) :
    s.fetch = .instr i := by
  simp [State.fetch, hrun, State.atEnd, h, hd]

theorem fetch_of_decode_noInstruction (h : s.ip.toNat < s.progLen) (hd : decode s.window = .noInstruction) :
    s.fetch = .noInstruction := by
  simp [State.fetch, hrun, State.atEnd, h, hd]

end Running

/-- Settles O8: the fetch answers the decoded instruction, and its arm runs its record. -/
theorem stepRunsTheDecodedInstruction : Obligations.StepRunsTheDecodedInstruction :=
  fun s i _ hrun hlt hd => ⟨step_of_instr (fetch_of_decode_instr hrun hlt hd), exec_eq_runRecord i s⟩

/-! ### The decoder's contract -/

/-- An answer that breaks the contract is "no instruction" (R70, D28). -/
theorem decodeOk_eq_none {D : Decoder} {window : List Byte}
    (h : ∀ rec n, D window = some (rec, n) → n < 1 ∨ window.length < n ∨ rec.size ≠ n) : decodeOk D window = none := by
  cases hd : D window with
  | none => simp [decodeOk, hd]
  | some x =>
    obtain ⟨rec, n⟩ := x
    have hbroken := h rec n hd
    simp only [decodeOk, hd]
    exact if_neg (by omega)

/-- An answer within the contract is the record (R70). -/
theorem decodeOk_eq_some {D : Decoder} {window : List Byte} {rec : Record} (hd : D window = some (rec, rec.size))
    (h1 : 1 ≤ rec.size) (hlen : rec.size ≤ window.length) : decodeOk D window = some rec := by
  simp [decodeOk, hd, h1, hlen]

/-- Settles O13: such an answer is "no instruction" to the engine, and the reference decoder's to the fetch. -/
theorem decodeFailureChangesOnlyTheRun : Obligations.DecodeFailureChangesOnlyTheRun := by
  constructor
  · intro P D s hrun hlt h
    rw [← length_window] at h
    exact stepWith_of_no_record hrun hlt (decodeOk_eq_none h)
  · exact fun s hrun hlt hd => step_of_noInstruction (fetch_of_decode_noInstruction hrun hlt hd)

/-! ### The reference decoder -/

theorem referenceDecoder_of_instr {window : List Byte} {i : Instr} {n : Nat} (h : decode window = .instr i n) :
    referenceDecoder window = some (i.record, n) := by
  simp [referenceDecoder, h]

theorem referenceDecoder_of_noInstruction {window : List Byte} (h : decode window = .noInstruction) :
    referenceDecoder window = none := by
  simp [referenceDecoder, h]

/-- The reference decoder keeps the contract where it admits an instruction (R70). -/
theorem decodeOk_of_instr {window : List Byte} {i : Instr} {n : Nat} (h : decode window = .instr i n) :
    decodeOk referenceDecoder window = some i.record := by
  obtain ⟨_, _, rfl, hmin, _, hlen⟩ := encodeOfDecodeIsIdentity window i n h
  exact decodeOk_eq_some (referenceDecoder_of_instr h) (by omega) hlen

theorem decodeOk_of_noInstruction {window : List Byte} (h : decode window = .noInstruction) :
    decodeOk referenceDecoder window = none := by
  simp [decodeOk, referenceDecoder_of_noInstruction h]

/-- What the engine's decoder answers on a window that matches no row is what the fetch finds, whatever `DECODE_CLASS`
says (R99). -/
theorem notAdmitted_answers {s : State} (hrun : s.run = .running) (hlt : s.ip.toNat < s.progLen)
    (h : decode s.window = .notAdmitted) :
    (s.fetch = .noInstruction ∧ decodeOk referenceDecoder s.window = none) ∨
    ∃ t n, s.fetch = .unimplemented t n ∧
      decodeOk referenceDecoder s.window = some { op := .other t, size := n, operands := [] } := by
  cases hc : Config.decodeClass s.window with
  | decodeFailure =>
    exact .inl ⟨by simp [State.fetch, hrun, State.atEnd, hlt, h, hc], by simp [decodeOk, referenceDecoder, h, hc]⟩
  | unimplemented t n =>
    by_cases hn : 1 ≤ n ∧ n ≤ s.progLen - s.ip.toNat
    · exact .inr ⟨t, n, by simp [State.fetch, hrun, State.atEnd, hlt, h, hc, hn],
        by simp [decodeOk, referenceDecoder, h, hc, hn]⟩
    · exact .inl ⟨by simp [State.fetch, hrun, State.atEnd, hlt, h, hc, hn],
        by simp [decodeOk, referenceDecoder, h, hc, hn]⟩

/-- Settles O9: the two steps agree on each thing that a fetch can find. -/
theorem stepIsTheLevelOneStep : Obligations.StepIsTheLevelOneStep := by
  intro s
  rcases fetch_cases s with ⟨hr, _⟩ | ⟨hr, hend, hf⟩ | ⟨hr, hlt, ⟨i, n, hd, hf⟩ | ⟨hd, hf⟩ | ⟨hd, _⟩⟩
  · rw [step_of_halted hr, stepWith_of_halted _ _ hr]
  · rw [step_of_endOfProgram hf, stepWith_of_end hr hend]
  · rw [step_of_instr hf, exec_eq_runRecord, stepWith_of_record hr hlt (decodeOk_of_instr hd)]
  · rw [step_of_noInstruction hf, stepWith_of_no_record hr hlt (decodeOk_of_noInstruction hd)]
  · rcases notAdmitted_answers hr hlt hd with ⟨hf, hdec⟩ | ⟨t, n, hf, hdec⟩
    · rw [step_of_noInstruction hf, stepWith_of_no_record hr hlt hdec]
    · rw [step_of_unimplemented hf, stepWith_of_record hr hlt hdec]
      rfl

/-! ### How a record can end the run -/

/-- MOV, ADD, SUB and CMP keep the run or halt with AddressOutOfRange. -/
theorem runsOr_data (P : Config.Params) (pos : Word) {w : Width} {dst : Place w} {src : Source w} {c : Checked}
    (s : State) (hc : c = .move w dst src ∨ ∃ op, c = .arith op w dst src) :
    RunsOr isAddressHalt s (runChecked P pos c s) := by
  rcases runChecked_data_cases P pos dst src s c hc with ⟨a, _, h⟩ | ⟨_, f, _, ⟨v, h⟩ | h⟩ <;> rw [h]
  · exact .inr ⟨_, rfl, trivial⟩
  · exact .inl (placeWrite_run s dst v)
  · exact .inl rfl

/-- A conditional jump keeps the run or halts with BranchTargetOutOfRange. -/
theorem runsOr_jump (pos : Word) (c : Cond) (disp : Byte) (s : State) :
    RunsOr isBranchHalt s (runJump pos c disp s) := by
  rcases runJump_cases pos c disp s with ⟨_, h⟩ | ⟨_, _, h⟩ | ⟨_, _, h⟩ <;> rw [h]
  · exact .inl rfl
  · exact .inl rfl
  · exact .inr ⟨_, rfl, trivial⟩

/-- A loop keeps the run or halts with BranchTargetOutOfRange. -/
theorem runsOr_loop (pos : Word) (nz : Bool) (disp : Byte) (s : State) :
    RunsOr isBranchHalt s (runLoop pos nz disp s) := by
  rcases runLoop_cases pos nz disp s with ⟨_, h⟩ | ⟨_, _, h⟩ | ⟨_, _, h⟩ <;> rw [h]
  · exact .inl rfl
  · exact .inl rfl
  · exact .inr ⟨_, rfl, trivial⟩

theorem runsOr_mono {bad bad' : HaltRecord → Prop} {s t : State} (hbad : ∀ r, bad r → bad' r) (h : RunsOr bad s t) :
    RunsOr bad' s t :=
  h.imp_right fun ⟨r, hr, hb⟩ => ⟨r, hr, hbad r hb⟩

/-- Every rule keeps the run or halts with one of the two halts that depend on values (R119). -/
theorem runsOr_runChecked (P : Config.Params) (pos : Word) (c : Checked) (s : State) :
    RunsOr (fun r => isAddressHalt r ∨ isBranchHalt r) s (runChecked P pos c s) := by
  cases c with
  | move w dst src => exact runsOr_mono (fun _ => .inl) (runsOr_data P pos s (.inl rfl))
  | arith op w dst src => exact runsOr_mono (fun _ => .inl) (runsOr_data P pos s (.inr ⟨op, rfl⟩))
  | jump c disp => exact runsOr_mono (fun _ => .inr) (runsOr_jump pos c disp s)
  | loop nz disp => exact runsOr_mono (fun _ => .inr) (runsOr_loop pos nz disp s)

/-- Settles O54: a record that passes the checks runs a rule. -/
theorem checkedRecordsRun : Obligations.CheckedRecordsRun := by
  intro P rec s check c hcheck hviol hc
  rw [runRecord_of_checked hcheck hviol hc]
  exact runsOr_runChecked P s.ip c (s.advance rec.size)

/-- A record keeps the run or enters an error halt. -/
theorem runsOr_runRecord (P : Config.Params) (rec : Record) (s : State) :
    RunsOr (fun _ => True) s (runRecord P rec s) := by
  rcases runRecord_cases P rec s with ⟨t, _, h⟩ | ⟨k, _, h⟩ | ⟨k, _, h⟩ | ⟨_, c, _, _, _, h⟩ <;> rw [h]
  · exact .inr ⟨_, rfl, trivial⟩
  · exact .inr ⟨_, rfl, trivial⟩
  · exact .inr ⟨_, rfl, trivial⟩
  · exact runsOr_mono (fun _ _ => trivial) (runsOr_runChecked P s.ip c (s.advance rec.size))

/-- Settles O10: past the end-of-program test a step runs a record or enters an error halt. -/
theorem cleanHaltExactlyAtEndOfProgram : Obligations.CleanHaltExactlyAtEndOfProgram := by
  refine fun P D s hrun => ⟨stepWith_of_end hrun, fun hlt t ht hclean => ?_⟩
  cases hd : decodeOk D s.window with
  | none =>
    rw [stepWith_of_no_record hrun hlt hd] at ht
    cases ht
    cases hclean
  | some rec =>
    rw [stepWith_of_record hrun hlt hd] at ht
    cases ht
    rcases runsOr_runRecord P rec s with h | ⟨r, h, _⟩
    · cases hclean.symm.trans (h.trans hrun)
    · cases hclean.symm.trans h

end Sys2Proof.Machine
end

section
/-! SUPPORT. Operand shapes: the place of an operand says what the operand is, so that the shape check accepts exactly the
rows of the table of 40_dispatch.md R117, and reports its positions (R118, 60_exceptions.md R215, R218). -/

namespace Sys2Proof.Machine

/-! ### What an operand is, by the place it stands for -/

theorem width?_eq_some {n : Nat} {w : Width} (h : width? n = some w) : n = w.bytes := by
  match n, h with
  | 1, h => cases h; rfl
  | 2, h => cases h; rfl

/-- The ids of the general registers are 1 to 8 (R20). -/
theorem bounds_of_ofId_gen {n : Nat} {g : GReg} (h : Reg.ofId n = some (.gen g)) : 1 ≤ n ∧ n ≤ 8 := by
  obtain ⟨h1, h13⟩ := (ofId_isSome n).mp (by rw [h]; rfl)
  interval_cases n <;> cases h <;> decide

/-- The ids of the segment registers are 9 to 12 (R20). -/
theorem bounds_of_ofId_seg {n : Nat} {sr : SReg} (h : Reg.ofId n = some (.seg sr)) : 9 ≤ n ∧ n ≤ 12 := by
  obtain ⟨h1, h13⟩ := (ofId_isSome n).mp (by rw [h]; rfl)
  interval_cases n <;> cases h <;> decide

/-- An address term is named by the id of BX, BP, SI or DI (R20, R135). -/
theorem id_of_addrReg? {t : Nat} {x : AddrReg} (h : addrReg? t = some x) : t = 2 ∨ t = 6 ∨ t = 7 ∨ t = 8 := by
  have ht : t ≤ 13 := by
    by_contra hlt
    have hn : Reg.ofId t = none := Option.not_isSome_iff_eq_none.mp fun hs => hlt ((ofId_isSome t).mp hs).2
    simp [addrReg?, hn] at h
  interval_cases t <;> cases h <;> decide

theorem ids_of_mapM_addrReg? {terms : List Nat} {ts : List AddrReg} (h : terms.mapM addrReg? = some ts) :
    ts.length = terms.length ∧ ∀ t ∈ terms, t = 2 ∨ t = 6 ∨ t = 7 ∨ t = 8 := by
  induction terms generalizing ts with
  | nil => cases h; simp
  | cons t terms ih =>
    simp only [List.mapM_cons, Option.pure_def, Option.bind_eq_bind, Option.bind_eq_some_iff, Option.some.injEq] at h
    obtain ⟨x, hx, ts', hts, rfl⟩ := h
    obtain ⟨hlen, hterms⟩ := ih hts
    exact ⟨by simp [hlen], List.forall_mem_cons.mpr ⟨id_of_addrReg? hx, hterms⟩⟩

/-- An operand that stands for a place is of the place's kind: a general register, a segment register, or a memory operand of
a valid form (R117, R135). -/
inductive StandsFor (o : OperandRec) : {w : Width} → Place w → Prop where
  | half {r : HalfReg} {k : Half} (h : isGeneralOperand o) : StandsFor o (.half r k)
  | gen {g : GReg} (h : isGeneralOperand o) : StandsFor o (.gen g)
  | seg {sr : SReg} (h : isSegmentOperand o) : StandsFor o (.seg sr)
  | mem {w : Width} {ts : List AddrReg} {disp : Int} (h : isMemoryOperand o) : StandsFor o (.mem ts disp : Place w)

/-- An operand whose shape is a place stands for that place, at its own width. -/
theorem standsFor_of_shapeOf {o : OperandRec} {w : Width} {p : Place w} (h : shapeOf o = some (.place w p)) :
    StandsFor o p ∧ operandWidth o = some w.bytes := by
  cases o with
  | imm v => cases h
  | reg index width offset =>
    simp only [shapeOf] at h
    split at h
    · rename_i r hw hr
      obtain rfl := width?_eq_some hw
      split at h
      · rename_i x k hx _
        cases h
        obtain ⟨h1, _⟩ := (ofId_isSome index).mp (by rw [hr]; rfl)
        have h4 := (halfReg?_isSome hr).mp (by rw [hx]; rfl)
        exact ⟨.half ⟨h1, by omega, .inl rfl⟩, rfl⟩
      · cases h
    · rename_i g hw hr
      obtain rfl := width?_eq_some hw
      cases h
      obtain ⟨h1, h8⟩ := bounds_of_ofId_gen hr
      exact ⟨.gen ⟨h1, h8, .inr rfl⟩, rfl⟩
    · rename_i sr hw hr
      obtain rfl := width?_eq_some hw
      cases h
      obtain ⟨h9, h12⟩ := bounds_of_ofId_seg hr
      exact ⟨.seg ⟨h9, h12, rfl⟩, rfl⟩
    · cases h
  | mem terms disp width =>
    simp only [shapeOf] at h
    split at h
    · rename_i w' ts hw hts
      obtain rfl := width?_eq_some hw
      split at h
      · rename_i hlen
        cases h
        obtain ⟨hlen', hterms⟩ := ids_of_mapM_addrReg? hts
        exact ⟨.mem ⟨by cases w <;> simp [Width.bytes], hlen' ▸ hlen, hterms⟩, rfl⟩
      · cases h
    · cases h

/-- A place that the operation may write stands for an operand within the column `operands[0]`. -/
theorem StandsFor.mayBeFirst {P : Config.Params} {b : BinOp} {o : OperandRec} {w : Width} {p : Place w}
    (h : StandsFor o p) (hd : destinationOk P b p = true) : mayBeFirst P b.tag o := by
  cases h with
  | half h => exact .inl h
  | gen h => exact .inl h
  | seg h =>
    cases b with
    | mov => exact .inr (.inr ⟨h, rfl⟩)
    | arith a => cases hd
  | mem h =>
    cases b with
    | mov => exact .inr (.inl ⟨h, .inl rfl⟩)
    | arith a => exact .inr (.inl ⟨h, .inr hd⟩)

/-- A place that the operation may read stands for an operand within the column `operands[1]`. -/
theorem StandsFor.mayBeSecond {b : BinOp} {o : OperandRec} {w : Width} {p : Place w} (h : StandsFor o p)
    (hs : sourceOk b p = true) : mayBeSecond b.tag o := by
  cases h with
  | half h => exact .inl h
  | gen h => exact .inl h
  | seg h =>
    cases b with
    | mov => exact .inr (.inr (.inr ⟨h, rfl⟩))
    | arith a => cases hs
  | mem h => exact .inr (.inl h)

theorem not_isSegmentOperand_of_general {o : OperandRec} (h : isGeneralOperand o) : ¬ isSegmentOperand o := by
  cases o with
  | imm v => cases h
  | mem terms disp width => cases h
  | reg index width offset =>
    obtain ⟨_, h8, _⟩ := h
    rintro ⟨h9, _⟩
    omega

/-- The place of a segment register operand is a segment register. -/
theorem StandsFor.isSegment_of_segmentOperand {o : OperandRec} {w : Width} {p : Place w} (h : StandsFor o p)
    (hs : isSegmentOperand o) : isSegment p = true := by
  cases h with
  | half h => exact absurd hs (not_isSegmentOperand_of_general h)
  | gen h => exact absurd hs (not_isSegmentOperand_of_general h)
  | seg h => rfl
  | mem h =>
    cases o with
    | mem terms disp width => cases hs
    | imm v => cases h
    | reg index width offset => cases h

/-- Next to a segment register a place of its width that is none stands for an operand it may be paired with (R117). -/
theorem StandsFor.pairsWithSegment {o : OperandRec} {w : Width} {p q : Place w} (h : StandsFor o p)
    (hw : operandWidth o = some w.bytes) (hq : isSegment q = true) (hp : isSegment p = false) : pairsWithSegment o := by
  have hkind : isGeneralOperand o ∨ isMemoryOperand o := by
    cases h with
    | half h => exact .inl h
    | gen h => exact .inl h
    | seg h => cases hp
    | mem h => exact .inr h
  cases q with
  | seg sr => exact ⟨hkind, hw⟩
  | half r k => cases hq
  | gen g => cases hq
  | mem ts disp => cases hq

/-! ### The shape check accepts the rows of the table (R117) -/

/-- A two-operand record that passes the shape check fits its row of the table. -/
theorem fitsTable_of_checkBinary {P : Config.Params} {b : BinOp} {operands : List OperandRec} {c : Checked}
    (h : checkBinary P b operands = .ok c) : fitsTable P b.tag operands := by
  obtain ⟨o0, o1, rfl⟩ := checkBinary_ok_length h
  obtain ⟨w, dst, src, _, h0, hd, hsrc⟩ := checkBinary_eq_ok h
  obtain ⟨hdst, hw0⟩ := standsFor_of_shapeOf h0
  refine (fitsTable_tag P b _).mpr ⟨o0, o1, rfl, hdst.mayBeFirst hd, ?_⟩
  rcases hsrc with ⟨v, _, h1, hseg⟩ | ⟨p, _, h1, hs, hpair⟩
  · obtain rfl := eq_imm_of_shapeOf h1
    refine ⟨.inr (.inr (.inl trivial)), nofun, fun h => ?_, nofun⟩
    exact absurd (hdst.isSegment_of_segmentOperand h) (Bool.eq_false_iff.mp hseg)
  · obtain ⟨hp, hw1⟩ := standsFor_of_shapeOf h1
    have hnot : ¬(isSegment dst = true ∧ isSegment p = true) := by
      simpa [pairOk, imp_iff_not_or] using hpair
    refine ⟨hp.mayBeSecond hs, fun w h => hw0.trans (hw1.symm.trans h), fun h => ?_, fun h => ?_⟩
    · have hd := hdst.isSegment_of_segmentOperand h
      exact hp.pairsWithSegment hw1 hd (Bool.eq_false_iff.mpr fun hp => hnot ⟨hd, hp⟩)
    · have hp := hp.isSegment_of_segmentOperand h
      exact hdst.pairsWithSegment hw0 hp (Bool.eq_false_iff.mpr fun hd => hnot ⟨hd, hp⟩)

@[simp] theorem isDataOp_tag (b : BinOp) : isDataOp b.tag = true := by
  rcases b with _ | (_ | _ | _) <;> rfl

/-- The shape check of an operation is that of two operands, or, for a jump or loop, that of one immediate. -/
theorem shapeCheck_cases {P : Config.Params} {op : Op} {check : List OperandRec → Except (Option Nat) Checked}
    (h : shapeCheck P op = .ok check) :
    (∃ b : BinOp, op = b.tag ∧ check = checkBinary P b) ∨
    (isDataOp op = false ∧ (∀ operands, fitsTable P op operands ↔ ∃ v, operands = [.imm v]) ∧
      ∃ mk, check = checkRelative mk) := by
  cases op with
  | mov => cases h; exact .inl ⟨.mov, rfl, rfl⟩
  | add => cases h; exact .inl ⟨.arith .add, rfl, rfl⟩
  | sub => cases h; exact .inl ⟨.arith .sub, rfl, rfl⟩
  | cmp => cases h; exact .inl ⟨.arith .cmp, rfl, rfl⟩
  | jne | je | jb | jp | loop | loopnz => cases h; exact .inr ⟨rfl, fun _ => Iff.rfl, _, rfl⟩
  | other t => cases h

theorem exists_checkRelative {P : Config.Params} {op : Op} {check : List OperandRec → Except (Option Nat) Checked}
    (hop : isDataOp op = false) (h : shapeCheck P op = .ok check) : ∃ mk, check = checkRelative mk := by
  rcases shapeCheck_cases h with ⟨b, rfl, _⟩ | ⟨_, _, hmk⟩
  · rw [isDataOp_tag] at hop
    cases hop
  · exact hmk

theorem exists_shapeCheck (P : Config.Params) {op : Op} (h : ∀ t, op ≠ .other t) : ∃ check, shapeCheck P op = .ok check := by
  cases op with
  | other t => exact absurd rfl (h t)
  | _ => exact ⟨_, rfl⟩

/-- The shape check accepts exactly the operands that fit the row of their operation (R117). -/
theorem exists_checked_iff_fitsTable {P : Config.Params} {op : Op} {operands : List OperandRec}
    {check : List OperandRec → Except (Option Nat) Checked} (h : shapeCheck P op = .ok check)
    (hok : ∀ o ∈ operands, registersOk o = true) : (∃ c, check operands = .ok c) ↔ fitsTable P op operands := by
  rcases shapeCheck_cases h with ⟨b, rfl, rfl⟩ | ⟨_, hfits, mk, rfl⟩
  · exact ⟨fun ⟨_, hc⟩ => fitsTable_of_checkBinary hc, checkBinary_of_fitsTable hok⟩
  · rw [hfits]
    constructor
    · rintro ⟨c, hc⟩
      obtain ⟨v, hv, _⟩ := checkRelative_eq_ok hc
      exact ⟨v, hv⟩
    · rintro ⟨v, rfl⟩
      exact ⟨_, rfl⟩

/-! ### The positions of the shape check (R117, R218) -/

/-- An `operands[0]` that is no place the operation may write is reported at position 0. -/
theorem checkBinary_of_bad_first {P : Config.Params} {b : BinOp} {o0 o1 : OperandRec}
    (h : ∀ (w : Width) (p : Place w), shapeOf o0 = some (.place w p) → destinationOk P b p = false) :
    checkBinary P b [o0, o1] = .error (some 0) := by
  simp only [checkBinary]
  split
  · rename_i w p hp
    simp [h w p hp]
  · rfl

/-- After a good `operands[0]`, an `operands[1]` that is no immediate and no place the operation may read is reported at
position 1. -/
theorem checkBinary_of_bad_second {P : Config.Params} {b : BinOp} {o0 o1 : OperandRec} {w : Width} {dst : Place w}
    (h0 : shapeOf o0 = some (.place w dst)) (hd : destinationOk P b dst = true) (himm : ∀ v, o1 ≠ .imm v)
    (h : ∀ (w : Width) (p : Place w), shapeOf o1 = some (.place w p) → sourceOk b p = false) :
    checkBinary P b [o0, o1] = .error (some 1) := by
  simp only [checkBinary, h0, hd, if_true]
  split
  · rfl
  · rename_i v hv
    exact absurd (eq_imm_of_shapeOf hv) (himm v)
  · rename_i w' p hp
    simp [h w' p hp]

/-- Two places of different widths, neither a segment register, are reported at position 1 (log entry 14). -/
theorem checkPair_of_widths_ne (b : BinOp) (operands : List OperandRec) {w w' : Width} {dst : Place w} {src : Place w'}
    (hw : w ≠ w') (hd : isSegment dst = false) (hs : isSegment src = false) :
    checkPair b operands w w' dst src = .error (some 1) := by
  cases w <;> cases w'
  · exact absurd rfl hw
  · simp [checkPair, hs]
  · simp [checkPair, hd]
  · exact absurd rfl hw

section Positions

variable {P : Config.Params} {b : BinOp} {o0 o1 : OperandRec}

theorem checkBinary_of_not_mayBeFirst (h : ¬ mayBeFirst P b.tag o0) : checkBinary P b [o0, o1] = .error (some 0) := by
  refine checkBinary_of_bad_first fun w p hp => Bool.eq_false_iff.mpr fun hd => h ?_
  obtain ⟨hstands, _⟩ := standsFor_of_shapeOf hp
  exact hstands.mayBeFirst hd

theorem checkBinary_of_not_mayBeSecond (hok : registersOk o0 = true) (h0 : mayBeFirst P b.tag o0)
    (h : ¬ mayBeSecond b.tag o1) : checkBinary P b [o0, o1] = .error (some 1) := by
  obtain ⟨w, dst, hdst, _, hd, _⟩ := shapeOf_first h0 hok
  refine checkBinary_of_bad_second hdst hd ?_ fun w p hp => Bool.eq_false_iff.mpr fun hs => h ?_
  · rintro v rfl
    exact h (.inr (.inr (.inl trivial)))
  · obtain ⟨hstands, _⟩ := standsFor_of_shapeOf hp
    exact hstands.mayBeSecond hs

theorem checkBinary_of_widths_ne (hok0 : registersOk o0 = true) (hok1 : registersOk o1 = true)
    (h0 : mayBeFirst P b.tag o0) (h1 : mayBeSecond b.tag o1) (hseg0 : ¬ isSegmentOperand o0)
    (hseg1 : ¬ isSegmentOperand o1) {n : Nat} (hn1 : operandWidth o1 = some n) (hn0 : operandWidth o0 ≠ some n) :
    checkBinary P b [o0, o1] = .error (some 1) := by
  obtain ⟨w, dst, hdst, hw, hd, hdseg⟩ := shapeOf_first h0 hok0
  rcases shapeOf_second h1 hok1 with ⟨v, rfl⟩ | ⟨w', src, hsrc, hw', hs, hsseg⟩
  · cases hn1
  · have hne : w ≠ w' := by
      rintro rfl
      exact hn0 (hw.trans (hw'.symm.trans hn1))
    simp only [checkBinary, hdst, hd, hsrc, hs, if_true]
    exact checkPair_of_widths_ne b _ hne (Bool.eq_false_iff.mpr (mt hdseg hseg0)) (Bool.eq_false_iff.mpr (mt hsseg hseg1))

end Positions

/-- A jump's or loop's one operand that is no immediate is reported at position 0. -/
theorem checkRelative_of_not_imm (mk : Byte → Checked) {o : OperandRec} (h : ¬ isImmediateOperand o) :
    checkRelative mk [o] = .error (some 0) := by
  cases o with
  | imm v => exact absurd trivial h
  | reg index width offset => rfl
  | mem terms disp width => rfl

/-! ### The halt of a record that fails the shape check -/

theorem registerViolation_eq_none {operands : List OperandRec} :
    registerViolation operands = none ↔ ∀ o ∈ operands, registersOk o = true := by
  simp [registerViolation]

/-- A record that keeps the register contract halts with OperandTypeMismatch exactly at an error of the shape check: no rule
gives that halt. -/
theorem runRecord_eq_mismatch_iff {P : Config.Params} {rec : Record} {s : State} {k : Option Nat}
    {check : List OperandRec → Except (Option Nat) Checked} (hrun : s.run = .running)
    (hcheck : shapeCheck P rec.op = .ok check) (hviol : registerViolation rec.operands = none) :
    runRecord P rec s = (s.advance rec.size).raise (.operandTypeMismatch s.ip k) ↔ check rec.operands = .error k := by
  cases hc : check rec.operands with
  | error k' =>
    have hhalt : runRecord P rec s = (s.advance rec.size).raise (.operandTypeMismatch s.ip k') := by
      simp [runRecord, dispatch, hcheck, hviol, hc]
    rw [hhalt]
    refine ⟨fun h => ?_, fun h => by cases h; rfl⟩
    cases congrArg State.run h
    rfl
  | ok c =>
    rw [runRecord_of_checked hcheck hviol hc]
    refine ⟨fun h => ?_, fun h => by cases h⟩
    rcases runsOr_runChecked P s.ip c (s.advance rec.size) with hr | ⟨r, hr, hbad⟩ <;> rw [h] at hr
    · cases hr.trans hrun
    · cases hr
      rcases hbad with hbad | hbad <;> cases hbad

/-- Settles O58: the halt is an error of the shape check, which accepts the rows of the table, and whose positions are those of
the columns. -/
theorem operandShapeTable : Obligations.OperandShapeTable := by
  intro P rec s hrun hother hok mismatch
  obtain ⟨check, hcheck⟩ := exists_shapeCheck P hother
  have hmismatch : ∀ k, mismatch k ↔ check rec.operands = .error k := fun k =>
    runRecord_eq_mismatch_iff hrun hcheck (registerViolation_eq_none.mpr hok)
  simp only [hmismatch]
  refine ⟨?_, fun hdata o0 o1 hops => ?_, fun hdata o hops himm => ?_⟩
  · rw [← exists_checked_iff_fitsTable hcheck hok]
    cases check rec.operands <;> simp
  · obtain ⟨b, hb⟩ := exists_tag_of_isDataOp hdata
    rw [← hb, shapeCheck_tag] at hcheck
    cases hcheck
    rw [hops] at hok ⊢
    rw [← hb]
    have hok0 := hok o0 (by simp)
    have hok1 := hok o1 (by simp)
    exact ⟨checkBinary_of_not_mayBeFirst, checkBinary_of_not_mayBeSecond hok0,
      fun h0 h1 hs0 hs1 _ => checkBinary_of_widths_ne hok0 hok1 h0 h1 hs0 hs1⟩
  · obtain ⟨mk, rfl⟩ := exists_checkRelative hdata hcheck
    rw [hops]
    exact checkRelative_of_not_imm mk himm

/-! ### IP is no operand (R118) -/

/-- The id of IP is that of no general and of no segment register. -/
theorem shapeOf_ip (width offset : Nat) : shapeOf (.reg 13 width offset) = none := by
  cases hs : shapeOf (.reg 13 width offset) with
  | none => rfl
  | some shape =>
    cases shape with
    | imm v => cases eq_imm_of_shapeOf hs
    | place w p =>
      obtain ⟨hstands, _⟩ := standsFor_of_shapeOf hs
      cases hstands with
      | half h | gen h => obtain ⟨_, h8, _⟩ := h; omega
      | seg h => obtain ⟨_, h12, _⟩ := h; omega
      | mem h => cases h

/-- Every operand of a record that passes the shape check has a shape. -/
theorem shapeOf_ne_none_of_checked {P : Config.Params} {op : Op} {operands : List OperandRec} {c : Checked}
    {check : List OperandRec → Except (Option Nat) Checked} (h : shapeCheck P op = .ok check)
    (hc : check operands = .ok c) : ∀ o ∈ operands, shapeOf o ≠ none := by
  intro o ho hnone
  rcases shapeCheck_cases h with ⟨b, _, rfl⟩ | ⟨_, _, mk, rfl⟩
  · obtain ⟨o0, o1, w, dst, src, rfl, _, h0, h1⟩ := checkBinary_ok_shapes hc
    rcases List.mem_pair.mp ho with rfl | rfl
    · cases hnone.symm.trans h0
    · cases hnone.symm.trans h1
  · obtain ⟨v, rfl, _⟩ := checkRelative_eq_ok hc
    obtain rfl := List.mem_singleton.mp ho
    cases hnone

/-- Settles O53: an operand that names IP has no shape, so one of the three checks halts the record. -/
theorem ipIsNeverADataOperand : Obligations.IpIsNeverADataOperand := by
  intro P rec s width offset hip
  rcases runRecord_cases P rec s with ⟨t, _, h⟩ | ⟨k, _, h⟩ | ⟨k, _, h⟩ | ⟨check, c, hcheck, _, hc, _⟩
  · exact ⟨_, h, .inl rfl⟩
  · exact ⟨_, h, .inr (.inr rfl)⟩
  · exact ⟨_, h, .inr (.inl rfl)⟩
  · exact absurd (shapeOf_ip width offset) (shapeOf_ne_none_of_checked hcheck hc _ hip)

end Sys2Proof.Machine
end

section
/-! SUPPORT. The records of the byte encodings and the operand checks (40_dispatch.md R117): only a memory left operand of
ADD, SUB or CMP can fail them (D16). -/

namespace Sys2Proof.Machine

/-! ### The operands of a record and the places they stand for -/

@[simp] theorem shapeOf_accOperand (w : Width) : shapeOf (accOperand w) = some (.place w (accPlace w)) :=
  shapeOf_regOperand .axAl w

@[simp] theorem registersOk_accOperand (w : Width) : registersOk (accOperand w) = true := registersOk_regOperand .axAl w

/-- The record of a row with data operands has two operands, which stand for those places and keep the register contract. -/
theorem record_of_dataOperands {i : Instr} {w : Width} {dst : Place w} {src : Source w}
    (h : dataOperands i = some ⟨w, dst, src⟩) :
    ∃ o0 o1, i.record.operands = [o0, o1] ∧ shapeOf o0 = some (.place w dst) ∧ shapeOf o1 = some (Source.shape src) ∧
      registersOk o0 = true ∧ registersOk o1 = true := by
  cases i with
  | jneRel8 _ | jeRel8 _ | jbRel8 _ | jpRel8 _ | loopRel8 _ | loopnzRel8 _ => cases h
  | addRm8Imm8 rm _ | subRm8Imm8 rm _ | cmpRm8Imm8 rm _ | addRm16Imm16 rm _ | subRm16Imm16 rm _ | cmpRm16Imm16 rm _ =>
    cases h
    exact ⟨_, _, rfl, shapeOf_rmOperand rm _, rfl, registersOk_rmOperand rm _, rfl⟩
  | _ => cases h; exact ⟨_, _, rfl, by simp, by simp [Source.shape], by simp, by simp⟩

/-- A row without data operands is a jump or loop, whose one operand is an immediate (R96). -/
theorem record_of_no_dataOperands {i : Instr} (h : dataOperands i = none) :
    isDataOp i.record.op = false ∧ (∀ t, i.record.op ≠ .other t) ∧ ∃ v, i.record.operands = [.imm v] := by
  cases i with
  | jneRel8 _ | jeRel8 _ | jbRel8 _ | jpRel8 _ | loopRel8 _ | loopnzRel8 _ => exact ⟨rfl, nofun, _, rfl⟩
  | _ => cases h

theorem isDataOp_of_mem_arith : ∀ op ∈ [Op.add, .sub, .cmp], isDataOp op = true := by decide

/-! ### The columns of the table -/

theorem sourceOk_of_not_segment (b : BinOp) {w : Width} {p : Place w} (h : isSegment p = false) : sourceOk b p = true := by
  cases p with
  | seg sr => cases h
  | half r k | gen g | mem ts disp => cases b <;> rfl

theorem eq_mov_of_tag {b : BinOp} (h : b.tag = .mov) : b = .mov := by
  rcases b with _ | (_ | _ | _)
  · rfl
  all_goals cases h

/-- A row with a segment register operand is a MOV, and its other operand is none (R95). -/
theorem columns_of_dataOperands {i : Instr} {w : Width} {dst : Place w} {src : Source w} {b : BinOp}
    (h : dataOperands i = some ⟨w, dst, src⟩) (hb : b.tag = i.record.op) :
    (isSegment dst = true → b = .mov) ∧ (∀ v, src = .imm v → isSegment dst = false) ∧
      ∀ p, src = .place p → sourceOk b p = true ∧ pairOk dst p = true := by
  refine ⟨fun hseg => ?_, ?_, ?_⟩
  · rcases isSegment_destination h with hn | ⟨sr, rm, rfl⟩
    · rw [hseg] at hn; cases hn
    · exact eq_mov_of_tag hb
  · rintro v rfl
    rcases isSegment_destination h with hn | ⟨sr, rm, rfl⟩
    · exact hn
    · cases h
  · rintro p rfl
    cases hi : readsSegment i with
    | false =>
      have hp := isSegment_source h hi
      exact ⟨sourceOk_of_not_segment b hp, by simp [pairOk, hp]⟩
    | true =>
      cases i with
      | movRm16Sreg rm sr =>
        cases h
        obtain rfl := eq_mov_of_tag hb
        exact ⟨rfl, by simp [pairOk]⟩
      | _ => cases hi

/-- Of the places a row may have as its left operand only a memory place can be refused, by an operation other than MOV
without `MEM_DEST_ARITH` (R117, D16). -/
theorem destinationOk_iff {P : Config.Params} {b : BinOp} {o : OperandRec} {w : Width} {p : Place w}
    (h : StandsFor o p) (hseg : isSegment p = true → b = .mov) :
    destinationOk P b p = true ↔ P.memDestArith = true ∨ b.tag ∉ [Op.add, .sub, .cmp] ∨
      ∀ terms disp n, o ≠ .mem terms disp n := by
  cases b with
  | mov => simp [destinationOk, BinOp.tag]
  | arith a =>
    have htag : (BinOp.arith a).tag ∈ [Op.add, .sub, .cmp] := by cases a <;> decide
    cases h with
    | half h | gen h =>
      refine ⟨fun _ => .inr (.inr ?_), fun _ => rfl⟩
      rintro terms disp n rfl
      cases h
    | seg h => cases hseg rfl
    | mem h =>
      cases o with
      | mem terms disp width => simp [destinationOk, htag]
      | imm v => cases h
      | reg index width offset => cases h

/-- A row's record passes the shape check when its left operand is accepted, and otherwise is reported at position 0. -/
theorem checkBinary_eq_ite {P : Config.Params} {b : BinOp} {o0 o1 : OperandRec} {w : Width} {dst : Place w} {src : Source w}
    (h0 : shapeOf o0 = some (.place w dst)) (h1 : shapeOf o1 = some (Source.shape src))
    (himm : ∀ v, src = .imm v → isSegment dst = false)
    (hplace : ∀ p, src = .place p → sourceOk b p = true ∧ pairOk dst p = true) :
    checkBinary P b [o0, o1] = if destinationOk P b dst then .ok (b.checked w dst src) else .error (some 0) := by
  split
  · rename_i hd
    cases src with
    | imm v =>
      obtain rfl := eq_imm_of_shapeOf h1
      exact checkBinary_imm h0 hd (himm v rfl)
    | place p =>
      obtain ⟨hs, hp⟩ := hplace p rfl
      exact checkBinary_places h0 h1 hd hs hp
  · rename_i hd
    simp [checkBinary, h0, hd]

/-- Settles O7: a jump or loop record always passes, and a row with data operands by its left operand. -/
theorem encodedRecordsPassTheChecks : Obligations.EncodedRecordsPassTheChecks := by
  intro P i
  cases ho : dataOperands i with
  | none =>
    obtain ⟨hop, hother, v, hv⟩ := record_of_no_dataOperands ho
    obtain ⟨check, hcheck⟩ := exists_shapeCheck P hother
    obtain ⟨mk, rfl⟩ := exists_checkRelative hop hcheck
    have hmem : i.record.op ∉ [Op.add, .sub, .cmp] := fun h =>
      Bool.eq_false_iff.mp hop (isDataOp_of_mem_arith _ h)
    rw [hv]
    exact ⟨rfl, _, hcheck, ⟨fun _ => .inr (.inl hmem), fun _ => ⟨_, rfl⟩⟩, nofun⟩
  | some x =>
    obtain ⟨w, dst, src⟩ := x
    obtain ⟨o0, o1, hops, h0, h1, hok0, hok1⟩ := record_of_dataOperands ho
    obtain ⟨b, hb⟩ := exists_tag_of_isDataOp (isDataOp_of_dataOperands ho)
    obtain ⟨hseg, himm, hplace⟩ := columns_of_dataOperands ho hb
    obtain ⟨hstands, _⟩ := standsFor_of_shapeOf h0
    rw [hops, ← hb]
    refine ⟨registerViolation_two _ _ hok0 hok1, _, shapeCheck_tag P b, ?_⟩
    rw [checkBinary_eq_ite h0 h1 himm hplace]
    simp only [List.head?_cons, ne_eq, Option.some.injEq]
    rw [← destinationOk_iff hstands hseg]
    cases destinationOk P b dst <;> simp

end Sys2Proof.Machine
end

section
/-! SUPPORT. Operand reads and writes (41_operands_ea.md R130 to R133): what a write to a place leaves unchanged, register by
register and byte by byte, and that it reads back; the value of an immediate source. -/

namespace Sys2Proof.Machine

/-! ### Byte halves after a byte write (R23) -/

@[simp] theorem getByte_setByte (r : Regs) (x : HalfReg) (k : Half) (v : Byte) : (r.setByte x k v).getByte x k = v := by
  cases k with
  | low => simp [setByte_low, getByte_low]
  | high => simp [setByte_high, getByte_high]

theorem getByte_setByte_of_ne (r : Regs) (x : HalfReg) {k k' : Half} (v : Byte) (h : k' ≠ k) :
    (r.setByte x k v).getByte x k' = r.getByte x k' := by
  cases k with
  | low =>
    cases k' with
    | low => exact absurd rfl h
    | high => simp [setByte_low, getByte_high]
  | high =>
    cases k' with
    | low => simp [setByte_high, getByte_low]
    | high => exact absurd rfl h

/-! ### What a write to a place leaves unchanged (R133) -/

/-- A write to a place changes no register but the one the place is in. -/
theorem getWord_placeWrite {w : Width} {p : Place w} {x : Reg} (s : State) (v : BitVec w.bits)
    (h : placeReg p ≠ some x) : (Place.write s p v).getWord x = s.getWord x := by
  cases p with
  | half r k =>
    obtain ⟨u, hu⟩ := setByte_eq_setGen s.regs r k v
    exact (congrArg (Regs.getWord · x) hu).trans (getWord_setWord_ne s.regs u fun e => h (congrArg some e.symm))
  | gen g => exact getWord_setWord_ne s.regs v fun e => h (congrArg some e.symm)
  | seg sr => exact getWord_setWord_ne s.regs v fun e => h (congrArg some e.symm)
  | mem terms disp => rfl

/-- A write to a byte half keeps the other half of its cell. -/
theorem getByte_placeWrite {w : Width} {p : Place w} {r : HalfReg} {k k' : Half} (s : State) (v : BitVec w.bits)
    (hp : placeHalf p = some (r, k)) (h : k' ≠ k) :
    (Place.write s p v).regs.getByte r k' = s.regs.getByte r k' := by
  cases p with
  | half r k => cases hp; exact getByte_setByte_of_ne s.regs r v h
  | gen g => cases hp
  | seg sr => cases hp
  | mem terms disp => cases hp

/-- Inside the bank the bytes a memory place covers count from its address as a natural number (R58). -/
theorem covers_of_toNat {P : Config.Params} {w : Width} {r : Regs} {p : Place w} {a : Int} {b : Nat}
    (hbank : Place.inBank P r p = true) (ha : Place.ea? r p = some a) (hb : a.toNat ≤ b ∧ b < a.toNat + w.bytes) :
    covers r p b := by
  have hadm := admitted_of_inBank hbank ha
  simp only [admitted, Bool.and_eq_true, decide_eq_true_eq] at hadm
  cases p with
  | mem terms disp =>
    cases ha
    simp only [covers]
    omega
  | half r k => cases ha
  | gen g => cases ha
  | seg sr => cases ha

/-- A write to a place in the bank changes no byte of memory the place does not cover. -/
theorem read_placeWrite {P : Config.Params} {w : Width} {p : Place w} {s : State} {b : Nat} (v : BitVec w.bits)
    (hbank : Place.inBank P s.regs p = true) (hb : ¬ covers s.regs p b) :
    (Place.write s p v).mem.read b = s.mem.read b := by
  rcases placeWrite_mem s p v with hm | ⟨a, ha, hm⟩ <;> rw [hm]
  exact read_writeW_of_outside s.mem w v fun h => hb (covers_of_toNat hbank ha h)

theorem sameOutside_placeWrite {P : Config.Params} {w : Width} {p : Place w} {s : State} (v : BitVec w.bits)
    (hbank : Place.inBank P s.regs p = true) : SameOutside p s (Place.write s p v) where
  regs _ _ hx := getWord_placeWrite s v hx
  otherHalf _ _ _ hp hk := getByte_placeWrite s v hp hk
  mem _ hb := read_placeWrite v hbank hb
  progLen := placeWrite_progLen s p v

/-! ### What a place and a source read (R130, R131) -/

/-- A place reads back what was written to it. A memory place keeps its address, as its write changes no register. -/
theorem placeRead_placeWrite {w : Width} {s : State} (p : Place w) (v : BitVec w.bits) (hm : s.mem.wf) :
    Place.read (Place.write s p v) p = v := by
  cases p with
  | half r k => exact getByte_setByte s.regs r k v
  | gen g => exact getGen_setGen s.regs g v
  | seg sr => exact getSeg_setSeg s.regs sr v
  | mem terms disp => exact readW_writeW hm (effectiveAddress terms disp s.regs).toNat w v

/-- Settles O33: the read-back, the frame inside the bank, and the fields no place is in. -/
theorem placeReadsBackWhatWasWritten : Obligations.PlaceReadsBackWhatWasWritten := fun _ _ s p v hm hbank =>
  ⟨placeRead_placeWrite p v hm, sameOutside_placeWrite v hbank, placeWrite_ip s p v, placeWrite_flags s p v,
    placeWrite_run s p v⟩

/-- An immediate source does not read the state: it is the whole value at width 2 and the low byte at width 1. -/
theorem sourceRead_imm (s : State) (v : Word) : ∀ w, Source.read s (.imm v : Source w) = immediate v w := fun _ => rfl

/-- Settles O31: the two widths of an immediate, and at width 1 the low byte alone decides. -/
theorem immediateSources : Obligations.ImmediateSources := fun s v v' =>
  ⟨sourceRead_imm s v .word, sourceRead_imm s v .byte, fun h =>
    calc Source.read s (.imm v : Source .byte)
      _ = loByte v := sourceRead_imm s v .byte
      _ = loByte v' := h
      _ = Source.read s (.imm v' : Source .byte) := (sourceRead_imm s v' .byte).symm⟩

end Sys2Proof.Machine
end

section
/-! SUPPORT. The flag derivation of ADD, SUB and CMP (42_flags.md R150 to R161): each flag procedure of the model is said
once through the arithmetic of the operands, the two overflow formulas through the library's signed overflow. -/

namespace Sys2Proof.Machine

/-! ### Single-bit masks (R9) -/

theorem and_twoPow_ne_zero {n i : Nat} (x : BitVec n) (hi : i < n) :
    x &&& BitVec.twoPow n i ≠ 0 ↔ x.getLsbD i = true := by
  have hpow : BitVec.twoPow n i ≠ 0#n := fun h => by
    simpa [hi] using congrArg (fun y => y.getLsbD i) h
  rw [BitVec.and_twoPow]
  cases x.getLsbD i with
  | true => simpa using hpow
  | false => simp

theorem hib_eq_twoPow (w : Width) : hib w = BitVec.twoPow w.bits (w.bits - 1) := by
  cases w <;> rfl

/-- A value masked to the high-order bit is non-zero when its sign bit is set. -/
theorem and_hib_ne_zero {w : Width} (r : BitVec w.bits) : r &&& hib w ≠ 0 ↔ r.msb = true := by
  rw [hib_eq_twoPow, BitVec.msb_eq_getLsbD_last]
  exact and_twoPow_ne_zero r (by cases w <;> decide)

/-- The mask 0xF keeps the low nibble. -/
theorem toNat_and_lowNibble {w : Width} (a : BitVec w.bits) : (a &&& 0xF).toNat = a.toNat % 16 := by
  have hmask : (0xF : BitVec w.bits).toNat = 2 ^ 4 - 1 := by cases w <;> rfl
  rw [BitVec.toNat_and, hmask, Nat.and_two_pow_sub_one_eq_mod]

/-! ### Flags of a result (R150 to R152) -/

theorem zeroFlag_iff {w : Width} (r : BitVec w.bits) : zeroFlag r = true ↔ r = 0 := beq_iff_eq

theorem signFlag_eq_msb {w : Width} (r : BitVec w.bits) : signFlag r = r.msb := by
  rw [Bool.eq_iff_iff, signFlag, bne_iff_ne]
  exact and_hib_ne_zero r

/-- The number of set bits of the low byte, counted over the bits of the whole value. -/
theorem popcount_setWidth {n : Nat} (r : BitVec n) :
    popcount (r.setWidth 8) = ((Finset.range 8).filter fun i => r.getLsbD i = true).card := by
  rw [← Nat.count_eq_card_filter_range, Nat.count, popcount]
  refine List.countP_congr fun i hi => ?_
  simp [List.mem_range.mp hi]

theorem parityFlag_iff {w : Width} (r : BitVec w.bits) :
    parityFlag r = true ↔ Even ((Finset.range 8).filter fun i => r.getLsbD i = true).card := by
  rw [parityFlag, popcount_setWidth, beq_iff_eq, Nat.even_iff]

/-! ### Carries and borrows (R153, R154, R157, R158) -/

theorem addCarry_iff {w : Width} (a b : BitVec w.bits) : addCarry a b = true ↔ 2 ^ w.bits ≤ a.toNat + b.toNat :=
  decide_eq_true_iff

theorem addAuxCarry_iff {w : Width} (a b : BitVec w.bits) :
    addAuxCarry a b = true ↔ 0x10 ≤ a.toNat % 16 + b.toNat % 16 := by
  rw [addAuxCarry, decide_eq_true_iff, toNat_and_lowNibble, toNat_and_lowNibble]

theorem subBorrow_iff {w : Width} (a b : BitVec w.bits) : subBorrow a b = true ↔ a.toNat < b.toNat :=
  decide_eq_true_iff

theorem subAuxBorrow_iff {w : Width} (a b : BitVec w.bits) :
    subAuxBorrow a b = true ↔ a.toNat % 16 < b.toNat % 16 := by
  rw [subAuxBorrow, decide_eq_true_iff, toNat_and_lowNibble, toNat_and_lowNibble]

/-- Bit 4 of `a ^ b ^ (a + b)` is the carry the adder brings into bit 4, which is the carry out of bit 3. -/
theorem addAuxCarry_iff_xor {w : Width} (a b : BitVec w.bits) :
    addAuxCarry a b = true ↔ (a ^^^ b ^^^ (a + b)) &&& 0x10 ≠ 0 := by
  have hbits : 4 < w.bits := by cases w <;> decide
  have hmask : (0x10 : BitVec w.bits) = BitVec.twoPow w.bits 4 := by cases w <;> rfl
  have hcarry : (a ^^^ b ^^^ (a + b)).getLsbD 4 = BitVec.carry 4 a b false := by
    rw [BitVec.getLsbD_xor, BitVec.getLsbD_xor, BitVec.getLsbD_add hbits]
    cases a.getLsbD 4 <;> cases b.getLsbD 4 <;> simp
  rw [hmask, and_twoPow_ne_zero _ hbits, hcarry, addAuxCarry_iff]
  simp [BitVec.carry]

/-! ### Overflow (R155, R159) -/

theorem addOverflow_iff {w : Width} (a b : BitVec w.bits) :
    addOverflow a b = true ↔ ~~~(a ^^^ b) &&& ((a + b) ^^^ a) &&& hib w ≠ 0 := bne_iff_ne

theorem subOverflow_iff {w : Width} (a b : BitVec w.bits) :
    subOverflow a b = true ↔ (a ^^^ b) &&& (a ^^^ (a - b)) &&& hib w ≠ 0 := bne_iff_ne

/-- The operands share a sign and the sum has the other: the library's signed overflow of a sum. -/
theorem addOverflow_eq_saddOverflow {w : Width} (a b : BitVec w.bits) : addOverflow a b = a.saddOverflow b := by
  have hn : 0 < w.bits := by cases w <;> decide
  rw [Bool.eq_iff_iff, addOverflow_iff, and_hib_ne_zero, BitVec.saddOverflow_eq, BitVec.msb_and, BitVec.msb_not,
    BitVec.msb_xor, BitVec.msb_xor]
  cases a.msb <;> cases b.msb <;> cases (a + b).msb <;> simp [hn]

/-- The operands differ in sign and the difference has the sign of the right one: the library's signed overflow of a
difference. -/
theorem subOverflow_eq_ssubOverflow {w : Width} (a b : BitVec w.bits) : subOverflow a b = a.ssubOverflow b := by
  rw [Bool.eq_iff_iff, subOverflow_iff, and_hib_ne_zero, BitVec.ssubOverflow_eq, BitVec.msb_and, BitVec.msb_xor,
    BitVec.msb_xor]
  cases a.msb <;> cases b.msb <;> cases (a - b).msb <;> simp

theorem addOverflow_iff_outside {w : Width} (a b : BitVec w.bits) : addOverflow a b = true ↔
    ¬(-2 ^ (w.bits - 1) ≤ a.toInt + b.toInt ∧ a.toInt + b.toInt ≤ 2 ^ (w.bits - 1) - 1) := by
  rw [addOverflow_eq_saddOverflow, BitVec.saddOverflow, Bool.or_eq_true, decide_eq_true_iff, decide_eq_true_iff]
  omega

theorem subOverflow_iff_outside {w : Width} (a b : BitVec w.bits) : subOverflow a b = true ↔
    ¬(-2 ^ (w.bits - 1) ≤ a.toInt - b.toInt ∧ a.toInt - b.toInt ≤ 2 ^ (w.bits - 1) - 1) := by
  rw [subOverflow_eq_ssubOverflow, BitVec.ssubOverflow, Bool.or_eq_true, decide_eq_true_iff, decide_eq_true_iff]
  omega

/-! ### The statements -/

/-- Settles O27: both flag procedures take ZF, SF and PF from their result alone. -/
theorem zeroSignAndParityOfAResult : Obligations.ZeroSignAndParityOfAResult := by
  intro w a b r f g h
  obtain ⟨hz, hs, hp⟩ : g.ZF = zeroFlag r ∧ g.SF = signFlag r ∧ g.PF = parityFlag r := by
    rcases h with ⟨rfl, rfl⟩ | ⟨rfl, rfl⟩
    · exact ⟨rfl, rfl, rfl⟩
    · exact ⟨rfl, rfl, rfl⟩
  rw [hz, hs, hp]
  exact ⟨(zeroFlag_iff r).trans BitVec.toNat_inj.symm, (signFlag_eq_msb r).trans r.msb_eq_getLsbD_last,
    parityFlag_iff r⟩

/-- Settles O28: the three flags are those of `addCarry`, `subBorrow` and `subAuxBorrow`. -/
theorem carryAndBorrow : Obligations.CarryAndBorrow := fun _ a b _ =>
  ⟨addCarry_iff a b, subBorrow_iff a b, subAuxBorrow_iff a b⟩

/-- Settles O29: each flag in the form the model computes, and in the spec's second form by the adder's carry into bit 4 and
by the signed overflow. -/
theorem auxiliaryCarryAndOverflow : Obligations.AuxiliaryCarryAndOverflow := fun _ a b _ =>
  ⟨addAuxCarry_iff a b, addAuxCarry_iff_xor a b, addOverflow_iff a b, addOverflow_iff_outside a b,
    subOverflow_iff a b, subOverflow_iff_outside a b⟩

/-- After a subtraction ZF is equality: a difference is 0 only of equal values. -/
theorem subFlags_ZF_iff {w : Width} (a b : BitVec w.bits) (f : Flags) : (subFlags a b f).ZF = true ↔ a = b :=
  (zeroFlag_iff (a - b)).trans sub_eq_zero

/-- The flags a value minus itself leaves are those of the result 0, with no borrow and no overflow. -/
theorem subFlags_self {w : Width} (a : BitVec w.bits) (f : Flags) : subFlags a a f =
    { f with CF := false, AF := false, OF := false, ZF := true, SF := false, PF := true } := by
  have hCF : subBorrow a a = false := by simp [subBorrow]
  have hAF : subAuxBorrow a a = false := by simp [subAuxBorrow]
  have hOF : subOverflow a a = false := by simp [subOverflow]
  have hresult : zeroFlag (0#w.bits) = true ∧ signFlag (0#w.bits) = false ∧ parityFlag (0#w.bits) = true := by
    cases w <;> decide
  obtain ⟨hZF, hSF, hPF⟩ := hresult
  rw [subFlags, BitVec.sub_self, hCF, hAF, hOF, hZF, hSF, hPF]

/-- Adding 0 neither carries nor overflows: `a` and its low nibble are below their bounds, and the sum is `a`. -/
theorem addFlags_zero {w : Width} (a : BitVec w.bits) (f : Flags) :
    (addFlags a 0 f).CF = false ∧ (addFlags a 0 f).AF = false ∧ (addFlags a 0 f).OF = false := by
  have hCF : addCarry a 0 = false := by simp [addCarry, a.isLt]
  have hAF : addAuxCarry a 0 = false := by
    rw [Bool.eq_false_iff, ne_eq, addAuxCarry_iff]
    simpa using Nat.mod_lt a.toNat (by decide)
  have hOF : addOverflow a 0 = false := by simp [addOverflow]
  exact ⟨hCF, hAF, hOF⟩

/-- Settles O30: the four laws of R161; JB reads CF and JE reads ZF. -/
theorem flagLaws : Obligations.FlagLaws := by
  refine ⟨fun w a f => ?_, fun w a b f => ?_, fun w a f => ⟨add_zero a, addFlags_zero a f⟩, ?_⟩
  · rw [subFlags_self]
    exact ⟨sub_self a, rfl, rfl, rfl, rfl, rfl, rfl⟩
  · exact ⟨subBorrow_iff a b, subFlags_ZF_iff a b f, subBorrow_iff a b, subFlags_ZF_iff a b f⟩
  · decide

end Sys2Proof.Machine
end

section
/-! SUPPORT. The MOV rows (43_move.md R170, R171): the checked form of a row from its opcode, and what a data operation leaves
unchanged. The records of two memory operands, which no encoding gives (40_dispatch.md R117, the spec's decision D17). -/

namespace Sys2Proof.Machine

/-! ### The checked form of a row with data operands -/

/-- At the reference parameters a row with data operands runs the rule of its opcode on them (R113, R117). -/
theorem exec_eq_runChecked {i : Instr} {b : BinOp} {w : Width} {dst : Place w} {src : Source w}
    (h : dataOperands i = some ⟨w, dst, src⟩) (hb : b.tag = i.record.op) (s : State) :
    exec i s = .next (runChecked Config.reference s.ip (b.checked w dst src) (s.advance (encode i).length)) := by
  obtain ⟨o0, o1, hops, h0, h1, hok0, hok1⟩ := record_of_dataOperands h
  obtain ⟨hseg, himm, hplace⟩ := columns_of_dataOperands h hb
  obtain ⟨hstands, _⟩ := standsFor_of_shapeOf h0
  have hviol : registerViolation i.record.operands = none := hops ▸ registerViolation_two o0 o1 hok0 hok1
  have hdst : destinationOk Config.reference b dst = true := (destinationOk_iff hstands hseg).mpr (.inl rfl)
  have hcheck : checkBinary Config.reference b i.record.operands = .ok (b.checked w dst src) := by
    rw [hops, checkBinary_eq_ite h0 h1 himm hplace, if_pos hdst]
  rw [exec_eq_runRecord, length_encode, runRecord_of_checked (hb ▸ shapeCheck_tag _ b) hviol hcheck]

/-- The advance leaves both operands in the bank. -/
theorem rangeViolation_advance_eq_none {P : Config.Params} {w : Width} {dst : Place w} {src : Source w} {s : State}
    (hdst : Place.inBank P s.regs dst = true) (hsrc : Source.inBank P s.regs src = true) (n : Nat) :
    rangeViolation P dst src (s.advance n).regs = none := by
  rw [advance_regs, rangeViolation_setIp]
  exact (rangeViolation_eq_none P dst src s.regs).mpr ⟨hdst, hsrc⟩

/-! ### MOV completes -/

theorem tag_mov_of_isMov {i : Instr} (h : isMov i = true) : BinOp.mov.tag = i.record.op := (beq_iff_eq.mp h).symm

/-- A MOV row completes as MOV on its operands (R170, R171). -/
theorem moves_of_isMov {i : Instr} {w : Width} {dst : Place w} {src : Source w} (hi : isMov i = true)
    (h : dataOperands i = some ⟨w, dst, src⟩) : Moves i w dst src := by
  intro s hdst hsrc
  have hr := rangeViolation_advance_eq_none hdst hsrc (encode i).length
  rw [exec_eq_runChecked h (tag_mov_of_isMov hi), BinOp.checked, runChecked, runMove_eq hr, sourceRead_advance]

/-- Settles O34: each row is a MOV with those operands. -/
theorem movCopiesSourceToDestination : Obligations.MovCopiesSourceToDestination :=
  ⟨fun _ _ _ => moves_of_isMov rfl rfl, fun _ _ _ => moves_of_isMov rfl rfl,
    fun _ _ => moves_of_isMov rfl rfl, fun _ _ => moves_of_isMov rfl rfl,
    fun _ _ => moves_of_isMov rfl rfl, fun _ _ => moves_of_isMov rfl rfl,
    fun _ _ => moves_of_isMov rfl rfl, fun _ _ => moves_of_isMov rfl rfl,
    fun _ _ => moves_of_isMov rfl rfl, fun _ _ => moves_of_isMov rfl rfl⟩

/-! ### The frame of the data operations -/

/-- A state with the same registers, memory and program length is the same outside any place. -/
theorem sameOutside_of_eq {w : Width} {p : Place w} {s t : State} (hr : t.regs = s.regs) (hm : t.mem = s.mem)
    (hp : t.progLen = s.progLen) : SameOutside p s t where
  regs x _ _ := congrArg (Regs.getWord · x) hr
  otherHalf r _ k' _ _ := congrArg (Regs.getByte · r k') hr
  mem a _ := congrArg (Memory.read · a) hm
  progLen := hp

theorem sameOutside_setFlags {w : Width} {p : Place w} {s t : State} (h : SameOutside p s t) (f : Flags) :
    SameOutside p s (t.setFlags f) where
  regs := h.regs
  otherHalf := h.otherHalf
  mem := h.mem
  progLen := h.progLen

@[simp] theorem covers_setIp {w : Width} (p : Place w) (r : Regs) (v : Word) (a : Nat) :
    covers { r with ip := v } p a ↔ covers r p a := by
  cases p <;> simp [covers]

/-- What is the same outside a place since the advance is the same since before it: the advance writes `ip` alone (R112). -/
theorem sameOutside_of_advance {w : Width} {p : Place w} {s t : State} {n : Nat} (h : SameOutside p (s.advance n) t) :
    SameOutside p s t where
  regs x hx hp := (h.regs x hx hp).trans (getWord_setWord_ne s.regs (x := .ip) _ hx)
  otherHalf r k k' hp hk := (h.otherHalf r k k' hp hk).trans (getByte_setIp s.regs r k' _)
  mem a ha := h.mem a (mt (covers_setIp p s.regs _ a).mp ha)
  progLen := h.progLen

/-- MOV, ADD, SUB and CMP change nothing but the destination, the flags and the run: a halt writes no place, and a value is
written to a destination in the bank. -/
theorem sameOutside_data (P : Config.Params) (pos : Word) {w : Width} {dst : Place w} {src : Source w} {c : Checked}
    (s : State) (hc : c = .move w dst src ∨ ∃ op, c = .arith op w dst src) :
    SameOutside dst s (runChecked P pos c s) := by
  rcases runChecked_data_cases P pos dst src s c hc with ⟨a, _, h⟩ | ⟨hr, f, _, ⟨v, h⟩ | h⟩ <;> rw [h]
  · exact sameOutside_of_eq rfl rfl rfl
  · obtain ⟨hdst, _⟩ := (rangeViolation_eq_none P dst src s.regs).mp hr
    exact sameOutside_setFlags (sameOutside_placeWrite v hdst) f
  · exact sameOutside_of_eq rfl rfl rfl

/-- Settles O40: the frame of a data operation, and MOV carries the flags along. -/
theorem movFrame : Obligations.MovFrame := by
  intro i w dst src s t hi h hexec
  rw [exec_eq_runChecked h (tag_mov_of_isMov hi)] at hexec
  cases hexec
  exact ⟨sameOutside_of_advance (sameOutside_data _ s.ip _ (.inl rfl)), runMove_flags _ s.ip dst src _,
    runsOr_data _ s.ip (s.advance _) (.inl rfl)⟩

/-! ### Records of two memory operands -/

/-- The memory operand with given address terms, each named by its register id (R75, R135). -/
def memOperand (ts : List AddrReg) (disp : Int) (w : Width) : OperandRec :=
  .mem (ts.map fun t => Reg.id (.gen t.gen)) disp w.bytes

theorem addrReg?_id : ∀ t : AddrReg, addrReg? (Reg.id (.gen t.gen)) = some t := by rintro (_ | _ | _ | _) <;> rfl

theorem mapM_addrReg?_ids (ts : List AddrReg) : (ts.map fun t => Reg.id (.gen t.gen)).mapM addrReg? = some ts := by
  induction ts with
  | nil => rfl
  | cons t ts ih => simp [addrReg?_id, ih]

theorem shapeOf_memOperand {ts : List AddrReg} (hlen : ts.length ≤ 2) (disp : Int) (w : Width) :
    shapeOf (memOperand ts disp w) = some (.place w (.mem ts disp)) := by
  cases w <;> simp [shapeOf, memOperand, Width.bytes, width?, mapM_addrReg?_ids, hlen, -List.mapM_map]

theorem registersOk_memOperand (ts : List AddrReg) (disp : Int) (w : Width) :
    registersOk (memOperand ts disp w) = true := by
  have hid : ∀ t : AddrReg, (Reg.ofId (Reg.id (.gen t.gen))).isSome = true := by rintro (_ | _ | _ | _) <;> rfl
  simp [registersOk, memOperand, hid]

/-- A record of two memory operands runs the rule of its opcode, where that accepts a memory left operand (R117, D17). -/
theorem runRecord_memOperands {P : Config.Params} {b : BinOp} {ts ts' : List AddrReg} {d d' : Int} {w : Width}
    (hlen : ts.length ≤ 2) (hlen' : ts'.length ≤ 2) (hd : destinationOk P b (.mem ts d : Place w) = true) (n : Nat)
    (s : State) :
    runRecord P { op := b.tag, size := n, operands := [memOperand ts d w, memOperand ts' d' w] } s =
      runChecked P s.ip (b.checked w (.mem ts d) (.place (.mem ts' d'))) (s.advance n) := by
  have hsource : sourceOk b (.mem ts' d' : Place w) = true := sourceOk_of_not_segment b rfl
  exact runRecord_of_checked (shapeCheck_tag P b)
    (registerViolation_two _ _ (registersOk_memOperand ts d w) (registersOk_memOperand ts' d' w))
    (checkBinary_places (shapeOf_memOperand hlen d w) (shapeOf_memOperand hlen' d' w) hd hsource rfl) s

/-- A write to a memory place after the advance stores at the address the place had before it (R112, R136). -/
theorem placeWrite_mem_advance {w : Width} (s : State) (n : Nat) (ts : List AddrReg) (d : Int) (v : BitVec w.bits) :
    Place.write (s.advance n) (.mem ts d) v =
      (s.advance n).setMem (s.mem.writeW (effectiveAddress ts d s.regs).toNat w v) := by
  simp [Place.write]

/-- Settles O55: the record passes the checks, both operands are in the bank, and the rule reads and writes them there. -/
theorem memoryToMemoryRecordsRun : Obligations.MemoryToMemoryRecordsRun := by
  intro P s w n ts ts' d d' hlen hlen' hdst hsrc
  have hdst : Place.inBank P s.regs (.mem ts d : Place w) = true := hdst
  have hsrc : Source.inBank P s.regs (.place (.mem ts' d') : Source w) = true := hsrc
  have hr := rangeViolation_advance_eq_none hdst hsrc n
  have harith {op : ArithOp} (hmem : P.memDestArith = true) :
      destinationOk P (.arith op) (.mem ts d : Place w) = true := hmem
  refine ⟨?_, fun hmem => ⟨?_, ?_, ?_⟩⟩
  · refine (runRecord_memOperands (b := .mov) hlen hlen' rfl n s).trans ((runMove_eq hr).trans ?_)
    rw [placeWrite_mem_advance, sourceRead_advance]
    rfl
  · refine (runRecord_memOperands (b := .arith .add) hlen hlen' (harith hmem) n s).trans ((runAdd_eq hr).trans ?_)
    rw [placeWrite_mem_advance, sourceRead_advance, placeRead_advance]
    rfl
  · refine (runRecord_memOperands (b := .arith .sub) hlen hlen' (harith hmem) n s).trans ((runSub_eq hr).trans ?_)
    rw [placeWrite_mem_advance, sourceRead_advance, placeRead_advance]
    rfl
  · refine (runRecord_memOperands (b := .arith .cmp) hlen hlen' (harith hmem) n s).trans ((runCmp_eq hr).trans ?_)
    rw [sourceRead_advance, placeRead_advance]
    rfl

end Sys2Proof.Machine
end

section
/-! SUPPORT. The ADD, SUB and CMP rows (44_arith.md R180 to R182): each completes as its operation on its operands, CMP sets
the flags of SUB and writes nothing else, and what a row leaves unchanged. -/

namespace Sys2Proof.Machine

/-! ### The rows complete -/

/-- An ADD row completes as ADD on its operands (R180). -/
theorem adds_of_op_eq {i : Instr} {w : Width} {dst : Place w} {src : Source w} (hop : i.record.op = .add)
    (h : dataOperands i = some ⟨w, dst, src⟩) : Computes (fun a b => a + b) addFlags i w dst src := by
  intro s hdst hsrc
  have hr := rangeViolation_advance_eq_none hdst hsrc (encode i).length
  rw [exec_eq_runChecked (b := .arith .add) h hop.symm, BinOp.checked, runChecked, runAdd_eq hr, placeRead_advance,
    sourceRead_advance, advance_flags]

/-- A SUB row completes as SUB on its operands (R181). -/
theorem subs_of_op_eq {i : Instr} {w : Width} {dst : Place w} {src : Source w} (hop : i.record.op = .sub)
    (h : dataOperands i = some ⟨w, dst, src⟩) : Computes (fun a b => a - b) subFlags i w dst src := by
  intro s hdst hsrc
  have hr := rangeViolation_advance_eq_none hdst hsrc (encode i).length
  rw [exec_eq_runChecked (b := .arith .sub) h hop.symm, BinOp.checked, runChecked, runSub_eq hr, placeRead_advance,
    sourceRead_advance, advance_flags]

/-- A CMP row runs the rule of CMP on its operands, in every state (R113, R182). -/
theorem exec_eq_runCmp {i : Instr} {w : Width} {dst : Place w} {src : Source w} (hop : i.record.op = .cmp)
    (h : dataOperands i = some ⟨w, dst, src⟩) (s : State) :
    exec i s = .next (runCmp Config.reference s.ip dst src (s.advance (encode i).length)) :=
  exec_eq_runChecked (b := .arith .cmp) h hop.symm s

/-- A CMP row completes as CMP on its operands (R182). -/
theorem compares_of_op_eq {i : Instr} {w : Width} {dst : Place w} {src : Source w} (hop : i.record.op = .cmp)
    (h : dataOperands i = some ⟨w, dst, src⟩) : Compares i w dst src := by
  intro s hdst hsrc
  have hr := rangeViolation_advance_eq_none hdst hsrc (encode i).length
  rw [exec_eq_runCmp hop h, runCmp_eq hr, placeRead_advance, sourceRead_advance, advance_flags]

/-- Settles O35: each row is an ADD with those operands. -/
theorem addWritesSumAndFlags : Obligations.AddWritesSumAndFlags :=
  ⟨fun _ _ _ => adds_of_op_eq rfl rfl, fun _ _ _ => adds_of_op_eq rfl rfl,
    fun _ _ => adds_of_op_eq rfl rfl, fun _ _ => adds_of_op_eq rfl rfl, fun _ _ => adds_of_op_eq rfl rfl,
    fun _ => adds_of_op_eq rfl rfl, fun _ => adds_of_op_eq rfl rfl⟩

/-- Settles O36: each row is a SUB with those operands. -/
theorem subWritesDifferenceAndFlags : Obligations.SubWritesDifferenceAndFlags :=
  ⟨fun _ _ _ => subs_of_op_eq rfl rfl, fun _ _ _ => subs_of_op_eq rfl rfl,
    fun _ _ => subs_of_op_eq rfl rfl, fun _ _ => subs_of_op_eq rfl rfl, fun _ _ => subs_of_op_eq rfl rfl,
    fun _ => subs_of_op_eq rfl rfl, fun _ => subs_of_op_eq rfl rfl⟩

/-- Settles O37: each row is a CMP with those operands. -/
theorem cmpSetsFlagsOnly : Obligations.CmpSetsFlagsOnly :=
  ⟨fun _ _ _ => compares_of_op_eq rfl rfl, fun _ _ _ => compares_of_op_eq rfl rfl,
    fun _ _ => compares_of_op_eq rfl rfl, fun _ _ => compares_of_op_eq rfl rfl, fun _ _ => compares_of_op_eq rfl rfl,
    fun _ => compares_of_op_eq rfl rfl, fun _ => compares_of_op_eq rfl rfl⟩

/-! ### CMP beside SUB -/

/-- CMP writes no register (R182). -/
theorem regs_runCmp (P : Config.Params) (pos : Word) {w : Width} (dst : Place w) (src : Source w) (s : State) :
    (runCmp P pos dst src s).regs = s.regs := by
  unfold runCmp
  split <;> rfl

/-- The advance writes no register but `ip` (R112). -/
theorem getWord_advance {x : Reg} (hx : x ≠ .ip) (s : State) (n : Nat) : (s.advance n).getWord x = s.getWord x :=
  getWord_setWord_ne s.regs (x := .ip) _ hx

/-- A CMP after the advance leaves every register but `ip`. -/
theorem getWord_runCmp_advance (P : Config.Params) (pos : Word) {w : Width} (dst : Place w) (src : Source w) (s : State)
    (n : Nat) {x : Reg} (hx : x ≠ .ip) : (runCmp P pos dst src (s.advance n)).getWord x = s.getWord x :=
  (congrArg (Regs.getWord · x) (regs_runCmp P pos dst src (s.advance n))).trans (getWord_advance hx s n)

/-- CMP and SUB on the same operands end with the same flags, `ip` and run state: they halt alike outside the bank, and
inside it the write of the difference touches none of the three (R182). -/
theorem runCmp_agrees_with_runSub (P : Config.Params) (pos : Word) {w : Width} (dst : Place w) (src : Source w)
    (s : State) :
    (runCmp P pos dst src s).flags = (runSub P pos dst src s).flags ∧
      (runCmp P pos dst src s).ip = (runSub P pos dst src s).ip ∧
      (runCmp P pos dst src s).run = (runSub P pos dst src s).run := by
  cases hr : rangeViolation P dst src s.regs with
  | some a =>
    have hcmp : runCmp P pos dst src s = s.raise (.addressOutOfRange pos a w) := runChecked_arith_halt (op := .cmp) hr
    have hsub : runSub P pos dst src s = s.raise (.addressOutOfRange pos a w) := runChecked_arith_halt (op := .sub) hr
    rw [hcmp, hsub]
    exact ⟨rfl, rfl, rfl⟩
  | none =>
    rw [runCmp_eq hr, runSub_eq hr]
    exact ⟨rfl, (placeWrite_ip s dst _).symm, (placeWrite_run s dst _).symm⟩

/-- The SUB row of a CMP row has its operands, and its record but for the opcode. -/
theorem record_of_subTwin {i j : Instr} (h : subTwin i = some j) :
    i.record.op = .cmp ∧ j.record = { i.record with op := .sub } ∧ dataOperands j = dataOperands i := by
  cases i with
  | cmpRmR _ _ _ | cmpRRm _ _ _ | cmpRm8Imm8 _ _ | cmpRm16Imm16 _ _ | cmpRm16Simm8 _ _ | cmpAccImm _ =>
    cases h
    exact ⟨rfl, rfl, rfl⟩
  | _ => cases h

/-- A MOV, ADD, SUB or CMP row has data operands. -/
theorem exists_dataOperands {i : Instr} (h : isDataOp i.record.op = true) :
    ∃ (w : Width) (dst : Place w) (src : Source w), dataOperands i = some ⟨w, dst, src⟩ := by
  cases ho : dataOperands i with
  | none =>
    obtain ⟨hop, _⟩ := record_of_no_dataOperands ho
    exact absurd h (Bool.eq_false_iff.mp hop)
  | some x => exact ⟨_, _, _, rfl⟩

/-- Settles O38: the two rows run the rules of CMP and SUB on the same operands after the same advance. -/
theorem cmpAndSubAgreeOnFlags : Obligations.CmpAndSubAgreeOnFlags := by
  intro i j s h
  obtain ⟨hcmp, hrec, hops⟩ := record_of_subTwin h
  obtain ⟨w, dst, src, ho⟩ := exists_dataOperands (hcmp ▸ rfl : isDataOp i.record.op = true)
  have hsub : BinOp.tag (.arith .sub) = j.record.op := by rw [hrec]; rfl
  have hlen : (encode j).length = (encode i).length := by rw [length_encode, length_encode, hrec]
  obtain ⟨hflags, hip, hrun⟩ :=
    runCmp_agrees_with_runSub Config.reference s.ip dst src (s.advance (encode i).length)
  exact ⟨_, _, exec_eq_runCmp hcmp ho s, hlen ▸ exec_eq_runChecked (hops.trans ho) hsub s, hflags, hip, hrun,
    mem_runCmp _ s.ip dst src _, fun _ hx => getWord_runCmp_advance _ s.ip dst src s _ hx⟩

/-! ### The frames -/

/-- Settles O41: the frame of a data operation, which keeps the inert flags. -/
theorem addSubFrame : Obligations.AddSubFrame := by
  intro i w dst src s t _ h hexec
  obtain ⟨c, hc, hrun⟩ := exec_data h
  rw [hrun] at hexec
  cases hexec
  exact ⟨sameOutside_of_advance (sameOutside_data _ s.ip _ hc), (stepFrame_data _ s.ip dst src (s.advance _) c hc).inert,
    runsOr_data _ s.ip (s.advance _) hc⟩

/-- A CMP after the advance leaves everything but `ip`, the flags and the run state (R182). -/
theorem sameButFlags_runCmp_advance (P : Config.Params) (pos : Word) {w : Width} (dst : Place w) (src : Source w)
    (s : State) (n : Nat) : SameButFlags s (runCmp P pos dst src (s.advance n)) where
  regs _ hx := getWord_runCmp_advance P pos dst src s n hx
  mem a := congrArg (Memory.read · a) (mem_runCmp P pos dst src (s.advance n))
  progLen := (stepFrame_data P pos dst src (s.advance n) _ (.inr ⟨.cmp, rfl⟩)).progLen

/-- Settles O42: a CMP row runs the rule of CMP on its operands, and that rule is inside the frame. -/
theorem cmpFrame : Obligations.CmpFrame := by
  intro i s t hi hexec
  obtain ⟨w, dst, src, ho⟩ := exists_dataOperands (isDataOp_of_isArith (.inr hi))
  rw [exec_eq_runCmp (beq_iff_eq.mp hi) ho] at hexec
  cases hexec
  have hform : ∃ op, Checked.arith .cmp w dst src = .arith op w dst src := ⟨.cmp, rfl⟩
  exact ⟨sameButFlags_runCmp_advance _ s.ip dst src s _,
    (stepFrame_data _ s.ip dst src (s.advance _) _ (.inr hform)).inert, runsOr_data _ s.ip (s.advance _) (.inr hform)⟩

end Sys2Proof.Machine
end

section
/-! SUPPORT. The conditional jumps (45_branch.md R190 to R196) and the loops (R197 to R199): not taken, taken, and to a target
out of range; what they leave unchanged; and the rounds of a loop (R200). -/

namespace Sys2Proof.Machine

/-! ### The conditional jumps -/

theorem targetOk_iff {t : Int} : targetOk t = true ↔ 0 ≤ t ∧ t ≤ 0xFFFF := by simp [targetOk]

theorem targetOk_eq_false_iff {t : Int} : targetOk t = false ↔ t < 0 ∨ 0xFFFF < t := by
  rw [← Bool.not_eq_true, targetOk_iff]
  omega

/-- A target inside the 64 KiB is the word it is stored as. -/
theorem toNat_ofInt_target {t : Int} (hlow : 0 ≤ t) (hhigh : t ≤ 0xFFFF) : ((BitVec.ofInt 16 t).toNat : Int) = t := by
  rw [BitVec.toNat_ofInt]
  omega

theorem runJump_notTaken {pos : Word} {c : Cond} {disp : Byte} {s : State} (hc : s.flags.holds c = false) :
    runJump pos c disp s = s := by
  simp [runJump, hc]

theorem runJump_inRange {pos : Word} {c : Cond} {disp : Byte} {s : State} (hc : s.flags.holds c = true)
    (ht : targetOk (branchTarget disp s) = true) :
    runJump pos c disp s = s.setIp (BitVec.ofInt 16 (branchTarget disp s)) := by
  simp [runJump, hc, ht]

theorem runJump_outOfRange {pos : Word} {c : Cond} {disp : Byte} {s : State} (hc : s.flags.holds c = true)
    (ht : targetOk (branchTarget disp s) = false) :
    runJump pos c disp s = s.raise (.branchTargetOutOfRange pos (branchTarget disp s)) := by
  simp [runJump, hc, ht]

/-- Settles O43: the jump rule after the advance, which writes no flag, so the condition is that of the state before. -/
theorem conditionalJumps : Obligations.ConditionalJumps := by
  intro i cond d s hi after target
  obtain ⟨c, hcond, hexec⟩ := exec_of_jumpOf hi
  have hholds : after.flags.holds c = cond s.flags := (hcond s.flags).symm
  rw [hexec, ← hholds]
  exact ⟨fun hc => congrArg _ (runJump_notTaken hc),
    fun hc hlow hhigh =>
      ⟨congrArg _ (runJump_inRange hc (targetOk_iff.mpr ⟨hlow, hhigh⟩)), toNat_ofInt_target hlow hhigh⟩,
    fun hc hbad => congrArg _ (runJump_outOfRange hc (targetOk_eq_false_iff.mpr hbad))⟩

/-! ### The loops -/

/-- LOOPNZ or LOOP with a displacement (R198, R199). -/
def loopInstr (nz : Bool) (d : Byte) : Instr :=
  match nz with
  | false => .loopRel8 d
  | true => .loopnzRel8 d

/-- LOOP and LOOPNZ run the loop rule after an advance of two bytes. -/
theorem exec_loopInstr (nz : Bool) (d : Byte) (s : State) :
    exec (loopInstr nz d) s = .next (runLoop s.ip nz d (s.advance 2)) := by
  cases nz with
  | false => exact exec_loopRel8 d s
  | true => exact exec_loopnzRel8 d s

theorem loopTaken_iff {nz : Bool} {c : Word} {f : Flags} :
    loopTaken nz c f = true ↔ c ≠ 0 ∧ (nz = true → f.ZF = false) := by
  cases nz <;> simp [loopTaken]

theorem loopTaken_eq_false_iff {nz : Bool} {c : Word} {f : Flags} :
    loopTaken nz c f = false ↔ c = 0 ∨ nz = true ∧ f.ZF = true := by
  cases nz <;> simp [loopTaken, or_iff_not_imp_left]

section Loop
variable {nz : Bool} {d : Byte} {s : State}

theorem exec_loop_notTaken (h : loopTaken nz (s.cx - 1) s.flags = false) :
    exec (loopInstr nz d) s = .next ((s.advance 2).setCx (s.cx - 1)) :=
  (exec_loopInstr nz d s).trans (congrArg _ (if_neg (Bool.eq_false_iff.mp h)))

theorem exec_loop_inRange (h : loopTaken nz (s.cx - 1) s.flags = true)
    (ht : targetOk (branchTarget d (s.advance 2)) = true) :
    exec (loopInstr nz d) s =
      .next (((s.advance 2).setCx (s.cx - 1)).setIp (BitVec.ofInt 16 (branchTarget d (s.advance 2)))) :=
  (exec_loopInstr nz d s).trans (congrArg _ ((if_pos h).trans (if_pos ht)))

theorem exec_loop_outOfRange (h : loopTaken nz (s.cx - 1) s.flags = true)
    (ht : targetOk (branchTarget d (s.advance 2)) = false) :
    exec (loopInstr nz d) s =
      .next ((s.advance 2).raise (.branchTargetOutOfRange s.ip (branchTarget d (s.advance 2)))) :=
  (exec_loopInstr nz d s).trans (congrArg _ ((if_pos h).trans (if_neg (Bool.eq_false_iff.mp ht))))

end Loop

/-- Settles O44: LOOP is taken on a counter that is not 0, LOOPNZ when moreover ZF = 0. -/
theorem loops : Obligations.Loops := by
  intro d s after target c
  have hloop : c ≠ 0 → loopTaken false c s.flags = true := fun hc => loopTaken_iff.mpr ⟨hc, nofun⟩
  have hloopnz : c ≠ 0 → s.flags.ZF = false → loopTaken true c s.flags = true :=
    fun hc hz => loopTaken_iff.mpr ⟨hc, fun _ => hz⟩
  exact ⟨fun hc => exec_loop_notTaken (nz := false) (loopTaken_eq_false_iff.mpr (.inl hc)),
    fun hc hlow hhigh => exec_loop_inRange (nz := false) (hloop hc) (targetOk_iff.mpr ⟨hlow, hhigh⟩),
    fun hc hbad => exec_loop_outOfRange (nz := false) (hloop hc) (targetOk_eq_false_iff.mpr hbad),
    fun h => exec_loop_notTaken (nz := true) (loopTaken_eq_false_iff.mpr (h.imp_right fun hz => ⟨rfl, hz⟩)),
    fun hc hz hlow hhigh => exec_loop_inRange (nz := true) (hloopnz hc hz) (targetOk_iff.mpr ⟨hlow, hhigh⟩),
    fun hc hz hbad => exec_loop_outOfRange (nz := true) (hloopnz hc hz) (targetOk_eq_false_iff.mpr hbad)⟩

/-! ### The frame -/

theorem getWord_setIp {x : Reg} (hx : x ≠ .ip) (s : State) (v : Word) : (s.setIp v).getWord x = s.getWord x :=
  getWord_setWord_ne s.regs (x := .ip) v hx

theorem getWord_setCx {x : Reg} (hx : x ≠ .gen .cx) (s : State) (v : Word) : (s.setCx v).getWord x = s.getWord x :=
  getWord_setWord_ne s.regs (x := .gen .cx) v hx

/-- A jump writes no memory (R192). -/
theorem runJump_mem (pos : Word) (c : Cond) (disp : Byte) (s : State) : (runJump pos c disp s).mem = s.mem := by
  rcases runJump_cases pos c disp s with ⟨_, h⟩ | ⟨_, _, h⟩ | ⟨_, _, h⟩ <;> rw [h] <;> rfl

/-- A loop writes no memory (R197). -/
theorem runLoop_mem (pos : Word) (nz : Bool) (disp : Byte) (s : State) : (runLoop pos nz disp s).mem = s.mem := by
  rcases runLoop_cases pos nz disp s with ⟨_, h⟩ | ⟨_, _, h⟩ | ⟨_, _, h⟩ <;> rw [h] <;> rfl

/-- A jump writes no register but `ip` (R192). -/
theorem getWord_runJump {x : Reg} (hx : x ≠ .ip) (pos : Word) (c : Cond) (disp : Byte) (s : State) :
    (runJump pos c disp s).getWord x = s.getWord x := by
  rcases runJump_cases pos c disp s with ⟨_, h⟩ | ⟨_, _, h⟩ | ⟨_, _, h⟩ <;> rw [h]
  · exact getWord_setIp hx s _
  · rfl

/-- A loop writes no register but `ip` and CX (R197). -/
theorem getWord_runLoop {x : Reg} (hx : x ≠ .ip) (hcx : x ≠ .gen .cx) (pos : Word) (nz : Bool) (disp : Byte) (s : State) :
    (runLoop pos nz disp s).getWord x = s.getWord x := by
  rcases runLoop_cases pos nz disp s with ⟨_, h⟩ | ⟨_, _, h⟩ | ⟨_, _, h⟩ <;> rw [h]
  · exact getWord_setCx hcx s _
  · exact (getWord_setIp hx _ _).trans (getWord_setCx hcx s _)
  · rfl

/-- Settles O45: the frame of the two rules, after the advance, which writes `ip` alone. -/
theorem jumpAndLoopFrame : Obligations.JumpAndLoopFrame := by
  refine fun i s t hexec => ⟨fun hi => ?_, fun d hi => ?_⟩
  · obtain ⟨⟨cond, d⟩, hjump⟩ := Option.isSome_iff_exists.mp hi
    obtain ⟨c, _, hrun⟩ := exec_of_jumpOf hjump
    rw [hrun] at hexec
    cases hexec
    exact ⟨runJump_flags s.ip c d _,
      { regs := fun x hx => (getWord_runJump hx s.ip c d _).trans (getWord_advance hx s 2)
        mem := fun a => congrArg (Memory.read · a) (runJump_mem s.ip c d _)
        progLen := (stepFrame_runChecked Config.reference s.ip (.jump c d) (s.advance 2)).progLen },
      runsOr_jump s.ip c d _⟩
  · obtain ⟨nz, rfl⟩ : ∃ nz, i = loopInstr nz d := hi.elim (⟨false, ·⟩) (⟨true, ·⟩)
    rw [exec_loopInstr] at hexec
    cases hexec
    exact ⟨runLoop_flags s.ip nz d _, runLoop_mem s.ip nz d _,
      (stepFrame_runChecked Config.reference s.ip (.loop nz d) (s.advance 2)).progLen, runsOr_loop s.ip nz d _,
      fun x hx hcx => (getWord_runLoop hx hcx s.ip nz d _).trans (getWord_advance hx s 2)⟩

/-! ### The rounds of a loop -/

/-- The conditions of R200 on one round: from the state `u` the body comes to the loop instruction at `bottom` without
writing CX and, for LOOPNZ, with ZF = 0. -/
structure ReachesLoop (nz : Bool) (bottom : Word) (body : State → State) (u : State) : Prop where
  cx : (body u).cx = u.cx
  ip : (body u).ip = bottom
  zf : nz = true → (body u).flags.ZF = false

/-- Where the two bytes of the instruction end inside 0 .. 0xFFFF, the advance does not wrap (R112). -/
theorem branchTarget_advance {s : State} (h : s.ip.toNat + 2 ≤ 0xFFFF) (d : Byte) :
    branchTarget d (s.advance 2) = (s.ip.toNat : Int) + 2 + d.toInt := by
  have hnext : (s.ip + BitVec.ofNat 16 2).toNat = s.ip.toNat + 2 := by
    rw [BitVec.toNat_add_of_lt (by simp; omega)]
    rfl
  rw [branchTarget, advance_ip, hnext, Nat.cast_add, Nat.cast_ofNat]

theorem loopRound_of_exec {i : Instr} {body : State → State} {u t : State} (h : exec i (body u) = .next t) :
    loopRound i body u = t := by
  simp [loopRound, h]

section Rounds
variable {nz : Bool} {d : Byte} {body : State → State} {top bottom : Word}

/-- With CX above 1 the loop is taken: CX is one less and `ip` is back at the start of the loop (R198, R199). -/
theorem loopRound_taken {u : State} (hb : ReachesLoop nz bottom body u) (hend : bottom.toNat + 2 ≤ 0xFFFF)
    (hback : (bottom.toNat : Int) + 2 + d.toInt = top.toNat) (hcx : 1 < u.cx.toNat) :
    (loopRound (loopInstr nz d) body u).cx.toNat = u.cx.toNat - 1 ∧ (loopRound (loopInstr nz d) body u).ip = top := by
  obtain ⟨hbcx, hbip, hbzf⟩ := hb
  have hc : (u.cx - 1).toNat = u.cx.toNat - 1 := BitVec.toNat_sub_of_le (BitVec.le_def.mpr hcx.le)
  have hne : u.cx - 1 ≠ 0 := fun h => by rw [h] at hc; simp at hc; omega
  have htaken : loopTaken nz ((body u).cx - 1) (body u).flags = true := loopTaken_iff.mpr ⟨hbcx ▸ hne, hbzf⟩
  have htarget : branchTarget d ((body u).advance 2) = top.toNat := by
    rw [branchTarget_advance (hbip ▸ hend), hbip, hback]
  have hok : targetOk (top.toNat : Int) = true := targetOk_iff.mpr ⟨by omega, by omega⟩
  rw [loopRound_of_exec (exec_loop_inRange htaken (htarget ▸ hok)), htarget, hbcx]
  exact ⟨hc, by simp⟩

/-- With CX = 1 the loop falls through: CX is 0 and `ip` is the address after the instruction (R198, R199). -/
theorem loopRound_fallsThrough {u : State} (hb : ReachesLoop nz bottom body u) (hcx : u.cx.toNat = 1) :
    (loopRound (loopInstr nz d) body u).cx = 0 ∧ (loopRound (loopInstr nz d) body u).ip = bottom + 2 := by
  obtain ⟨hbcx, hbip, _⟩ := hb
  have hc : (body u).cx - 1 = 0 := by
    rw [hbcx, BitVec.eq_of_toNat_eq (y := 1) hcx]
    rfl
  rw [loopRound_of_exec (exec_loop_notTaken (loopTaken_eq_false_iff.mpr (.inl hc))), hc, ← hbip]
  exact ⟨rfl, rfl⟩

/-- The loop-count law (R200), by induction on the rounds. The body is asked for its part only in rounds that begin at the
start of the loop. -/
theorem loop_count {s : State} {n : Nat} (hend : bottom.toNat + 2 ≤ 0xFFFF)
    (hback : (bottom.toNat : Int) + 2 + d.toInt = top.toNat) (hip : s.ip = top) (hcx : s.cx.toNat = n) (hn : 1 ≤ n)
    (hbody : ∀ k, k < n → ((loopRound (loopInstr nz d) body)^[k] s).ip = top →
      ReachesLoop nz bottom body ((loopRound (loopInstr nz d) body)^[k] s)) :
    (∀ k, k < n → ((loopRound (loopInstr nz d) body)^[k] s).cx.toNat = n - k ∧
      ((loopRound (loopInstr nz d) body)^[k] s).ip = top) ∧
    ((loopRound (loopInstr nz d) body)^[n] s).cx = 0 ∧ ((loopRound (loopInstr nz d) body)^[n] s).ip = bottom + 2 := by
  have hrounds : ∀ k, k < n → ((loopRound (loopInstr nz d) body)^[k] s).cx.toNat = n - k ∧
      ((loopRound (loopInstr nz d) body)^[k] s).ip = top := by
    intro k
    induction k with
    | zero => exact fun _ => ⟨hcx, hip⟩
    | succ k ih =>
      intro hk
      obtain ⟨hcx', hip'⟩ := ih (by omega)
      rw [Function.iterate_succ_apply']
      obtain ⟨hnext, htop⟩ := loopRound_taken (hbody k (by omega) hip') hend hback (by omega)
      exact ⟨by omega, htop⟩
  obtain ⟨m, rfl⟩ : ∃ m, n = m + 1 := ⟨n - 1, by omega⟩
  obtain ⟨hlast, htop⟩ := hrounds m (by omega)
  rw [Function.iterate_succ_apply']
  exact ⟨hrounds, loopRound_fallsThrough (hbody m (by omega) htop) (by omega)⟩

end Rounds

/-- Settles O57: the law asks of each round what the statement gives. -/
theorem loopRunsItsBodyNTimes : Obligations.LoopRunsItsBodyNTimes := by
  intro i body s n d top bottom round hi hbody hend hback hip hcx hn
  rcases hi with rfl | ⟨rfl, hzf⟩
  · exact loop_count (nz := false) hend hback hip hcx hn
      fun k hk _ => ⟨(hbody k hk).1, (hbody k hk).2, nofun⟩
  · exact loop_count (nz := true) hend hback hip hcx hn
      fun k hk _ => ⟨(hbody k hk).1, (hbody k hk).2, fun _ => hzf k hk⟩

/-- Settles O46: the loop of one instruction, whose displacement of -2 leads back to it; a body that leaves `ip` alone ends at
the instruction in every round that begins there. -/
theorem loopCountLaw : Obligations.LoopCountLaw := by
  intro i body s n hi hbody hcx hn hend
  have hback : (s.ip.toNat : Int) + 2 + (0xFE : Byte).toInt = s.ip.toNat := by
    rw [show (0xFE : Byte).toInt = -2 from rfl]
    omega
  rcases hi with rfl | ⟨rfl, hzf⟩
  · exact loop_count (nz := false) hend hback rfl hcx hn
      fun k _ hip => ⟨(hbody _).1, (hbody _).2.trans hip, nofun⟩
  · exact loop_count (nz := true) hend hback rfl hcx hn
      fun k _ hip => ⟨(hbody _).1, (hbody _).2.trans hip, fun _ => hzf _⟩

end Sys2Proof.Machine
end

section
/-! SUPPORT. The error halts (60_exceptions.md R210, R211): a record that ends the run raises its halt in the state after the
advance, with nothing else changed, and the checks and the rule of a record come in the order of R218. -/

namespace Sys2Proof.Machine

/-! ### Outcome codes -/

/-- Settles O16: the codes are those the table lists. -/
theorem outcomeCodes : Obligations.OutcomeCodes :=
  ⟨rfl, rfl, fun _ _ _ _ _ _ => ⟨rfl, rfl, rfl, rfl, rfl, rfl⟩⟩

/-! ### A halt changes nothing but the run -/

/-- MOV, ADD, SUB and CMP end the run only with AddressOutOfRange, before any write (R116, R211). -/
theorem runChecked_data_halts {P : Config.Params} {pos : Word} {w : Width} {dst : Place w} {src : Source w} {c : Checked}
    {s : State} {r : HaltRecord} (hc : c = .move w dst src ∨ ∃ op, c = .arith op w dst src) (hrun : s.run = .running)
    (h : (runChecked P pos c s).run = .haltedError r) :
    ∃ a, r = .addressOutOfRange pos a w ∧ runChecked P pos c s = s.raise r := by
  rcases runChecked_data_cases P pos dst src s c hc with ⟨a, _, ht⟩ | ⟨_, f, _, ⟨v, ht⟩ | ht⟩ <;> rw [ht] at h
  · cases h
    exact ⟨a, rfl, ht⟩
  · cases hrun.symm.trans ((placeWrite_run s dst v).symm.trans h)
  · cases hrun.symm.trans h

/-- A conditional jump ends the run only with BranchTargetOutOfRange (R192, R217). -/
theorem runJump_halts {pos : Word} {c : Cond} {disp : Byte} {s : State} {r : HaltRecord} (hrun : s.run = .running)
    (h : (runJump pos c disp s).run = .haltedError r) :
    ∃ target, r = .branchTargetOutOfRange pos target ∧ runJump pos c disp s = s.raise r := by
  rcases runJump_cases pos c disp s with ⟨_, ht⟩ | ⟨_, _, ht⟩ | ⟨_, _, ht⟩ <;> rw [ht] at h
  · cases hrun.symm.trans h
  · cases hrun.symm.trans h
  · cases h
    exact ⟨_, rfl, ht⟩

/-- A loop ends the run only with BranchTargetOutOfRange, before CX is written (R197, R217). -/
theorem runLoop_halts {pos : Word} {nz : Bool} {disp : Byte} {s : State} {r : HaltRecord} (hrun : s.run = .running)
    (h : (runLoop pos nz disp s).run = .haltedError r) :
    ∃ target, r = .branchTargetOutOfRange pos target ∧ runLoop pos nz disp s = s.raise r := by
  rcases runLoop_cases pos nz disp s with ⟨_, ht⟩ | ⟨_, _, ht⟩ | ⟨_, _, ht⟩ <;> rw [ht] at h
  · cases hrun.symm.trans h
  · cases hrun.symm.trans h
  · cases h
    exact ⟨_, rfl, ht⟩

/-- A rule that ends the run raises one of its two halts, at the instruction's address, and does nothing else (R211). -/
theorem runChecked_halts {P : Config.Params} {pos : Word} {c : Checked} {s : State} {r : HaltRecord}
    (hrun : s.run = .running) (h : (runChecked P pos c s).run = .haltedError r) :
    runChecked P pos c s = s.raise r ∧
      ((∃ a w, r = .addressOutOfRange pos a w) ∨ ∃ target, r = .branchTargetOutOfRange pos target) := by
  cases c with
  | move w dst src =>
    obtain ⟨a, hr, ht⟩ := runChecked_data_halts (.inl rfl) hrun h
    exact ⟨ht, .inl ⟨a, w, hr⟩⟩
  | arith op w dst src =>
    obtain ⟨a, hr, ht⟩ := runChecked_data_halts (.inr ⟨op, rfl⟩) hrun h
    exact ⟨ht, .inl ⟨a, w, hr⟩⟩
  | jump c disp =>
    obtain ⟨target, hr, ht⟩ := runJump_halts hrun h
    exact ⟨ht, .inr ⟨target, hr⟩⟩
  | loop nz disp =>
    obtain ⟨target, hr, ht⟩ := runLoop_halts hrun h
    exact ⟨ht, .inr ⟨target, hr⟩⟩

/-- A record that ends the run raises its halt after the advance and does nothing else, and the halt is no DecodeFailure
(R112, R211). -/
theorem runRecord_halts {P : Config.Params} {rec : Record} {s : State} {r : HaltRecord} (hrun : s.run = .running)
    (h : (runRecord P rec s).run = .haltedError r) :
    runRecord P rec s = (s.advance rec.size).raise r ∧ r.code ≠ 1 := by
  rcases runRecord_cases P rec s with ⟨t, _, ht⟩ | ⟨k, _, ht⟩ | ⟨k, _, ht⟩ | ⟨_, c, _, _, _, ht⟩ <;> rw [ht] at h ⊢
  · cases h
    exact ⟨rfl, nofun⟩
  · cases h
    exact ⟨rfl, nofun⟩
  · cases h
    exact ⟨rfl, nofun⟩
  · obtain ⟨hraise, ⟨a, w, rfl⟩ | ⟨target, rfl⟩⟩ := runChecked_halts (s := s.advance rec.size) hrun h
    · exact ⟨hraise, nofun⟩
    · exact ⟨hraise, nofun⟩

/-- The record of an answer within the decoder's contract has the size the decoder consumed (R70). -/
theorem eq_some_of_decodeOk {D : Decoder} {window : List Byte} {rec : Record} (h : decodeOk D window = some rec) :
    D window = some (rec, rec.size) ∧ 1 ≤ rec.size ∧ rec.size ≤ window.length := by
  unfold decodeOk at h
  split at h
  · rename_i rec' n hd
    split at h
    · rename_i hcontract
      obtain ⟨hmin, hmax, rfl⟩ := hcontract
      cases h
      exact ⟨hd, hmin, hmax⟩
    · cases h
  · cases h

/-- A step that ends in an error halt raises DecodeFailure where it stands, or the halt of the fetched record after the
advance past it (R112, R211). -/
theorem stepWith_halts {P : Config.Params} {D : Decoder} {s t : State} {r : HaltRecord} (h : stepWith P D s = .next t)
    (ht : t.run = .haltedError r) :
    (t = s.raise r ∧ r.code = 1) ∨
    ∃ rec, decodeOk D s.window = some rec ∧ t = (s.advance rec.size).raise r ∧ r.code ≠ 1 := by
  by_cases hrun : s.run = .running
  · rcases Nat.lt_or_ge s.ip.toNat s.progLen with hlt | hend
    · cases hd : decodeOk D s.window with
      | none =>
        rw [stepWith_of_no_record hrun hlt hd] at h
        cases h
        cases ht
        exact .inl ⟨rfl, rfl⟩
      | some rec =>
        rw [stepWith_of_record hrun hlt hd] at h
        cases h
        exact .inr ⟨rec, rfl, runRecord_halts hrun ht⟩
    · rw [stepWith_of_end hrun hend] at h
      cases h
      cases ht
  · rw [stepWith_of_halted P D hrun] at h
    cases h

/-- Settles O15: a halt is raised in the state before the step or in that state after the advance. -/
theorem errorHaltsArePrecise : Obligations.ErrorHaltsArePrecise := by
  intro P D s t r h ht
  rcases stepWith_halts h ht with ⟨rfl, hcode⟩ | ⟨rec, hd, rfl, hcode⟩
  · exact ⟨rfl, rfl, rfl, fun _ _ => rfl, fun _ => rfl, fun hne => absurd hcode hne⟩
  · obtain ⟨hdec, hmin, hmax⟩ := eq_some_of_decodeOk hd
    rw [length_window] at hmax
    exact ⟨rfl, rfl, rfl, fun x hx => getWord_advance hx s rec.size, fun heq => absurd heq hcode,
      fun _ => ⟨rec, rec.size, hdec, rfl, hmin, hmax, rfl⟩⟩

/-! ### The order of the halts of one record (R218) -/

section Order
variable {P : Config.Params} {rec : Record}

/-- OTHER(t) halts before any operand is looked at (R212). -/
theorem runRecord_of_other {t : String} (h : rec.op = .other t) (s : State) :
    runRecord P rec s = (s.advance rec.size).raise (.unimplementedOpcode s.ip t) := by
  simp [runRecord, dispatch, h, shapeCheck]

/-- An opcode that has a row halts at a broken register contract before its operand shapes are checked (R117). -/
theorem runRecord_of_registerViolation {check : List OperandRec → Except (Option Nat) Checked} {k : Nat}
    (hcheck : shapeCheck P rec.op = .ok check) (h : registerViolation rec.operands = some k) (s : State) :
    runRecord P rec s = (s.advance rec.size).raise (.registerIndexViolation s.ip k) := by
  simp [runRecord, dispatch, hcheck, h]

/-- A record that keeps the register contract halts at an error of the shape check before its rule runs (R117). -/
theorem runRecord_of_shapeError {check : List OperandRec → Except (Option Nat) Checked} {k : Option Nat}
    (hcheck : shapeCheck P rec.op = .ok check) (hviol : registerViolation rec.operands = none)
    (h : check rec.operands = .error k) (s : State) :
    runRecord P rec s = (s.advance rec.size).raise (.operandTypeMismatch s.ip k) := by
  simp [runRecord, dispatch, hcheck, hviol, h]

/-- The position of a register violation is that of the first operand that breaks the contract. -/
theorem registerViolation_eq_some {operands : List OperandRec} {k : Nat} {o : OperandRec} (ho : operands[k]? = some o)
    (hbad : registersOk o = false)
    (hfirst : ∀ j o', j < k → operands[j]? = some o' → registersOk o' = true) :
    registerViolation operands = some k := by
  obtain ⟨hk, rfl⟩ := List.getElem?_eq_some_iff.mp ho
  refine List.findIdx?_eq_some_iff_getElem.mpr ⟨hk, by simp [hbad], fun j hj => ?_⟩
  simp [hfirst j _ hj (List.getElem?_eq_getElem _)]

/-- A place whose address, where it has one, is admitted lies in the bank (R58). -/
theorem inBank_of_admitted {r : Regs} {w : Width} {p : Place w}
    (h : ∀ a, Place.ea? r p = some a → admitted P.memSize a w = true) : Place.inBank P r p = true := by
  cases p with
  | mem terms disp => exact h _ rfl
  | half r k => rfl
  | gen g => rfl
  | seg sr => rfl

/-- The range check reports the first operand, destination before source, whose access is outside the bank (R116). -/
theorem rangeViolation_of_first_outside {r : Regs} {o0 o1 o : OperandRec} {w w' : Width} {dst : Place w} {src : Source w}
    (h0 : shapeOf o0 = some (.place w dst)) (h1 : shapeOf o1 = some (Source.shape src)) {k : Nat} {a : Int}
    (ho : [o0, o1][k]? = some o) (hout : accessOutside P r o a w')
    (hfirst : ∀ j o' a' w', j < k → [o0, o1][j]? = some o' → ¬ accessOutside P r o' a' w') :
    w = w' ∧ rangeViolation P dst src r = some a := by
  match k, ho with
  | 0, rfl =>
    obtain ⟨ha, hw, hbad⟩ := (accessOutside_place h0).mp hout
    exact ⟨hw, rangeViolation_of_destination src ha hbad⟩
  | 1, rfl =>
    obtain ⟨ha, hw, hbad⟩ := (accessOutside_source h1).mp hout
    have hdst : Place.inBank P r dst = true := inBank_of_admitted fun b hb => Bool.of_not_eq_false fun hbad =>
      hfirst 0 o0 b w Nat.zero_lt_one rfl ((accessOutside_place h0).mpr ⟨hb, rfl, hbad⟩)
    exact ⟨hw, rangeViolation_of_source hdst ha hbad⟩

/-- An operand outside the bank halts any of the four operations (R58). -/
theorem runChecked_checked_halt (b : BinOp) {pos : Word} {w : Width} {dst : Place w} {src : Source w} {s : State} {a : Int}
    (h : rangeViolation P dst src s.regs = some a) :
    runChecked P pos (b.checked w dst src) s = s.raise (.addressOutOfRange pos a w) := by
  cases b with
  | mov => exact runChecked_move_halt h
  | arith op => exact runChecked_arith_halt h

/-- A MOV, ADD, SUB or CMP record that fits its row halts at the first operand whose access is outside the bank (R116). -/
theorem runRecord_of_first_outside {s : State} {k : Nat} {o : OperandRec} {a : Int} {w : Width}
    (hop : isDataOp rec.op = true) (hok : ∀ o ∈ rec.operands, registersOk o = true)
    (hfits : fitsTable P rec.op rec.operands) (ho : rec.operands[k]? = some o) (hout : accessOutside P s.regs o a w)
    (hfirst : ∀ j o' a' w', j < k → rec.operands[j]? = some o' → ¬ accessOutside P s.regs o' a' w') :
    runRecord P rec s = (s.advance rec.size).raise (.addressOutOfRange s.ip a w) := by
  obtain ⟨b, hb⟩ := exists_tag_of_isDataOp hop
  obtain ⟨c, hc⟩ := checkBinary_of_fitsTable hok (hb ▸ hfits)
  rw [runRecord_of_checked (hb ▸ shapeCheck_tag P b) (registerViolation_eq_none.mpr hok) hc]
  obtain ⟨o0, o1, _, dst, src, hops, rfl, h0, h1⟩ := checkBinary_ok_shapes hc
  rw [hops] at ho hfirst
  obtain ⟨rfl, hr⟩ := rangeViolation_of_first_outside h0 h1 ho hout hfirst
  exact runChecked_checked_halt b (by rw [advance_regs, rangeViolation_setIp, hr])

/-- A shape check whose checked form raises BranchTargetOutOfRange is that of a jump or loop: MOV, ADD, SUB and CMP end the run
with AddressOutOfRange alone. -/
theorem isDataOp_eq_false_of_branchHalt {check : List OperandRec → Except (Option Nat) Checked} {operands : List OperandRec}
    {op : Op} {c : Checked} {pos pos' : Word} {s : State} {target : Int} (hcheck : shapeCheck P op = .ok check)
    (hc : check operands = .ok c) (hrun : s.run = .running)
    (h : (runChecked P pos c s).run = .haltedError (.branchTargetOutOfRange pos' target)) : isDataOp op = false := by
  rcases shapeCheck_cases hcheck with ⟨b, _, rfl⟩ | ⟨hop, _⟩
  · obtain ⟨_, _, w, dst, src, _, rfl, _⟩ := checkBinary_ok_shapes hc
    obtain ⟨_, hr, _⟩ := runChecked_data_halts (checked_move_or_arith b w dst src) hrun h
    cases hr
  · exact hop

/-- Only a jump or loop that fits its row reports a branch target, at its own address (R217, R218): the checks raise their own
halts. -/
theorem fits_of_branchHalt {s : State} {pos : Word} {target : Int} (hrun : s.run = .running)
    (h : (runRecord P rec s).run = .haltedError (.branchTargetOutOfRange pos target)) :
    pos = s.ip ∧ isDataOp rec.op = false ∧ fitsTable P rec.op rec.operands := by
  rcases runRecord_cases P rec s with ⟨_, _, ht⟩ | ⟨_, _, ht⟩ | ⟨_, _, ht⟩ | ⟨check, c, hcheck, hviol, hc, ht⟩ <;>
    rw [ht] at h
  · cases h
  · cases h
  · cases h
  · have hfits := (exists_checked_iff_fitsTable hcheck (registerViolation_eq_none.mp hviol)).mp ⟨c, hc⟩
    have hop := isDataOp_eq_false_of_branchHalt (s := s.advance rec.size) hcheck hc hrun h
    obtain ⟨_, ⟨_, _, hr⟩ | ⟨_, hr⟩⟩ := runChecked_halts (s := s.advance rec.size) hrun h
    · cases hr
    · cases hr
      exact ⟨rfl, hop, hfits⟩

end Order

/-- Settles O51: each clause is the halt of one stage, given that the stages before it pass. -/
theorem recordHaltsInOrder : Obligations.RecordHaltsInOrder := by
  refine fun P rec s => ⟨fun _ hop => runRecord_of_other hop s, fun k o hother ho hbad hfirst => ?_,
    fun check k hcheck hok => ?_, fun k o a w hop hok hfits => ?_, fun pos target hrun => ?_⟩
  · obtain ⟨check, hcheck⟩ := exists_shapeCheck P hother
    exact runRecord_of_registerViolation hcheck (registerViolation_eq_some ho hbad hfirst) s
  · exact fun herr => runRecord_of_shapeError hcheck (registerViolation_eq_none.mpr hok) herr s
  · exact runRecord_of_first_outside hop hok hfits
  · exact fits_of_branchHalt hrun

end Sys2Proof.Machine
end

section
/-! SUPPORT. The run outputs (70_reset_and_hazards.md R236) as filters of the fixed orders of the registers (10_state.md R20) and
of the flags: what is listed, once, and in which order. -/

namespace Sys2Proof.Machine

/-! ### The fixed orders -/

/-- The fixed order leaves out no register (R20). -/
@[simp] theorem mem_regAll (r : Reg) : r ∈ Reg.all := by
  rcases r with g | sr | _
  · cases g <;> decide
  · cases sr <;> decide
  · decide

/-- The fixed order names each register once (R20). -/
theorem regAll_nodup : Reg.all.Nodup := by decide

/-- The fixed order leaves out no flag (R236). -/
@[simp] theorem mem_flagAll (f : Flag) : f ∈ Flag.all := by
  cases f <;> decide

/-- A letter stands for one flag: the letters of the fixed order are distinct (R236). -/
theorem flagLetter_injective : Function.Injective Flag.letter := fun f g =>
  List.inj_on_of_nodup_map (f := Flag.letter) (l := Flag.all) (by decide) (mem_flagAll f) (mem_flagAll g)

/-! ### The registers shown -/

/-- An output is listed exactly when its register is not 0 and its values are the register's. -/
theorem mem_registerOutputs_iff (s : State) (o : RegOutput) :
    o ∈ registerOutputs s ↔
      s.getWord o.reg ≠ 0 ∧ o.unsigned = (s.getWord o.reg).toNat ∧ o.signed = (s.getWord o.reg).toInt := by
  simp only [registerOutputs, List.mem_map, List.mem_filter, mem_regAll, true_and, bne_iff_ne]
  constructor
  · rintro ⟨r, hne, rfl⟩
    exact ⟨hne, rfl, rfl⟩
  · rintro ⟨hne, hu, hs⟩
    exact ⟨o.reg, hne, (RegOutput.mk.injEq ..).mpr ⟨rfl, hu.symm, hs.symm⟩⟩

/-- The registers shown are the fixed order without the registers that are 0. -/
theorem registerOutputs_map_reg (s : State) :
    (registerOutputs s).map RegOutput.reg = Reg.all.filter fun r => s.getWord r != 0 := by
  simp [registerOutputs, Function.comp_def]

/-! ### The flags code -/

/-- A flag's letter is shown exactly when the flag is set: no other flag has this letter. -/
theorem letter_mem_flagsCode_iff (s : State) (f : Flag) : f.letter ∈ flagsCode s ↔ s.flags.get f = true := by
  rw [flagsCode, List.mem_map_of_injective flagLetter_injective, List.mem_filter]
  exact and_iff_right (mem_flagAll f)

/-- The letters shown keep the fixed order. -/
theorem flagsCode_sublist (s : State) : (flagsCode s).Sublist (Flag.all.map Flag.letter) :=
  List.filter_sublist.map Flag.letter

/-- Settles O56: both outputs filter a fixed order, which names each register and each flag's letter once. -/
theorem runOutputsShowNonZeroRegistersAndActiveFlags : Obligations.RunOutputsShowNonZeroRegistersAndActiveFlags := by
  refine fun s => ⟨mem_registerOutputs_iff s, ?_, ?_, letter_mem_flagsCode_iff s, flagsCode_sublist s⟩
  · exact registerOutputs_map_reg s ▸ regAll_nodup.filter _
  · exact registerOutputs_map_reg s ▸ List.filter_sublist

end Sys2Proof.Machine
end
